-- ==== Sys2Proof/Word.lean ====
section
/-! DEFINITION. The word types of the block: what the spec treats as bits. Quantities whose width is a
build-time parameter (ticks, `uTB`) are natural numbers, kept in range by the invariants of Safety.lean. -/

namespace Sys2Proof

/-- A serial byte. -/
abbrev Byte := BitVec 8

/-- A 32-bit register of the register space (R80), or a stored `s32` quantity (R18). -/
abbrev Word := BitVec 32

/-- A 16-bit operation word (R100). -/
abbrev OpWord := BitVec 16

/-- A count of the edge timer, `uTB` with `TB` a parameter of R8 (R19). -/
abbrev Tick := Nat

end Sys2Proof
end

