-- ==== Sys2Proof/Config.lean ====
section
/-! DEFINITION. What an implementation fixes: the build-time parameters of R8, the configuration record
(R50), the persisted copies (R56), and the fixed constants of the configuration port (R9). -/

namespace Sys2Proof

/-- The encoder counting policy (R4, R143). -/
inductive EncPolicy where
  | inc
  | quad
deriving DecidableEq, Repr

/-- The receiver wiring (R4, R180). -/
inductive RxMode where
  | seq
  | par
deriving DecidableEq, Repr

/-- The configuration fields of one axis, with the widths of R50. `kp`, `ki` and `kd` are `s32` in Q(S);
`calm` is stored, read back and persisted, and no rule reads it (R230). -/
structure AxisCfg where
  kp : Word
  ki : Word
  kd : Word
  blend : BitVec 16
  ewin : BitVec 8
  rev : BitVec 8
  calm : BitVec 8
deriving DecidableEq, Repr

/-- A configuration record: the fields of every axis (R50). -/
abbrev Record := List AxisCfg

/-- The record of an axis that a malformed record does not hold. No legal record lacks an axis. -/
def AxisCfg.zero : AxisCfg :=
  { kp := 0, ki := 0, kd := 0, blend := 0, ewin := 0, rev := 0, calm := 0 }

/-- The fields of axis `a` of a record. -/
def Record.axis (r : Record) (a : Nat) : AxisCfg := r.getD a AxisCfg.zero

/-- One persisted copy (R56): `valid = false` models a copy whose checksum fails. -/
structure NvCopy where
  record : Record
  valid : Bool
deriving DecidableEq, Repr

/-- The three redundant persisted copies (R56). -/
structure NvStore where
  copy0 : NvCopy
  copy1 : NvCopy
  copy2 : NvCopy
deriving DecidableEq, Repr

/-- The build-time parameters of R8. `CB`, `OB`: counter widths; `sfrac` is `S`, the fraction bits. The
constraints of R8 are `Params.legal`; `PORT_BITS`, `BLEND_ONE` and `MOTOR_MAX` admit one value and are
constants. -/
structure Params where
  cb : Nat
  ob : Nat
  nax : Nat
  encPolicy : EncPolicy
  wCap : Nat
  encCalDiv : Nat
  encFrameOvf : Nat
  rxFrameOvf : Nat
  rxMode : RxMode
  nch : Nat
  chBit : List Nat
  rxN : Nat
  calMin : List Nat
  calMax : List Nat
  range : Nat
  axCh : List Nat
  lossT : Nat
  fadeF : Nat
  sfrac : Nat
  intDiv : Nat
  serFifoCap : Nat
  serTimeout : Nat
  defaultCfg : Record
deriving DecidableEq, Repr

namespace Config

/-- BLEND_ONE (R8). -/
def blendOne : Nat := 256

/-- MOTOR_MAX (R8). -/
def motorMax : Nat := 100

/-- The handshake byte (R9). -/
def handshakeByte : Byte := 0x55

/-- The ACK byte (R9). -/
def ackByte : Byte := 0xAC

/-- FINISH, the whole opcode byte (R9, R109). -/
def finishByte : Byte := 0xFF

/-- DEFAULT_CFG's fields of one axis as 95_test_vectors.md section 0 takes them. An OPEN parameter (R8).
DESIGN CHOICE, unsafe (log 3). -/
def testAxisCfg : AxisCfg :=
  { kp := 65536, ki := 0, kd := 0, blend := 128, ewin := 5, rev := 0, calm := 0 }

/-- The parameter set of `State.reset`: the value column of R8 and, for the OPEN parameters, the test
values of 95_test_vectors.md section 0. DESIGN CHOICE, unsafe (log 2). -/
def testParams : Params :=
  { cb := 8, ob := 8, nax := 2, encPolicy := .quad, wCap := 32, encCalDiv := 1, encFrameOvf := 4,
    rxFrameOvf := 8, rxMode := .seq, nch := 2, chBit := [0, 1], rxN := 7,
    calMin := [1120, 1120], calMax := [1920, 1920], range := 100, axCh := [0, 1],
    lossT := 1000, fadeF := 1000, sfrac := 16, intDiv := 1, serFifoCap := 64, serTimeout := 5000,
    defaultCfg := [testAxisCfg, testAxisCfg] }

/-- NV_INIT as 95_test_vectors.md section 0 takes it: three valid copies of DEFAULT_CFG. An OPEN
parameter (R8, R56). DESIGN CHOICE, unsafe (log 3). -/
def testNvInit : NvStore :=
  let c : NvCopy := { record := testParams.defaultCfg, valid := true }
  { copy0 := c, copy1 := c, copy2 := c }

/-- Whether the axes without a parameter id are configured by DEFAULT_CFG only, as R317 says, or voted from the
persisted copies, as R322 says: the rules clash, so this is a free value, one for a block. DESIGN CHOICE (log 25). -/
opaque idlessByDefault : Bool

end Config

end Sys2Proof
end

