-- ==== Sys2Proof/Syntax.lean ====
section
/-! DEFINITION. The operations of the block, one constructor per row of spec/opcode_table.json, and the two
encoded interfaces they are written in (R100-R114). -/

namespace Sys2Proof

/-- The seven fields of a configuration record (R50). -/
inductive Field where
  | kp
  | ki
  | kd
  | blend
  | ewin
  | rev
  | calm
deriving DecidableEq, Repr

/-- The operations. The first ten are the operation words of R102, with exactly the operand fields of
R101; the last four are the serial commands of R109 and R113. `v` holds the value bytes that follow the
opcode byte of a request, so the request's length byte is `1 + v.length` (R108). -/
inductive Instr where
  /-- TICK: `k` is the count less one (R103, R140). -/
  | tick (k : BitVec 12)
  /-- ENC: axis, and the state with bit 1 = A and bit 0 = B (R103, R143). -/
  | enc (axis : BitVec 4) (ab : BitVec 2)
  /-- RX: the receiver port value (R180). -/
  | rx (port : Byte)
  /-- SER: a received byte (R310). -/
  | ser (b : Byte)
  /-- NVFAULT: the copy index (R361). -/
  | nvfault (copy : BitVec 2)
  /-- RDREG: the register word address (R360). -/
  | rdreg (addr : BitVec 12)
  /-- SVC.ENC (R282). -/
  | svcEnc
  /-- SVC.RX (R285). -/
  | svcRx
  /-- SVC.CFG (R313). -/
  | svcCfg
  /-- RESET (R362). -/
  | reset
  /-- REQ.READ, opcode bytes 0x00-0x0F: the parameter id, and any value bytes (R109, R314). -/
  | reqRead (id : BitVec 4) (v : List Byte)
  /-- REQ.WRITE, opcode bytes 0x30-0x3F: the parameter id and the value bytes (R109, R315). -/
  | reqWrite (id : BitVec 4) (v : List Byte)
  /-- REQ.FINISH, opcode byte 0xFF: any value bytes (R109, R316). -/
  | reqFinish (v : List Byte)
  /-- HANDSHAKE: the single byte 0x55 in NORMAL mode (R113, R283). -/
  | handshake
deriving DecidableEq, Repr

/-- A configuration request that names a command (R109): what SVC.CFG carries out. -/
inductive Request where
  | read (id : BitVec 4) (v : List Byte)
  | write (id : BitVec 4) (v : List Byte)
  | finish (v : List Byte)
deriving DecidableEq, Repr

/-- The operation that is the serial command of a request. -/
def Request.toInstr : Request → Instr
  | .read id v => .reqRead id v
  | .write id v => .reqWrite id v
  | .finish v => .reqFinish v

/-- What an operation is written as: an operation word (R100), the bytes of a configuration request
`[L][OP][V...]` (R108), or the unframed handshake byte of NORMAL mode (R113). -/
inductive Encoded where
  | word (w : OpWord)
  | request (bs : List Byte)
  | byte (b : Byte)
deriving DecidableEq, Repr

end Sys2Proof
end

