-- ==== Sys2Proof/Decode.lean ====
section
/-! DEFINITION. The decoder of operation words and serial requests (R100-R114), total, rejecting by name,
and after it the encoder, written from the same tables. -/

namespace Sys2Proof

/-- Why an encoding spells no operation. -/
inductive DecodeError where
  /-- An operation word of KIND 0x0, 0x7 or 0xB-0xE (R106). -/
  | reservedKind
  /-- A nonzero bit in a field that R101 marks 0 (R106). -/
  | mustBeZero
  /-- ENC with AX ≥ NAX (R104). -/
  | axisOutOfRange
  /-- NVFAULT with CP = 3 (R104). -/
  | noSuchCopy
  /-- A request whose length byte is 0, above 5, or not the number of bytes after it (R108, R114). -/
  | badLength
  /-- An opcode byte that names no command (R109). -/
  | invalidCommand
  /-- A byte other than the handshake byte (R113). -/
  | notHandshake
deriving DecidableEq, Repr

/-- The KIND field, bits 15:12 (R100). -/
def kindOf (w : OpWord) : BitVec 4 := w.extractLsb' 12 4

/-- Bits 11:8 of an operation word: zero in formats P, B, N and S, the axis in format E (R101). -/
def nibbleOf (w : OpWord) : BitVec 4 := w.extractLsb' 8 4

/-- Accept `i` where the bits that R101 marks 0 are zero. -/
def requireZero {n : Nat} (zeros : BitVec n) (i : Except DecodeError Instr) : Except DecodeError Instr :=
  if zeros = 0 then i else .error .mustBeZero

/-- The operation an operation word spells in a block with parameters `p` (R101-R106). -/
def decodeWord (p : Params) (w : OpWord) : Except DecodeError Instr :=
  match (kindOf w).toNat with
  | 0x1 => .ok (.tick (w.extractLsb' 0 12))
  | 0x2 =>
    requireZero (w.extractLsb' 2 6)
      (if (nibbleOf w).toNat < p.nax then .ok (.enc (nibbleOf w) (w.extractLsb' 0 2))
       else .error .axisOutOfRange)
  | 0x3 => requireZero (nibbleOf w) (.ok (.rx (w.extractLsb' 0 8)))
  | 0x4 => requireZero (nibbleOf w) (.ok (.ser (w.extractLsb' 0 8)))
  | 0x5 =>
    requireZero (w.extractLsb' 2 10)
      (if w.extractLsb' 0 2 = 3#2 then .error .noSuchCopy else .ok (.nvfault (w.extractLsb' 0 2)))
  | 0x6 => .ok (.rdreg (w.extractLsb' 0 12))
  | 0x8 => requireZero (w.extractLsb' 0 12) (.ok .svcEnc)
  | 0x9 => requireZero (w.extractLsb' 0 12) (.ok .svcRx)
  | 0xA => requireZero (w.extractLsb' 0 12) (.ok .svcCfg)
  | 0xF => requireZero (w.extractLsb' 0 12) (.ok .reset)
  | _ => .error .reservedKind

/-- The command a request's opcode byte names, with the value bytes after it (R109): FINISH is the whole
byte 0xFF (C3), READ and WRITE are selected by the high nibble, and any other byte names no command. -/
def decodeCommand (op : Byte) (v : List Byte) : Option Request :=
  if op = Config.finishByte then some (.finish v)
  else if op.extractLsb' 4 4 = 0x0#4 then some (.read (op.extractLsb' 0 4) v)
  else if op.extractLsb' 4 4 = 0x3#4 then some (.write (op.extractLsb' 0 4) v)
  else none

/-- The request a framed byte sequence `[L][OP][V...]` spells (R108, R109, R114). -/
def decodeRequest (bs : List Byte) : Except DecodeError Request :=
  match bs with
  | [] => .error .badLength
  | [_] => .error .badLength
  | l :: op :: v =>
    if l.toNat = 1 + v.length ∧ l.toNat ≤ 5 then
      match decodeCommand op v with
      | some r => .ok r
      | none => .error .invalidCommand
    else .error .badLength

/-- The operation an encoding spells. -/
def decode (p : Params) : Encoded → Except DecodeError Instr
  | .word w => decodeWord p w
  | .request bs => (decodeRequest bs).map Request.toInstr
  | .byte b => if b = Config.handshakeByte then .ok .handshake else .error .notHandshake

/-! ## The encoder -/

/-- The bytes of a request with opcode byte `op` and value bytes `v`: the length byte counts the bytes
after itself (R108). -/
def frameRequest (op : Byte) (v : List Byte) : List Byte :=
  BitVec.ofNat 8 (1 + v.length) :: op :: v

/-- How an operation is written (R101, R105, R108, R109, R113). -/
def encode : Instr → Encoded
  | .tick k => .word (0x1#4 ++ k)
  | .enc axis ab => .word (0x2#4 ++ axis ++ 0#6 ++ ab)
  | .rx port => .word (0x3#4 ++ 0#4 ++ port)
  | .ser b => .word (0x4#4 ++ 0#4 ++ b)
  | .nvfault copy => .word (0x5#4 ++ 0#10 ++ copy)
  | .rdreg addr => .word (0x6#4 ++ addr)
  | .svcEnc => .word 0x8000
  | .svcRx => .word 0x9000
  | .svcCfg => .word 0xA000
  | .reset => .word 0xF000
  | .reqRead id v => .request (frameRequest (0x0#4 ++ id) v)
  | .reqWrite id v => .request (frameRequest (0x3#4 ++ id) v)
  | .reqFinish v => .request (frameRequest Config.finishByte v)
  | .handshake => .byte Config.handshakeByte

/-- The match and mask of an operation word (R105). -/
def matchMask : Instr → Option (OpWord × OpWord)
  | .tick _ => some (0x1000, 0xF000)
  | .enc _ _ => some (0x2000, 0xF0FC)
  | .rx _ => some (0x3000, 0xFF00)
  | .ser _ => some (0x4000, 0xFF00)
  | .nvfault _ => some (0x5000, 0xFFFC)
  | .rdreg _ => some (0x6000, 0xF000)
  | .svcEnc => some (0x8000, 0xFFFF)
  | .svcRx => some (0x9000, 0xFFFF)
  | .svcCfg => some (0xA000, 0xFFFF)
  | .reset => some (0xF000, 0xFFFF)
  | .reqRead _ _ => none
  | .reqWrite _ _ => none
  | .reqFinish _ => none
  | .handshake => none

/-- The ten match and mask rows of R105. -/
def opcodeRows : List (OpWord × OpWord) :=
  [(0x1000, 0xF000), (0x2000, 0xF0FC), (0x3000, 0xFF00), (0x4000, 0xFF00), (0x5000, 0xFFFC),
    (0x6000, 0xF000), (0x8000, 0xFFFF), (0x9000, 0xFFFF), (0xA000, 0xFFFF), (0xF000, 0xFFFF)]

/-! ## The table's numbering -/

/-- How many value bytes follow an opcode byte: size(field) for a WRITE of a field (R111), none for every
other command (R108). -/
def valueBytesOf (op : Byte) : Nat :=
  if op.extractLsb' 4 4 = 0x3#4 then
    match (op.extractLsb' 0 3).toNat with
    | 0 | 1 | 2 => 4
    | 3 => 2
    | 4 | 5 | 6 => 1
    | _ => 0
  else 0

/-- The encoding that stands for `nbits` table bits `w`: 16 bits are an operation word; 8 bits are a serial
command byte, unframed where it is the handshake byte, else framed by its length byte and followed by
value bytes of zero (log 18). -/
def tableEncoding (nbits w : Nat) : Option Encoded :=
  if 2 ^ nbits ≤ w then none
  else if nbits = 16 then some (.word (BitVec.ofNat 16 w))
  else if nbits = 8 then
    if BitVec.ofNat 8 w = Config.handshakeByte then some (.byte (BitVec.ofNat 8 w))
    else
      some (.request (frameRequest (BitVec.ofNat 8 w)
        (List.replicate (valueBytesOf (BitVec.ofNat 8 w)) 0)))
  else none

/-- The instruction the decoder reads from a row's bits, in the block of `Config.testParams` (log 11). -/
def decodeTableWord (nbits w : Nat) : Option Instr :=
  match tableEncoding nbits w with
  | none => none
  | some e => (decode Config.testParams e).toOption

end Sys2Proof
end

