-- ==== Sys2Proof/Machine/Record.lean ====
section
/-! DEFINITION. Configuration records: fields, legal sets (R50, R110, R111), the vote and the load of the
persisted record (R321, R322), and the constraints of R8 on the parameters. -/

namespace Sys2Proof

/-! ## Fields -/

/-- The field of a field number; 7 names no field (R110). -/
def Field.ofNum : Nat → Option Field
  | 0 => some .kp
  | 1 => some .ki
  | 2 => some .kd
  | 3 => some .blend
  | 4 => some .ewin
  | 5 => some .rev
  | 6 => some .calm
  | _ => none

/-- size(f), the bytes of a field's value (R111). -/
def Field.size : Field → Nat
  | .kp => 4
  | .ki => 4
  | .kd => 4
  | .blend => 2
  | .ewin => 1
  | .rev => 1
  | .calm => 1

/-- The legal set of a field, on its value as a 32-bit pattern (R50). -/
def Field.legal (f : Field) (wCap : Nat) (v : Word) : Bool :=
  match f with
  | .kp => true
  | .ki => true
  | .kd => true
  | .blend => decide (v.toNat ≤ 255)
  | .ewin => decide (5 ≤ v.toNat ∧ v.toNat ≤ wCap)
  | .rev => decide (v.toNat ≤ 1)
  | .calm => decide (v.toNat ≤ 1)

/-- The value of a field: KP, KI and KD as their 32-bit pattern, the others zero-extended (R85, R112). -/
def AxisCfg.get (g : AxisCfg) : Field → Word
  | .kp => g.kp
  | .ki => g.ki
  | .kd => g.kd
  | .blend => g.blend.setWidth 32
  | .ewin => g.ewin.setWidth 32
  | .rev => g.rev.setWidth 32
  | .calm => g.calm.setWidth 32

/-- The fields with one of them replaced, in its width. -/
def AxisCfg.set (g : AxisCfg) (f : Field) (v : Word) : AxisCfg :=
  match f with
  | .kp => { g with kp := v }
  | .ki => { g with ki := v }
  | .kd => { g with kd := v }
  | .blend => { g with blend := v.setWidth 16 }
  | .ewin => { g with ewin := v.setWidth 8 }
  | .rev => { g with rev := v.setWidth 8 }
  | .calm => { g with calm := v.setWidth 8 }

/-- The fields of one axis from the value of each. -/
def AxisCfg.ofFields (v : Field → Word) : AxisCfg :=
  { kp := v .kp, ki := v .ki, kd := v .kd, blend := (v .blend).setWidth 16,
    ewin := (v .ewin).setWidth 8, rev := (v .rev).setWidth 8, calm := (v .calm).setWidth 8 }

/-- Every field is in its legal set (R50). -/
def AxisCfg.legal (wCap : Nat) (g : AxisCfg) : Bool :=
  Field.legal .blend wCap (g.get .blend) && Field.legal .ewin wCap (g.get .ewin) &&
    Field.legal .rev wCap (g.get .rev) && Field.legal .calm wCap (g.get .calm)

/-- A record of `nax` axes is legal when every field of every axis is (R50). -/
def Record.legal (nax wCap : Nat) (r : Record) : Bool :=
  decide (r.length = nax) && r.all (AxisCfg.legal wCap)

/-- Field `f` of axis `a` of a record. -/
def Record.field (r : Record) (a : Nat) (f : Field) : Word := (r.axis a).get f

/-- The record with field `f` of axis `a` replaced. -/
def Record.setField (r : Record) (a : Nat) (f : Field) (v : Word) : Record :=
  r.modify a (fun g => g.set f v)

/-! ## The vote and the load -/

/-- `vote3` (R321). -/
def vote3 {α : Type} [DecidableEq α] (x y z dflt : α) : α :=
  if x = y ∨ x = z then x else if y = z then y else dflt

/-- What a copy contributes to the vote: its field where it is valid, else 0 (R322). -/
def NvCopy.vote (c : NvCopy) (a : Nat) (f : Field) : Word :=
  if c.valid then c.record.field a f else 0

/-- Field `f` of axis `a` as the persisted copies give it (R322): the vote, or DEFAULT_CFG's field where the vote gives
an illegal value. -/
def votedField (p : Params) (nv : NvStore) (a : Nat) (f : Field) : Word :=
  let r := vote3 (nv.copy0.vote a f) (nv.copy1.vote a f) (nv.copy2.vote a f) (p.defaultCfg.field a f)
  if f.legal p.wCap r then r else p.defaultCfg.field a f

/-- Axis `a` has no parameter id, `id[3]` naming axes 0 and 1 only (R110), and is configured only by DEFAULT_CFG
(R317). R322 votes such an axis as any other; which rule holds of it is the free value (log 25). -/
def onlyDefault (a : Nat) : Bool := decide (2 ≤ a) && Config.idlessByDefault

/-- Field `f` of axis `a` of the loaded record (R317, R322). -/
def loadField (p : Params) (nv : NvStore) (a : Nat) (f : Field) : Word :=
  if onlyDefault a then p.defaultCfg.field a f else votedField p nv a f

/-- `load_config` (R322, R317): the record that reset loads, axis by axis and field by field. For axes 2 and 3 the two
rules clash, and either may hold: DESIGN CHOICE (log 25). -/
def loadConfig (p : Params) (nv : NvStore) : Record :=
  (List.range p.nax).map (fun a => AxisCfg.ofFields (loadField p nv a))

/-- NV_COPY[k], for k in 0..2; there is no copy 3 (R56, R104). -/
def NvStore.get (nv : NvStore) : Nat → Option NvCopy
  | 0 => some nv.copy0
  | 1 => some nv.copy1
  | 2 => some nv.copy2
  | _ => none

/-- NV_COPY[k].valid <- 0 (R361). -/
def NvStore.invalidate (nv : NvStore) : Nat → NvStore
  | 0 => { nv with copy0 := { nv.copy0 with valid := false } }
  | 1 => { nv with copy1 := { nv.copy1 with valid := false } }
  | 2 => { nv with copy2 := { nv.copy2 with valid := false } }
  | _ => nv

/-- `save_config` (R323): the record in all three copies, each valid. -/
def NvStore.saved (r : Record) : NvStore :=
  { copy0 := { record := r, valid := true }, copy1 := { record := r, valid := true },
    copy2 := { record := r, valid := true } }

/-! ## Parameters -/

/-- TB = CB + OB (R8). -/
def Params.tb (p : Params) : Nat := p.cb + p.ob

/-- CH_BIT[c] (R8). -/
def Params.chBitOf (p : Params) (c : Nat) : Nat := p.chBit.getD c 0

/-- CAL_MIN[c] (R8). -/
def Params.calMinOf (p : Params) (c : Nat) : Nat := p.calMin.getD c 0

/-- CAL_MAX[c] (R8). -/
def Params.calMaxOf (p : Params) (c : Nat) : Nat := p.calMax.getD c 0

/-- AX_CH[a] (R8). -/
def Params.axChOf (p : Params) (a : Nat) : Nat := p.axCh.getD a 0

/-- The constraints of R8 on the widths, the axes, the encoder and the frame limits. -/
def Params.legalEncoder (p : Params) : Bool :=
  decide (1 ≤ p.cb ∧ p.cb ≤ 16) && decide (1 ≤ p.ob ∧ p.ob ≤ 16) && decide (1 ≤ p.nax ∧ p.nax ≤ 4) &&
    decide (5 ≤ p.wCap ∧ p.wCap ≤ 32) && decide (1 ≤ p.encCalDiv) && decide (1 ≤ p.encFrameOvf) && decide (1 ≤ p.rxFrameOvf)

/-- The constraints of R8 on the receiver and the conditioner. -/
def Params.legalReceiver (p : Params) : Bool :=
  decide (1 ≤ p.nch ∧ p.nch ≤ 8) && decide (p.chBit.length = p.nch) && p.chBit.all (fun b => decide (b < 8)) &&
    (decide (p.rxMode = .seq) || decide p.chBit.Nodup) && decide (3 ≤ p.rxN ∧ p.rxN ≤ 31) &&
    decide (p.calMin.length = p.nch) && p.calMin.all (fun t => decide (t < 2 ^ p.tb)) &&
    decide (p.calMax.length = p.nch) && p.calMax.all (fun t => decide (t < 2 ^ p.tb)) &&
    (decide (p.range = 100) || decide (p.range = 250)) &&
    decide (p.axCh.length = p.nax) && p.axCh.all (fun c => decide (c < p.nch)) &&
    decide (1 ≤ p.fadeF) && decide (p.lossT + p.fadeF < 2 ^ p.tb)

/-- The constraints of R8 on the PID and the configuration port. -/
def Params.legalControl (p : Params) : Bool :=
  (decide (p.sfrac = 16) || decide (p.sfrac = 8)) && decide (1 ≤ p.intDiv) && decide (6 ≤ p.serFifoCap) &&
    decide (1 ≤ p.serTimeout ∧ p.serTimeout < 2 ^ p.tb) && Record.legal p.nax p.wCap p.defaultCfg

/-- The parameter set satisfies every constraint of R8; one that does not defines no block. -/
def Params.legal (p : Params) : Bool := p.legalEncoder && p.legalReceiver && p.legalControl

end Sys2Proof
end

