-- ==== Sys2Proof/Machine/State.lean ====
section
/-! DEFINITION. The state of the block (R30-R59), why a step can stop, and the state right after the first
power-on reset. -/

namespace Sys2Proof.Machine

/-- MODE (R53). -/
inductive Mode where
  | normal
  | config
  | finished
deriving DecidableEq, Repr

/-- What the block holds for one axis: the encoder counter (R34-R39), the PID controller (R48) and the motor
command (R49). -/
structure Axis where
  encPrev : BitVec 2
  encPv : Bool
  encCount : BitVec 16
  encWin : List (BitVec 16)
  encSum : Word
  encIdx : Nat
  encSpeed : Word
  pidOut : Word
  pidInt : Word
  pidLast : Word
  pidTgt : Word
  motorCmd : BitVec 8
deriving DecidableEq, Repr

/-- What the block holds for one receiver channel: the edge record (R42), the ring buffer (R44-R46) and the
conditioned command (R47). -/
structure Channel where
  rxStart : Tick
  rxEnd : Tick
  rxUpd : Bool
  ringVal : List Tick
  ringOrd : List Nat
  ringHead : Nat
  rxCond : BitVec 16
deriving DecidableEq, Repr

/-- The state. `axes` and `chans` hold ENC_*, PID_*, MOTOR_CMD by axis and RX_*, RING_* by channel. The last
three fields and `params` are the model's own (logs 1, 4, 5, 23): the MOTOR_CMD values written, each with its axis;
the results returned to the host; and the operation words presented and not yet performed. -/
structure State where
  params : Params
  cnt : Nat
  ovf : Nat
  encPre : BitVec 16
  rxPre : BitVec 16
  encDue : Bool
  rxDue : Bool
  axes : List Axis
  rxPrev : Byte
  rxPv : Bool
  rxMux : Nat
  lastPair : Tick
  lost : Bool
  chans : List Channel
  cfg : Record
  cfgEdit : Record
  mode : Mode
  serRxq : List Byte
  serLast : Tick
  serTx : List Byte
  nv : NvStore
  motorOut : List (Nat × BitVec 8)
  hostOut : List Word
  pending : List OpWord
deriving DecidableEq, Repr

/-- Why the machine has no step. The hardware itself has no fault (R403(3)); each of these is R403(2)'s
*stuck*: the model stops where the spec says there is no step, which is safe. -/
inductive Fault where
  /-- Raised by `step` when no operation is presented: a run is a finite sequence (R468, R286). Safe. -/
  | noOperation
  /-- Raised by SVC.ENC unless ENC_DUE = 1 and MODE = NORMAL (R107, R281). Safe. -/
  | svcEncNotEnabled
  /-- Raised by SVC.RX unless RX_DUE = 1 and MODE = NORMAL (R107, R284). Safe. -/
  | svcRxNotEnabled
  /-- Raised by SVC.CFG unless R312's condition holds (R107, R312). Safe. -/
  | svcCfgNotEnabled
  /-- Raised by REQ.READ, REQ.WRITE and REQ.FINISH outside CONFIG mode: requests are consumed only there
  (R108). Safe. -/
  | requestOutsideConfig
  /-- Raised by HANDSHAKE outside NORMAL mode: 0x55 is a handshake only there (R113). Safe. -/
  | handshakeOutsideNormal
deriving DecidableEq, Repr

/-- Why the model declines an operation (R403(1)). -/
inductive Refusal where
  /-- An instruction that has no meaning in the model; no arm of `exec` raises it. Safe. -/
  | notModelled (mnemonic : String)
  /-- Raised by `step`, and by ENC and NVFAULT given an operand R104 excludes: the word spells no operation
  (R106). Safe. -/
  | illegalWord (e : DecodeError)
  /-- Raised by `step` for a parameter set that violates R8: it defines no block. Safe. -/
  | illegalParameters
deriving DecidableEq, Repr

/-- One axis after reset (R34-R39, R48, R49). -/
def Axis.initial (p : Params) : Axis :=
  { encPrev := 0, encPv := false, encCount := 0, encWin := List.replicate p.wCap 0, encSum := 0, encIdx := 0,
    encSpeed := 0, pidOut := 0, pidInt := 0, pidLast := 0, pidTgt := 0, motorCmd := 0 }

/-- One channel after reset (R42, R44-R47): an all-zero ring in identity order. -/
def Channel.initial (p : Params) : Channel :=
  { rxStart := 0, rxEnd := 0, rxUpd := false, ringVal := List.replicate p.rxN 0, ringOrd := List.range p.rxN,
    ringHead := 0, rxCond := 0 }

/-- The state after the first reset of a block with parameters `p` whose persisted copies are `nv` (R59,
R451): CFG and CFG_EDIT are the loaded record, LOST is 1, MODE is NORMAL, everything else 0 or empty.
SER_TX, `motorOut`, `hostOut` and `pending` start empty: DESIGN CHOICE (logs 4, 5, 16, 23). -/
def State.initial (p : Params) (nv : NvStore) : State :=
  { params := p
    cnt := 0
    ovf := 0
    encPre := 0
    rxPre := 0
    encDue := false
    rxDue := false
    axes := List.replicate p.nax (Axis.initial p)
    rxPrev := 0
    rxPv := false
    rxMux := 0
    lastPair := 0
    lost := true
    chans := List.replicate p.nch (Channel.initial p)
    cfg := loadConfig p nv
    cfgEdit := loadConfig p nv
    mode := .normal
    serRxq := []
    serLast := 0
    serTx := []
    nv := nv
    motorOut := []
    hostOut := []
    pending := [] }

/-- The machine right after reset, with the parameters and persisted copies of 95_test_vectors.md section 0
(logs 2, 3). -/
def State.reset : State := State.initial Config.testParams Config.testNvInit

end Sys2Proof.Machine
end

