-- ==== Sys2Proof/Machine/Operands.lean ====
section
/-! DEFINITION. Arithmetic on mathematical integers (R11, R12), ticks (R16, R17), and the operands the
operations are given: TICK's count, parameter ids, little-endian values (R103, R110, R111). -/

namespace Sys2Proof.Machine

/-! ## Arithmetic primitives -/

/-- `asr(v, n)` = floor(v / 2^n) (R12): division by a positive number rounds down in `Int`. -/
def asr (v : Int) (n : Nat) : Int := v / 2 ^ n

/-- `tdiv(a, b)`: the quotient truncated toward zero (R12). Every use has `b ≠ 0`. -/
def tdiv (a b : Int) : Int := Int.tdiv a b

/-- `clamp(v, lo, hi)` (R12). -/
def clamp (v lo hi : Int) : Int := if v < lo then lo else if hi < v then hi else v

/-- `popcount(v)` (R12). -/
def popcount {n : Nat} (v : BitVec n) : Nat := (List.range n).countP (fun i => v.getLsbD i)

/-- `wrap8`, two's-complement wrap to `s8` (R11). -/
def wrap8 (v : Int) : BitVec 8 := BitVec.ofInt 8 v

/-- `wrap16`, two's-complement wrap to `s16` (R11). -/
def wrap16 (v : Int) : BitVec 16 := BitVec.ofInt 16 v

/-- `wrap32`, two's-complement wrap to `s32` (R11, R260). -/
def wrap32 (v : Int) : Word := BitVec.ofInt 32 v

/-- `modTB(v)`, the reduction of an integer to `uTB` (R11). -/
def modTB (p : Params) (v : Int) : Tick := (v % 2 ^ p.tb).toNat

/-! ## Ticks -/

/-- NOW = {OVF, CNT} (R16, R31). -/
def State.now (s : State) : Tick := s.ovf * 2 ^ s.params.cb + s.cnt

/-- `elapsed(from)` = modTB(NOW − from) (R17). -/
def State.elapsed (s : State) (start : Tick) : Tick := modTB s.params ((s.now : Int) - (start : Int))

/-! ## Operands -/

/-- TICK's count, zext(K) + 1 (R103). -/
def tickCount (k : BitVec 12) : Nat := k.toNat + 1

/-- The axis of a parameter id, `id[3]` (R110). -/
def idAxis (id : BitVec 4) : Nat := (id.extractLsb' 3 1).toNat

/-- The field of a parameter id, numbered by `id[2:0]` (R110). -/
def idField (id : BitVec 4) : Option Field := Field.ofNum (id.extractLsb' 0 3).toNat

/-- The axis and field of a valid parameter id: the field is not 7 and the axis is below NAX (R110). -/
def paramOf (p : Params) (id : BitVec 4) : Option (Nat × Field) :=
  match idField id with
  | none => none
  | some f => if idAxis id < p.nax then some (idAxis id, f) else none

/-- The little-endian value of a byte sequence, least significant byte first (R87, R111). -/
def leNat : List Byte → Nat
  | [] => 0
  | b :: bs => b.toNat + 256 * leNat bs

/-- The value of a WRITE, as a 32-bit pattern (R111). -/
def leValue (v : List Byte) : Word := BitVec.ofNat 32 (leNat v)

/-- The `n` low bytes of a value, least significant first (R112). -/
def leBytes (n : Nat) (v : Word) : List Byte := (List.range n).map (fun i => v.extractLsb' (8 * i) 8)

end Sys2Proof.Machine
end

