-- ==== Sys2Proof/Machine/Ops.lean ====
section
/-! DEFINITION. The operations the meanings share: updates of one axis or channel, the serial queues (R13,
R15), the mode change of the handshake (R283), the reset sequence (R451), and how the next operation is
taken from, and placed in, the sequence presented to the block (R468). -/

namespace Sys2Proof.Machine

/-! ## State access -/

/-- Update axis `a`. -/
def State.modifyAxis (s : State) (a : Nat) (f : Axis → Axis) : State :=
  { s with axes := s.axes.modify a f }

/-- Update channel `c`. -/
def State.modifyChan (s : State) (c : Nat) (f : Channel → Channel) : State :=
  { s with chans := s.chans.modify c f }

/-- The configuration of axis `a` that the rules read: CFG's fields (R51). -/
def State.axisCfg (s : State) (a : Nat) : AxisCfg := s.cfg.axis a

/-- The register of axis `a` that `f` reads, or 0 where there is no such axis (R86). -/
def State.onAxis (s : State) (a : Nat) (f : Axis → Word) : Word :=
  match s.axes[a]? with
  | some x => f x
  | none => 0

/-- The register of channel `c` that `f` reads, or 0 where there is no such channel (R86). -/
def State.onChan (s : State) (c : Nat) (f : Channel → Word) : Word :=
  match s.chans[c]? with
  | some x => f x
  | none => 0

/-! ## Serial port and mode -/

/-- `emit` of each byte in order (R15, R311). -/
def State.emit (s : State) (bs : List Byte) : State := { s with serTx := s.serTx ++ bs }

/-- `raise ProtocolError(code)`: emit the code; the request is over (R15, R401). -/
def State.protocolError (s : State) (code : Byte) : State := s.emit [code]

/-- SER_RXQ <- q. -/
def State.withRxq (s : State) (q : List Byte) : State := { s with serRxq := q }

/-- What the handshake byte does: MODE <- CONFIG, CFG_EDIT <- CFG (R283). -/
def State.enterConfig (s : State) : State := { s with mode := .config, cfgEdit := s.cfg }

/-- One result returned to the host (R360, log 5). -/
def State.returnToHost (s : State) (w : Word) : State := { s with hostOut := s.hostOut ++ [w] }

/-- Every axis's MOTOR_CMD has been written, in ascending order: the values go out (R282, R468, log 23). -/
def State.dispatchMotors (s : State) : State :=
  { s with motorOut := s.motorOut ++ s.axes.mapIdx fun a x => (a, x.motorCmd) }

/-! ## Reset -/

/-- The reset sequence (R451): every element takes its reset value, CFG and CFG_EDIT the record that
`load_config` gives; NV_COPY and SER_TX are not changed. The model's own fields stay, but that the motor commands
of 0 go out (logs 1, 4, 5, 23). -/
def State.resetSequence (s : State) : State :=
  { State.initial s.params s.nv with
    serTx := s.serTx
    motorOut := s.motorOut
    hostOut := s.hostOut
    pending := s.pending }.dispatchMotors

/-! ## The presented sequence of operations (R468, log 4) -/

/-- The next operation word presented, and the state in which it is performed. -/
def State.fetch (s : State) : Option (OpWord × State) :=
  match s.pending with
  | [] => none
  | w :: rest => some (w, { s with pending := rest })

/-- Present an operation word as the next operation. -/
def State.present (s : State) (w : OpWord) : State := { s with pending := w :: s.pending }

/-- The serial queue with `bs` stored over its front bytes. -/
def State.overwriteRxq (s : State) (bs : List Byte) : State :=
  { s with serRxq := bs ++ s.serRxq.drop bs.length }

end Sys2Proof.Machine
end

