-- ==== Sys2Proof/Machine/Flags.lean ====
section
/-! DEFINITION. The flags: how the prescalers raise the frame flags (R140), when each service is enabled
(R281, R284, R312), and the STATUS word that shows them (R82). No operation has a carry or overflow flag
(R57). -/

namespace Sys2Proof.Machine

/-- A frame prescaler counts one counter wrap: at its limit it returns to 0 (R140). It has 16 bits (R32) and wraps
as every overflow does (R403): with a limit above 65536, which R8 admits, the count after 65535 is 0. DEDUCED
(log 9). -/
def prescale (pre : BitVec 16) (limit : Nat) : BitVec 16 := if pre.toNat + 1 = limit then 0 else pre + 1

/-- A frame flag after one counter wrap: set at the prescaler's match, never cleared (R33, R140). The count is
compared before it is narrowed to 16 bits, so a limit of 65536 is matched. DEDUCED (log 9). -/
def raiseDue (due : Bool) (pre : BitVec 16) (limit : Nat) : Bool :=
  due || decide (pre.toNat + 1 = limit)

/-- SVC.ENC is enabled (R281). -/
def State.svcEncEnabled (s : State) : Bool := s.encDue && decide (s.mode = .normal)

/-- SVC.RX is enabled (R284). -/
def State.svcRxEnabled (s : State) : Bool := s.rxDue && decide (s.mode = .normal)

/-- The request timeout has expired: modTB(NOW − SER_LAST) ≥ SER_TIMEOUT (R312, R320). -/
def State.requestTimedOut (s : State) : Bool := decide (s.params.serTimeout ≤ s.elapsed s.serLast)

/-- SVC.CFG is enabled (R312). -/
def State.svcCfgEnabled (s : State) : Bool :=
  decide (s.mode = .config) &&
    match s.serRxq with
    | [] => false
    | l :: _ =>
      decide (l.toNat = 0) || decide (5 < l.toNat) || decide (1 + l.toNat ≤ s.serRxq.length) ||
        s.requestTimedOut

/-- MODE's encoding in STATUS (R82). -/
def Mode.code : Mode → BitVec 2
  | .normal => 0#2
  | .config => 1#2
  | .finished => 2#2

/-- RX_UPD[c], 0 where there is no channel `c` (R82). -/
def State.updBit (s : State) (c : Nat) : BitVec 1 :=
  match s.chans[c]? with
  | some x => BitVec.ofBool x.rxUpd
  | none => 0#1

/-- Bits 23:16 of STATUS: bit 16 + c is RX_UPD[c] (R82). -/
def State.updBits (s : State) : BitVec 8 :=
  s.updBit 7 ++ s.updBit 6 ++ s.updBit 5 ++ s.updBit 4 ++ s.updBit 3 ++ s.updBit 2 ++ s.updBit 1 ++ s.updBit 0

/-- STATUS (R82), from bit 31 down: zeros, RX_UPD, zeros, RX_MUX, zeros, LOST, MODE, RX_DUE, ENC_DUE. -/
def State.statusWord (s : State) : Word :=
  0#8 ++ s.updBits ++ 0#5 ++ BitVec.ofNat 3 s.rxMux ++ 0#3 ++ BitVec.ofBool s.lost ++ s.mode.code ++
    BitVec.ofBool s.rxDue ++ BitVec.ofBool s.encDue

end Sys2Proof.Machine
end

