-- ==== Sys2Proof/Machine/ConfigPort.lean ====
section
/-! DEFINITION. SER, SVC.CFG and the requests READ, WRITE and FINISH (45_config_port.md). -/

namespace Sys2Proof.Machine

/-! ## Error codes (R9, R401) -/

/-- 0xE0, invalid command. -/
def errCommand : Byte := 0xE0
/-- 0xE1, invalid parameter id. -/
def errParam : Byte := 0xE1
/-- 0xE2, malformed write length. -/
def errLength : Byte := 0xE2
/-- 0xE3, out-of-range value. -/
def errRange : Byte := 0xE3
/-- 0xE4, oversized request. -/
def errOversized : Byte := 0xE4
/-- 0xE5, receive timeout. -/
def errTimeout : Byte := 0xE5

/-! ## SER -/

/-- SER (R310): a byte that finds the FIFO full is dropped. -/
def execSer (b : Byte) (s : State) : Host.Outcome State Fault Refusal :=
  if s.serRxq.length < s.params.serFifoCap then
    .next { s with serRxq := s.serRxq ++ [b], serLast := s.now }
  else .next s

/-! ## The commands -/

/-- `read(a, f)` (R314): ACK, then the value little-endian in size(f) bytes. -/
def State.readParam (s : State) (a : Nat) (f : Field) : State :=
  s.emit (Config.ackByte :: leBytes f.size (s.cfgEdit.field a f))

/-- `write(a, f, v)` (R315): CFG_EDIT only. -/
def State.writeParam (s : State) (a : Nat) (f : Field) (v : Word) : State :=
  { s with cfgEdit := s.cfgEdit.setField a f v }.emit [Config.ackByte]

/-- `finish()` (R316): ACK, CFG_EDIT saved to the three copies (R323), MODE <- FINISHED. -/
def State.finish (s : State) : State :=
  { s.emit [Config.ackByte] with nv := NvStore.saved s.cfgEdit, mode := .finished }

/-- A READ request with its checks in R313's order: parameter id, then length. -/
def State.runRead (s : State) (id : BitVec 4) (v : List Byte) : State :=
  match paramOf s.params id with
  | none => s.protocolError errParam
  | some (a, f) => if v.length = 0 then s.readParam a f else s.protocolError errLength

/-- A WRITE request with its checks in R313's order: parameter id, length, legal set (R318). -/
def State.runWrite (s : State) (id : BitVec 4) (v : List Byte) : State :=
  match paramOf s.params id with
  | none => s.protocolError errParam
  | some (a, f) =>
    if v.length = f.size then
      if f.legal s.params.wCap (leValue v) then s.writeParam a f (leValue v) else s.protocolError errRange
    else s.protocolError errLength

/-- A FINISH request with its length check (R313). -/
def State.runFinish (s : State) (v : List Byte) : State :=
  if v.length = 0 then s.finish else s.protocolError errLength

/-- A request, its bytes already popped (R313). -/
def State.runRequest (s : State) : Request → State
  | .read id v => s.runRead id v
  | .write id v => s.runWrite id v
  | .finish v => s.runFinish v

/-- The opcode byte and value bytes of a complete request (R313): a byte that names no command is answered
with 0xE0. -/
def State.runCommand (s : State) (bs : List Byte) : State :=
  match bs with
  | [] => s.protocolError errCommand
  | op :: v =>
    match decodeCommand op v with
    | some r => s.runRequest r
    | none => s.protocolError errCommand

/-- SVC.CFG's request (R313): `l` is the length byte at the front of SER_RXQ and `rest` the bytes after it. -/
def State.serveRequest (s : State) (l : Byte) (rest : List Byte) : State :=
  if l.toNat = 0 then (s.withRxq rest).protocolError errCommand
  else if 5 < l.toNat then (s.withRxq rest).protocolError errOversized
  else if rest.length < l.toNat then (s.withRxq []).protocolError errTimeout
  else (s.withRxq (rest.drop l.toNat)).runCommand (rest.take l.toNat)

/-- SVC.CFG (R313); stuck where it is not enabled, an empty SER_RXQ among the reasons (R107, R312). -/
def execSvcCfg (s : State) : Host.Outcome State Fault Refusal :=
  if s.svcCfgEnabled then
    match s.serRxq with
    | [] => .fault .svcCfgNotEnabled
    | l :: rest => .next (s.serveRequest l rest)
  else .fault .svcCfgNotEnabled

/-! ## The serial commands as operations: their bytes already taken from SER_RXQ by SVC.CFG (log 7) -/

/-- REQ.READ (R314), in CONFIG mode (R108). -/
def execReqRead (id : BitVec 4) (v : List Byte) (s : State) : Host.Outcome State Fault Refusal :=
  if s.mode = .config then .next (s.runRead id v) else .fault .requestOutsideConfig

/-- REQ.WRITE (R315), in CONFIG mode (R108). -/
def execReqWrite (id : BitVec 4) (v : List Byte) (s : State) : Host.Outcome State Fault Refusal :=
  if s.mode = .config then .next (s.runWrite id v) else .fault .requestOutsideConfig

/-- REQ.FINISH (R316), in CONFIG mode (R108). -/
def execReqFinish (v : List Byte) (s : State) : Host.Outcome State Fault Refusal :=
  if s.mode = .config then .next (s.runFinish v) else .fault .requestOutsideConfig

end Sys2Proof.Machine
end

