-- ==== Sys2Proof/Machine/Receiver.lean ====
section
/-! DEFINITION. RX, and the ring buffer, median and drain that SVC.RX calls (41_receiver.md). -/

namespace Sys2Proof.Machine

/-! ## RX -/

/-- `rx_fall(c)`: a falling edge completes channel `c`'s edge pair (R184). -/
def State.rxFall (s : State) (c : Nat) : State :=
  { s.modifyChan c (fun x => { x with rxEnd := s.now, rxUpd := true }) with
    lastPair := s.now
    lost := false
    rxDue := s.rxDue || decide (c + 1 = s.params.nch) }

/-- A rising edge of channel `c`: RX_START[c] <- NOW (R181, R183). -/
def State.rxRise (s : State) (c : Nat) : State :=
  s.modifyChan c (fun x => { x with rxStart := s.now })

/-- The bit rises from port value `old` to `new`. -/
def rises (old new : Byte) (b : Nat) : Bool := !old.getLsbD b && new.getLsbD b

/-- The bit falls from port value `old` to `new`. -/
def falls (old new : Byte) (b : Nat) : Bool := old.getLsbD b && !new.getLsbD b

/-- `rx_seq`, the time-multiplexed decoder (R181), with the start of the next channel in the same operation
(R182). -/
def State.rxSeq (s : State) (old new : Byte) : State :=
  let c := s.rxMux
  let b := s.params.chBitOf c
  if rises old new b then s.rxRise c
  else if falls old new b then
    let c2 := (c + 1) % s.params.nch
    let s2 := { s.rxFall c with rxMux := c2 }
    if rises old new (s.params.chBitOf c2) then s2.rxRise c2 else s2
  else s

/-- One channel of `rx_par` (R183). -/
def State.rxParChan (s : State) (old new : Byte) (c : Nat) : State :=
  let b := s.params.chBitOf c
  if rises old new b then s.rxRise c else if falls old new b then s.rxFall c else s

/-- `rx_par`: dedicated pins, channels in ascending order with the same NOW (R183). -/
def State.rxPar (s : State) (old new : Byte) : State :=
  (List.range s.params.nch).foldl (fun t c => t.rxParChan old new c) s

/-- The decoder of the receiver wiring (R180). -/
def State.rxEdges (s : State) (new : Byte) : State :=
  match s.params.rxMode with
  | .seq => s.rxSeq s.rxPrev new
  | .par => s.rxPar s.rxPrev new

/-- RX (R180): the first sample only loads. -/
def execRx (port : Byte) (s : State) : Host.Outcome State Fault Refusal :=
  if s.rxPv then .next { s.rxEdges port with rxPrev := port }
  else .next { s with rxPrev := port, rxPv := true }

/-! ## Ring buffer and median -/

/-- The reading at position `k` of the order (R45). -/
def readingAt (val : List Tick) (ord : List Nat) (k : Nat) : Tick := val.getD (ord.getD k 0) 0

/-- Swap the order's entries at positions `k` and `k + 1`. -/
def swapNext (ord : List Nat) (k : Nat) : List Nat :=
  (ord.set k (ord.getD (k + 1) 0)).set (k + 1) (ord.getD k 0)

/-- The first loop of `ring_insert`: move left while the left neighbour is greater. Gives the order and the
position where the slot stops (R187). -/
def bubbleLeft (val : List Tick) : Nat → List Nat → List Nat × Nat
  | 0, ord => (ord, 0)
  | p + 1, ord =>
    if readingAt val ord (p + 1) < readingAt val ord p then bubbleLeft val p (swapNext ord p)
    else (ord, p + 1)

/-- The second loop of `ring_insert`: move right while the right neighbour is smaller, at most `fuel` times
(R187); RX_N - 1 - p moves reach the last position, which bounds the loop (R188). -/
def bubbleRight (val : List Tick) : Nat → Nat → List Nat → List Nat
  | 0, _, ord => ord
  | fuel + 1, p, ord =>
    if readingAt val ord (p + 1) < readingAt val ord p then bubbleRight val fuel (p + 1) (swapNext ord p)
    else ord

/-- The order after slot `s` of the ring took a new reading (R187). -/
def repairOrder (rxN : Nat) (val : List Tick) (ord : List Nat) (s : Nat) : List Nat :=
  let left := bubbleLeft val (ord.idxOf s) ord
  bubbleRight val (rxN - 1 - left.2) left.2 left.1

/-- `ring_insert` (R187). -/
def Channel.insert (x : Channel) (rxN : Nat) (v : Tick) : Channel :=
  let val := x.ringVal.set x.ringHead v
  { x with
    ringVal := val
    ringOrd := repairOrder rxN val x.ringOrd x.ringHead
    ringHead := (x.ringHead + 1) % rxN }

/-- `MEDIAN`: the reading at the middle position of the order (R190). -/
def Channel.median (x : Channel) (rxN : Nat) : Tick := readingAt x.ringVal x.ringOrd (rxN / 2)

/-- `ring_reset` (R191). -/
def Channel.resetRing (x : Channel) (rxN : Nat) : Channel :=
  { x with ringVal := List.replicate rxN 0, ringOrd := List.range rxN, ringHead := 0 }

/-! ## Drain (called by SVC.RX) -/

/-- The pulse width of an edge record, modTB(RX_END − RX_START) (R185, R186). -/
def Channel.width (x : Channel) (p : Params) : Tick := modTB p ((x.rxEnd : Int) - (x.rxStart : Int))

/-- One channel of `rx_drain` (R185). -/
def Channel.drain (x : Channel) (p : Params) : Channel :=
  if x.rxUpd then { x with rxUpd := false, rxEnd := 0 }.insert p.rxN (x.width p) else x

/-- `rx_drain`; no channel's record or ring enters another's, so the channels are drained together (R185). -/
def State.rxDrain (s : State) : State := { s with chans := s.chans.map (fun x => x.drain s.params) }

end Sys2Proof.Machine
end

