-- ==== Sys2Proof/Machine/HostAccess.lean ====
section
/-! DEFINITION. RDREG with the register map (R80-R86), NVFAULT and RESET (46_host_access.md). -/

namespace Sys2Proof.Machine

/-! ## The register map -/

/-- The registers an address can name (R82-R86), with the index the address gives; the index may be out of
range. -/
inductive Reg where
  | status
  | time
  | lastPair
  | serLevel
  | encCount (a : Nat)
  | encSum (a : Nat)
  | encSpeed (a : Nat)
  | encIdx (a : Nat)
  | rxStart (c : Nat)
  | rxEnd (c : Nat)
  | median (c : Nat)
  | rxCond (c : Nat)
  | pidOut (a : Nat)
  | pidInt (a : Nat)
  | pidLast (a : Nat)
  | pidTgt (a : Nat)
  | motorCmd (a : Nat)
  | cfg (a f : Nat)
  | cfgEdit (a f : Nat)
  | ringHead (c : Nat)
  | encWin (a k : Nat)
  | ringVal (c k : Nat)
  | ringOrd (c k : Nat)
  | nvField (k a f : Nat)
  | nvValid (k : Nat)
  | unmapped
deriving DecidableEq, Repr

/-- The register a word address below 0x060 names (R82-R84). -/
def lowReg (n : Nat) : Reg :=
  if n = 0x000 then .status
  else if n = 0x001 then .time
  else if n = 0x002 then .lastPair
  else if n = 0x003 then .serLevel
  else if n < 0x010 then .unmapped
  else if n < 0x014 then .encCount (n - 0x010)
  else if n < 0x018 then .encSum (n - 0x014)
  else if n < 0x01C then .encSpeed (n - 0x018)
  else if n < 0x020 then .encIdx (n - 0x01C)
  else if n < 0x028 then .rxStart (n - 0x020)
  else if n < 0x030 then .rxEnd (n - 0x028)
  else if n < 0x038 then .median (n - 0x030)
  else if n < 0x040 then .rxCond (n - 0x038)
  else if n < 0x044 then .pidOut (n - 0x040)
  else if n < 0x048 then .pidInt (n - 0x044)
  else if n < 0x04C then .pidLast (n - 0x048)
  else if n < 0x050 then .pidTgt (n - 0x04C)
  else if n < 0x054 then .motorCmd (n - 0x050)
  else .unmapped

/-- The register of a ring address, as an offset from 0x200: 0x40 words a channel, readings first, then the
order (R84). -/
def ringReg (o : Nat) : Reg :=
  if o % 0x40 < 0x20 then .ringVal (o / 0x40) (o % 0x40) else .ringOrd (o / 0x40) (o % 0x40 - 0x20)

/-- The register of a persisted-copy address, as an offset from 0x400: 0x40 words a copy, the valid bit last
(R85). -/
def nvReg (o : Nat) : Reg :=
  if o % 0x40 = 0x3F then .nvValid (o / 0x40) else .nvField (o / 0x40) (o % 0x40 / 8) (o % 0x40 % 8)

/-- The register a word address names (R82-R86). -/
def regOf (addr : BitVec 12) : Reg :=
  let n := addr.toNat
  if n < 0x060 then lowReg n
  else if n < 0x080 then .cfg ((n - 0x060) / 8) ((n - 0x060) % 8)
  else if n < 0x0A0 then .cfgEdit ((n - 0x080) / 8) ((n - 0x080) % 8)
  else if n < 0x0A8 then .ringHead (n - 0x0A0)
  else if n < 0x100 then .unmapped
  else if n < 0x180 then .encWin ((n - 0x100) / 0x20) ((n - 0x100) % 0x20)
  else if n < 0x200 then .unmapped
  else if n < 0x400 then ringReg (n - 0x200)
  else if n < 0x4C0 then nvReg (n - 0x400)
  else .unmapped

/-- Field number `f` of axis `a` of a record; 0 for field 7 and for an axis not below NAX (R85, R86). -/
def fieldReg (p : Params) (r : Record) (a f : Nat) : Word :=
  match Field.ofNum f with
  | some f => if a < p.nax then r.field a f else 0
  | none => 0

/-- The value of a register; 0 where the address or its index names none (R82-R86). SER_LEVEL of a queue of 2^32
bytes or more, which R8 does not exclude, is the length modulo 2^32: DESIGN CHOICE, unsafe (log 21). -/
def State.readReg (s : State) : Reg → Word
  | .status => s.statusWord
  | .time => BitVec.ofNat 32 s.now
  | .lastPair => BitVec.ofNat 32 s.lastPair
  | .serLevel => BitVec.ofNat 32 s.serRxq.length
  | .encCount a => s.onAxis a (fun x => x.encCount.signExtend 32)
  | .encSum a => s.onAxis a (fun x => x.encSum)
  | .encSpeed a => s.onAxis a (fun x => x.encSpeed)
  | .encIdx a => s.onAxis a (fun x => BitVec.ofNat 32 x.encIdx)
  | .rxStart c => s.onChan c (fun x => BitVec.ofNat 32 x.rxStart)
  | .rxEnd c => s.onChan c (fun x => BitVec.ofNat 32 x.rxEnd)
  | .median c => s.onChan c (fun x => BitVec.ofNat 32 (x.median s.params.rxN))
  | .rxCond c => s.onChan c (fun x => x.rxCond.signExtend 32)
  | .pidOut a => s.onAxis a (fun x => x.pidOut)
  | .pidInt a => s.onAxis a (fun x => x.pidInt)
  | .pidLast a => s.onAxis a (fun x => x.pidLast)
  | .pidTgt a => s.onAxis a (fun x => x.pidTgt)
  | .motorCmd a => s.onAxis a (fun x => x.motorCmd.signExtend 32)
  | .cfg a f => fieldReg s.params s.cfg a f
  | .cfgEdit a f => fieldReg s.params s.cfgEdit a f
  | .ringHead c => s.onChan c (fun x => BitVec.ofNat 32 x.ringHead)
  | .encWin a k => s.onAxis a (fun x => (x.encWin.getD k 0).signExtend 32)
  | .ringVal c k => s.onChan c (fun x => BitVec.ofNat 32 (x.ringVal.getD k 0))
  | .ringOrd c k => s.onChan c (fun x => BitVec.ofNat 32 (x.ringOrd.getD k 0))
  | .nvField k a f =>
    match s.nv.get k with
    | some c => fieldReg s.params c.record a f
    | none => 0
  | .nvValid k =>
    match s.nv.get k with
    | some c => (BitVec.ofBool c.valid).setWidth 32
    | none => 0
  | .unmapped => 0

/-- `MemRead(addr, 4)`, the whole of the register space (R14, R80). -/
def State.memRead (s : State) (addr : BitVec 12) : Word := s.readReg (regOf addr)

/-! ## The operations -/

/-- RDREG (R360): the register goes to the host and the block does not change (R89). -/
def execRdreg (addr : BitVec 12) (s : State) : Host.Outcome State Fault Refusal :=
  .next (s.returnToHost (s.memRead addr))

/-- NVFAULT (R361). Copy 3 spells no operation (R104, R106). -/
def execNvfault (copy : BitVec 2) (s : State) : Host.Outcome State Fault Refusal :=
  if copy = 3#2 then .refused (.illegalWord .noSuchCopy)
  else .next { s with nv := s.nv.invalidate copy.toNat }

/-- RESET (R362, R451), accepted in every state and mode. -/
def execReset (s : State) : Host.Outcome State Fault Refusal := .next s.resetSequence

end Sys2Proof.Machine
end

