-- ==== Sys2Proof/Machine/Conditioner.lean ====
section
/-! DEFINITION. The signal conditioner that SVC.RX calls: map, fade, loss reset, targets
(42_conditioner.md). -/

namespace Sys2Proof.Machine

/-- The linear map of a median onto ±RANGE, before the clamp (R220, R222). -/
def linearMap (range calMin calMax m : Int) : Int :=
  tdiv ((m - calMin) * 2 * range) (calMax - calMin) - range

/-- `cond_value` of channel `c` (R220): 0 for a median of 0 (R221) and for a degenerate calibration (R224),
else the clamped linear map (R222, R223). -/
def Channel.condValue (x : Channel) (p : Params) (c : Nat) : Int :=
  let m := x.median p.rxN
  if m = 0 then 0
  else if p.calMaxOf c = p.calMinOf c then 0
  else clamp (linearMap p.range (p.calMinOf c) (p.calMaxOf c) m) (-(p.range : Int)) p.range

/-- A value after the fade, `e` ticks after the last edge pair, for `e ≤ LOSS_T + FADE_F` (R226). -/
def fadeValue (p : Params) (e : Tick) (v : Int) : Int :=
  if e ≤ p.lossT then v else tdiv (v * ((p.lossT : Int) + (p.fadeF : Int) - (e : Int))) p.fadeF

/-- `loss_reset` (R227): rings and edge records cleared, RX_MUX 0, LOST 1. LAST_PAIR, RX_PREV and RX_PV stay. -/
def State.lossReset (s : State) : State :=
  { s with
    chans := s.chans.map fun x =>
      { x.resetRing s.params.rxN with rxStart := 0, rxEnd := 0, rxUpd := false }
    rxMux := 0
    lost := true }

/-- RX_COND <- 0 for every channel. -/
def State.silence (s : State) : State := { s with chans := s.chans.map fun x => { x with rxCond := 0 } }

/-- RX_COND of every channel from its median, faded by one `e` for all of them (R225, R226). -/
def State.conditionAll (s : State) (e : Tick) : State :=
  { s with
    chans := s.chans.mapIdx fun c x =>
      { x with rxCond := wrap16 (fadeValue s.params e (x.condValue s.params c)) } }

/-- `condition` (R226): a loss reset beyond LOSS_T + FADE_F, else the fade. -/
def State.condition (s : State) : State :=
  let e := s.elapsed s.lastPair
  if s.params.lossT + s.params.fadeF < e then s.lossReset.silence else s.conditionAll e

/-- RX_COND of channel `c` as an integer. -/
def State.condOf (s : State) (c : Nat) : Int :=
  match s.chans[c]? with
  | some x => x.rxCond.toInt
  | none => 0

/-- `targets` (R229): PID_TGT[a] <- RX_COND[AX_CH[a]] · 2^S. -/
def State.targets (s : State) : State :=
  { s with
    axes := s.axes.mapIdx fun a x =>
      { x with pidTgt := wrap32 (s.condOf (s.params.axChOf a) * 2 ^ s.params.sfrac) } }

end Sys2Proof.Machine
end

