-- ==== Sys2Proof/Machine/TimerEncoder.lean ====
section
/-! DEFINITION. TICK and ENC, and the encoder drain, speed and feedback that SVC.ENC calls
(40_timer_encoder.md). -/

namespace Sys2Proof.Machine

/-! ## TICK -/

/-- The next tick wraps the hardware counter (R140). -/
def State.counterWraps (s : State) : Bool := decide ((s.cnt + 1) % 2 ^ s.params.cb = 0)

/-- A tick at which CNT wraps: OVF and the two prescalers count in the same step (R140). -/
def State.wrapTick (s : State) : State :=
  { s with
    cnt := 0
    ovf := (s.ovf + 1) % 2 ^ s.params.ob
    encPre := prescale s.encPre s.params.encFrameOvf
    encDue := raiseDue s.encDue s.encPre s.params.encFrameOvf
    rxPre := prescale s.rxPre s.params.rxFrameOvf
    rxDue := raiseDue s.rxDue s.rxPre s.params.rxFrameOvf }

/-- A tick at which CNT does not wrap (R140). -/
def State.countTick (s : State) : State := { s with cnt := (s.cnt + 1) % 2 ^ s.params.cb }

/-- One tick (R140). -/
def State.tickOnce (s : State) : State := if s.counterWraps then s.wrapTick else s.countTick

/-- `n` ticks in sequence (R140, R141): `tickOnce`, then `n - 1` more (`tickTimes_succ`). The case split
stands in the loop itself so that evaluation settles each tick before the next. -/
def State.tickTimes : Nat → State → State
  | 0, s => s
  | n + 1, s => if s.counterWraps then State.tickTimes n s.wrapTick else State.tickTimes n s.countTick

/-- TICK (R140). -/
def execTick (k : BitVec 12) (s : State) : Host.Outcome State Fault Refusal :=
  .next (s.tickTimes (tickCount k))

/-! ## ENC -/

/-- QDEC[0..15], indexed by 4·prev + cur (R144). -/
def qdecTable : List Int := [0, 1, -1, 0, -1, 0, 0, 1, 1, 0, 0, -1, 0, -1, 1, 0]

/-- QDEC of a previous and a current state (R144). -/
def qdec (prev cur : BitVec 2) : Int := qdecTable.getD (4 * prev.toNat + cur.toNat) 0

/-- The count a state change adds: QDEC under QUAD, the number of changed inputs under INC (R143, R146). -/
def encDelta (policy : EncPolicy) (prev cur : BitVec 2) : Int :=
  match policy with
  | .quad => qdec prev cur
  | .inc => popcount (prev ^^^ cur)

/-- One encoder sample of an axis (R143): the first only loads, the others count, wrapping as s16 (R147). -/
def Axis.sample (x : Axis) (policy : EncPolicy) (cur : BitVec 2) : Axis :=
  if x.encPv then
    { x with encCount := wrap16 (x.encCount.toInt + encDelta policy x.encPrev cur), encPrev := cur }
  else { x with encPrev := cur, encPv := true }

/-- ENC (R143). An axis not below NAX spells no operation (R104, R106). -/
def execEnc (axis : BitVec 4) (ab : BitVec 2) (s : State) : Host.Outcome State Fault Refusal :=
  if axis.toNat < s.params.nax then
    .next (s.modifyAxis axis.toNat (fun x => x.sample s.params.encPolicy ab))
  else .refused (.illegalWord .axisOutOfRange)

/-! ## Drain and speed (called by SVC.ENC) -/

/-- `enc_drain` with window length `w` (R148). -/
def Axis.drain (x : Axis) (w : Nat) : Axis :=
  { x with
    encCount := 0
    encSum := wrap32 (x.encSum.toInt - (x.encWin.getD x.encIdx 0).toInt + x.encCount.toInt)
    encWin := x.encWin.set x.encIdx x.encCount
    encIdx := (x.encIdx + 1) % w }

/-- `enc_speed` with window length `w` (R149). -/
def Axis.updateSpeed (x : Axis) (p : Params) (w : Nat) : Axis :=
  { x with encSpeed := wrap32 (tdiv (x.encSum.toInt * 2 ^ p.sfrac) ((w : Int) * (p.encCalDiv : Int))) }

/-- `measured` (R150): under INC the speed takes the sign of the target. -/
def Axis.measured (x : Axis) (policy : EncPolicy) : Word :=
  match policy with
  | .quad => x.encSpeed
  | .inc => if 0 ≤ x.pidTgt.toInt then x.encSpeed else wrap32 (-x.encSpeed.toInt)

end Sys2Proof.Machine
end

