-- ==== Sys2Proof/Machine/Pid.lean ====
section
/-! DEFINITION. The PID step that SVC.ENC calls for each axis (43_pid.md). Products are exact; each stored
quantity wraps to s32 (R260). -/

namespace Sys2Proof.Machine

/-- A gain times an error, shifted right by S (R253, R254). -/
def scaled (p : Params) (gain err : Word) : Int := asr (gain.toInt * err.toInt) p.sfrac

/-- The blend of the output with the target (R256). -/
def blendOutput (blend : BitVec 16) (out tgt : Word) : Int :=
  asr (out.toInt * (blend.toNat : Int) + tgt.toInt * ((Config.blendOne : Int) - (blend.toNat : Int))) 8

/-- The motor command of a Q(S) value: integer percent, clamped, negated where REV is 1 (R257, R258). -/
def motorOf (p : Params) (rev : BitVec 8) (y : Int) : BitVec 8 :=
  let mc := clamp (asr y p.sfrac) (-(Config.motorMax : Int)) Config.motorMax
  wrap8 (if rev = 1 then -mc else mc)

/-- The step for a zero target (R251): the state resets and the output is 0. -/
def Axis.pidRest (x : Axis) (p : Params) (g : AxisCfg) : Axis :=
  { x with pidOut := 0, pidInt := 0, pidLast := 0, motorCmd := motorOf p g.rev 0 }

/-- PID_INT after the step, from the error (R253). -/
def Axis.nextInt (x : Axis) (p : Params) (g : AxisCfg) (e : Word) : Word :=
  wrap32 (x.pidInt.toInt + tdiv (scaled p g.ki e) p.intDiv)

/-- PID_OUT after the step, from the error and the derivative: proportional term, the new integral,
derivative term, each sum reduced to s32 (R254). -/
def Axis.nextOut (x : Axis) (p : Params) (g : AxisCfg) (e d : Word) : Word :=
  let out1 := wrap32 (x.pidOut.toInt + scaled p g.kp e)
  let out2 := wrap32 (out1.toInt + (x.nextInt p g e).toInt)
  wrap32 (out2.toInt + scaled p g.kd d)

/-- The step for a nonzero target (R252-R258). -/
def Axis.pidDrive (x : Axis) (p : Params) (g : AxisCfg) (meas : Word) : Axis :=
  let e := wrap32 (x.pidTgt.toInt - meas.toInt)
  let d := wrap32 (e.toInt - x.pidLast.toInt)
  let out := x.nextOut p g e d
  { x with
    pidInt := x.nextInt p g e
    pidOut := out
    pidLast := e
    motorCmd := motorOf p g.rev (blendOutput g.blend out x.pidTgt) }

/-- `pid_step` (R250). -/
def Axis.pidStep (x : Axis) (p : Params) (g : AxisCfg) (meas : Word) : Axis :=
  if x.pidTgt = 0 then x.pidRest p g else x.pidDrive p g meas

end Sys2Proof.Machine
end

