-- ==== Sys2Proof/Machine/Sequencer.lean ====
section
/-! DEFINITION. SVC.ENC, SVC.RX and HANDSHAKE: the frame sequencer (44_sequencer.md). -/

namespace Sys2Proof.Machine

/-- The encoder frame of one axis with configuration `g`: drain, speed, PID step (R282). -/
def Axis.frame (x : Axis) (p : Params) (g : AxisCfg) : Axis :=
  let y := (x.drain g.ewin.toNat).updateSpeed p g.ewin.toNat
  y.pidStep p g (y.measured p.encPolicy)

/-- The encoder frame of every axis; no axis reads another's state, so the axes are done together (R282). -/
def State.encFrame (s : State) : State :=
  { s with axes := s.axes.mapIdx fun a x => x.frame s.params (s.axisCfg a) }

/-- `handshake_check` (R283): one byte is consumed, and 0x55 enters CONFIG mode. -/
def State.handshakeCheck (s : State) : State :=
  match s.serRxq with
  | [] => s
  | b :: rest => if b = Config.handshakeByte then (s.withRxq rest).enterConfig else s.withRxq rest

/-- SVC.ENC (R282); stuck where it is not enabled (R107, R281). -/
def execSvcEnc (s : State) : Host.Outcome State Fault Refusal :=
  if s.svcEncEnabled then .next { s with encDue := false }.encFrame.dispatchMotors.handshakeCheck
  else .fault .svcEncNotEnabled

/-- SVC.RX (R285); stuck where it is not enabled (R107, R284). -/
def execSvcRx (s : State) : Host.Outcome State Fault Refusal :=
  if s.svcRxEnabled then .next { s with rxDue := false }.rxDrain.condition.targets
  else .fault .svcRxNotEnabled

/-- HANDSHAKE (R113, R283): the effect of the byte 0x55, already taken from SER_RXQ by the handshake check,
in NORMAL mode (log 7). -/
def execHandshake (s : State) : Host.Outcome State Fault Refusal :=
  if s.mode = .normal then .next s.enterConfig else .fault .handshakeOutsideNormal

end Sys2Proof.Machine
end

