-- ==== Sys2Proof/Machine/Dispatch.lean ====
section
/-! DEFINITION. The meaning of every operation, one arm per constructor. -/

namespace Sys2Proof.Machine

def exec (i : Instr) (s : State) : Host.Outcome State Fault Refusal :=
  match i with
  | .tick k => Sys2Proof.Machine.execTick k s
  | .enc axis ab => Sys2Proof.Machine.execEnc axis ab s
  | .rx port => Sys2Proof.Machine.execRx port s
  | .ser b => Sys2Proof.Machine.execSer b s
  | .nvfault copy => Sys2Proof.Machine.execNvfault copy s
  | .rdreg addr => Sys2Proof.Machine.execRdreg addr s
  | .svcEnc => Sys2Proof.Machine.execSvcEnc s
  | .svcRx => Sys2Proof.Machine.execSvcRx s
  | .svcCfg => Sys2Proof.Machine.execSvcCfg s
  | .reset => Sys2Proof.Machine.execReset s
  | .reqRead id v => Sys2Proof.Machine.execReqRead id v s
  | .reqWrite id v => Sys2Proof.Machine.execReqWrite id v s
  | .reqFinish v => Sys2Proof.Machine.execReqFinish v s
  | .handshake => Sys2Proof.Machine.execHandshake s

end Sys2Proof.Machine
end

