-- ==== Sys2Proof/Machine/Placement.lean ====
section
/-! DEFINITION. Where an instruction has to stand for the very next step to run it (log 8): an operation word
is presented next, and a service word is presented in a state where the sequencer performs it (R107); a
serial command stands at the front of SER_RXQ with the service that consumes it presented (R283, R313). -/

namespace Sys2Proof.Machine

/-- A state in which SVC.ENC is enabled (R281); `s` itself where it is. -/
def State.enableSvcEnc (s : State) : State := { s with mode := .normal, encDue := true }

/-- A state in which SVC.RX is enabled (R284); `s` itself where it is. -/
def State.enableSvcRx (s : State) : State := { s with mode := .normal, rxDue := true }

/-- A state in which SVC.CFG is enabled (R312); `s` itself where it is. The request bytes are SVC.CFG's
operand: where none are ready, the front byte is 0. -/
def State.enableSvcCfg (s : State) : State :=
  let t := { s with mode := .config }
  if t.svcCfgEnabled then t else t.overwriteRxq [0]

/-- What an operation word needs besides being presented: only a service word needs anything. -/
def State.enableFor (s : State) (w : OpWord) : State :=
  if w = 0x8000 then s.enableSvcEnc
  else if w = 0x9000 then s.enableSvcRx
  else if w = 0xA000 then s.enableSvcCfg
  else s

/-- `s` with an encoding placed where the next step performs it. -/
def State.place (s : State) : Encoded → State
  | .word w => (s.enableFor w).present w
  | .request bs => ({ s with mode := .config }.overwriteRxq bs).present 0xA000
  | .byte b => (s.enableSvcEnc.overwriteRxq [b]).present 0x8000

end Sys2Proof.Machine
end

