-- ==== Sys2Proof/Machine/Step.lean ====
section
/-! DEFINITION. One step: the next operation presented to the block, decoded and performed. -/

namespace Sys2Proof.Machine

/-- One step (R90, R91, R468). A parameter set that violates R8 defines no block; with nothing presented the
run is over; a word that spells no operation is refused (R106). -/
def step (s : State) : Host.Outcome State Fault Refusal :=
  if s.params.legal then
    match s.fetch with
    | none => .fault .noOperation
    | some (w, t) =>
      match decode s.params (.word w) with
      | .error e => .refused (.illegalWord e)
      | .ok i => exec i t
  else .refused .illegalParameters

/-- `s` with the instruction whose table bits are `w` placed where the next step performs it (log 8). -/
def State.withFetchWord (s : State) (nbits w : Nat) : State :=
  match tableEncoding nbits w with
  | some e => s.place e
  | none => s

end Sys2Proof.Machine
end

