-- ==== Sys2Proof/Machine/Assembler.lean ====
section
/-! DEFINITION. The pseudo-operations with their expansions (R116) and the assembler lines (R115). -/

namespace Sys2Proof.Machine

/-! ## Pseudo-operations (R116) -/

/-- `TICKS n`, n ≥ 1: TICK 4096 as often as it fits, then the rest, in 1..4096. -/
def ticksOps (n : Nat) : List Instr :=
  List.replicate ((n - 1) / 4096) (.tick 0xFFF#12) ++ [.tick (BitVec.ofNat 12 ((n - 1) % 4096))]

/-- A sequence of received bytes. -/
def sendOps (bs : List Byte) : List Instr := bs.map .ser

/-- `HANDSHAKE`. -/
def handshakeOps : List Instr := sendOps [Config.handshakeByte]

/-- `REQ.READ id`. -/
def readRequestOps (id : BitVec 4) : List Instr := sendOps (frameRequest (0x0#4 ++ id) [])

/-- `REQ.WRITE id, v`: size(f) bytes of `v`, least significant first; no expansion for an id whose field
number is 7, which has no size. Both that and that the low bytes are sent of a value that does not fit size(f)
bytes: DESIGN CHOICE (log 22). -/
def writeRequestOps (id : BitVec 4) (v : Word) : Option (List Instr) :=
  match idField id with
  | some f => some (sendOps (frameRequest (0x3#4 ++ id) (leBytes f.size v)))
  | none => none

/-- `REQ.FINISH`. -/
def finishRequestOps : List Instr := sendOps (frameRequest Config.finishByte [])

/-- `PULSE p, bit, w`, given the port value `p` with the bit clear (R116). For a `p` whose bit is set R116 gives no
expansion; the same three operations are the model's: `RX p`, `TICKS w`, `RX p`. DESIGN CHOICE (log 24). -/
def pulseOps (p : Byte) (bit w : Nat) : List Instr :=
  .rx (p ||| (1#8 <<< bit)) :: (ticksOps w ++ [.rx p])

/-! ## Assembler lines (R115) -/

/-- A digit's value. -/
def digitOf (c : Char) : Option Nat :=
  if '0' ≤ c ∧ c ≤ '9' then some (c.toNat - '0'.toNat)
  else if 'a' ≤ c ∧ c ≤ 'f' then some (c.toNat - 'a'.toNat + 10)
  else if 'A' ≤ c ∧ c ≤ 'F' then some (c.toNat - 'A'.toNat + 10)
  else none

/-- The digits of a number after those already read. -/
def digitsOf (base acc : Nat) : List Char → Option Nat
  | [] => some acc
  | c :: cs =>
    match digitOf c with
    | some d => if d < base then digitsOf base (acc * base + d) cs else none
    | none => none

/-- A number in decimal, `0x` hexadecimal or `0b` binary. -/
def numberOf (cs : List Char) : Option Nat :=
  match cs with
  | [] => none
  | ['0', 'x'] => none
  | ['0', 'b'] => none
  | '0' :: 'x' :: ds => digitsOf 16 0 ds
  | '0' :: 'b' :: ds => digitsOf 2 0 ds
  | ds => digitsOf 10 0 ds

/-- A WRITE value: a number, negative where a minus stands before it, as a 32-bit pattern. A value outside 32
bits is reduced modulo 2^32: DESIGN CHOICE (log 22). -/
def valueOf (cs : List Char) : Option Word :=
  match cs with
  | '-' :: ds => (numberOf ds).map (fun n => BitVec.ofInt 32 (-(n : Int)))
  | ds => (numberOf ds).map (fun n => BitVec.ofNat 32 n)

/-- A number below `bound`, as a field of an operation. -/
def fieldOf {n : Nat} (bound : Nat) (cs : List Char) : Option (BitVec n) :=
  match numberOf cs with
  | some v => if v < bound then some (BitVec.ofNat n v) else none
  | none => none

/-- A line without its comment. -/
def bareLine (cs : List Char) : List Char := cs.takeWhile (fun c => c != ';')

/-- The mnemonic of a line. -/
def mnemonicOf (cs : List Char) : List Char :=
  ((bareLine cs).dropWhile (fun c => c = ' ')).takeWhile (fun c => c != ' ')

/-- Characters split at commas, without blanks: blanks inside an operand are dropped too, so `TICK 4 0` reads as
`TICK 40`. DESIGN CHOICE (log 20). -/
def splitCommas : List Char → List (List Char)
  | [] => [[]]
  | c :: cs =>
    match splitCommas cs with
    | [] => [[c]]
    | w :: ws => if c = ',' then [] :: w :: ws else if c = ' ' then w :: ws else (c :: w) :: ws

/-- The operands of a line. -/
def operandsOf (cs : List Char) : List (List Char) :=
  let rest := ((bareLine cs).dropWhile (fun c => c = ' ')).dropWhile (fun c => c != ' ')
  if rest.all (fun c => c = ' ') then [] else splitCommas rest

/-- The operations of a line with one operand. -/
def assembleOne (m x : List Char) : Option (List Instr) :=
  if m = ['T', 'I', 'C', 'K'] then
    match numberOf x with
    | some k => if 1 ≤ k ∧ k ≤ 4096 then some [.tick (BitVec.ofNat 12 (k - 1))] else none
    | none => none
  else if m = ['R', 'X'] then (fieldOf 256 x).map (fun b => [.rx b])
  else if m = ['S', 'E', 'R'] then (fieldOf 256 x).map (fun b => [.ser b])
  else if m = ['N', 'V', 'F', 'A', 'U', 'L', 'T'] then (fieldOf 3 x).map (fun k => [.nvfault k])
  else if m = ['R', 'D', 'R', 'E', 'G'] then (fieldOf 4096 x).map (fun a => [.rdreg a])
  else if m = ['T', 'I', 'C', 'K', 'S'] then
    match numberOf x with
    | some n => if 1 ≤ n then some (ticksOps n) else none
    | none => none
  else if m = ['R', 'E', 'Q', '.', 'R', 'E', 'A', 'D'] then (fieldOf 16 x).map readRequestOps
  else none

/-- The operations of a line with two operands. -/
def assembleTwo (m x y : List Char) : Option (List Instr) :=
  if m = ['E', 'N', 'C'] then
    match fieldOf 16 x, fieldOf 4 y with
    | some a, some ab => some [.enc a ab]
    | _, _ => none
  else if m = ['R', 'E', 'Q', '.', 'W', 'R', 'I', 'T', 'E'] then
    match fieldOf 16 x, valueOf y with
    | some id, some v => writeRequestOps id v
    | _, _ => none
  else none

/-- The operations of a line with no operand. -/
def assembleNone (m : List Char) : Option (List Instr) :=
  if m = [] then some []
  else if m = ['S', 'V', 'C', '.', 'E', 'N', 'C'] then some [.svcEnc]
  else if m = ['S', 'V', 'C', '.', 'R', 'X'] then some [.svcRx]
  else if m = ['S', 'V', 'C', '.', 'C', 'F', 'G'] then some [.svcCfg]
  else if m = ['R', 'E', 'S', 'E', 'T'] then some [.reset]
  else if m = ['H', 'A', 'N', 'D', 'S', 'H', 'A', 'K', 'E'] then some handshakeOps
  else if m = ['R', 'E', 'Q', '.', 'F', 'I', 'N', 'I', 'S', 'H'] then some finishRequestOps
  else none

/-- The operations a line of assembler text names; none for a line that is not one of R115 or R116. A PULSE line whose
port value has the bit set is not rejected: DESIGN CHOICE (log 24). -/
def assembleLine (cs : List Char) : Option (List Instr) :=
  match operandsOf cs with
  | [] => assembleNone (mnemonicOf cs)
  | [x] => assembleOne (mnemonicOf cs) x
  | [x, y] => assembleTwo (mnemonicOf cs) x y
  | [x, y, z] =>
    if mnemonicOf cs = ['P', 'U', 'L', 'S', 'E'] then
      match fieldOf 256 x, numberOf y, numberOf z with
      | some p, some bit, some w => if bit < 8 ∧ 1 ≤ w then some (pulseOps p bit w) else none
      | _, _, _ => none
    else none
  | _ => none

end Sys2Proof.Machine
end

