-- ==== Sys2Proof/Machine/Run.lean ====
section
/-! DEFINITION. Runs: a finite sequence of operations and its result (R468). -/

namespace Sys2Proof.Machine

/-- A finite sequence of operations performed one after the other (R468), stopping at the first that has no
step. -/
def performAll : List Instr → State → Host.Outcome State Fault Refusal
  | [], s => .next s
  | i :: is, s =>
    match exec i s with
    | .next t => performAll is t
    | .fault r => .fault r
    | .refused r => .refused r

/-- The result of a run (R468): the state after the last operation, the SER_TX bytes emitted, and the MOTOR_CMD
values written, each with its axis, in order. -/
structure RunResult where
  final : State
  emitted : List Byte
  motorWritten : List (Nat × BitVec 8)
deriving DecidableEq, Repr

/-- The result of the run from `s` to `t`: what `t`'s output histories hold beyond those of `s`. -/
def State.resultSince (s t : State) : RunResult :=
  { final := t, emitted := t.serTx.drop s.serTx.length, motorWritten := t.motorOut.drop s.motorOut.length }

/-- The run of the operations `is` from the start state `s` (R468); a run that stops has no result. -/
def run (is : List Instr) (s : State) : Host.Outcome RunResult Fault Refusal :=
  match performAll is s with
  | .next t => .next (s.resultSince t)
  | .fault r => .fault r
  | .refused r => .refused r

end Sys2Proof.Machine
end

