-- ==== Sys2Proof/WellFormed.lean ====
section
/-! DEFINITION. Which operations are well formed: the value constraints R104 checks beyond the bit pattern,
and the request lengths R108 allows. -/

namespace Sys2Proof

/-- A request's length byte, `1 + v.length`, is legal in 1..5 (R108). -/
def valueBytesFit (v : List Byte) : Bool := decide (v.length ≤ 4)

/-- The well-formed operations of a block with parameters `p`. ENC's axis is below NAX and NVFAULT's copy
is not 3 (R104); a request has at most four value bytes (R108). -/
def Instr.wellFormed (p : Params) : Instr → Bool
  | .tick _ => true
  | .enc axis _ => decide (axis.toNat < p.nax)
  | .rx _ => true
  | .ser _ => true
  | .nvfault copy => copy != 3#2
  | .rdreg _ => true
  | .svcEnc => true
  | .svcRx => true
  | .svcCfg => true
  | .reset => true
  | .reqRead _ v => valueBytesFit v
  | .reqWrite _ v => valueBytesFit v
  | .reqFinish v => valueBytesFit v
  | .handshake => true

end Sys2Proof
end

