-- ==== Sys2Proof/Safety.lean ====
section
/-! DEFINITION. What claims about the block are stated in: when an operation is enabled, and the invariants
the spec gives the state. -/

namespace Sys2Proof.Machine

/-- The operation has a step in `s` (R107, R281, R284, R312): every event and host read is accepted in every
mode (R407); a serial command is consumed only in its mode (R108, R113). -/
def opEnabled (s : State) : Instr → Bool
  | .tick _ => true
  | .enc _ _ => true
  | .rx _ => true
  | .ser _ => true
  | .nvfault _ => true
  | .rdreg _ => true
  | .svcEnc => s.svcEncEnabled
  | .svcRx => s.svcRxEnabled
  | .svcCfg => s.svcCfgEnabled
  | .reset => true
  | .reqRead _ _ => decide (s.mode = .config)
  | .reqWrite _ _ => decide (s.mode = .config)
  | .reqFinish _ => decide (s.mode = .config)
  | .handshake => decide (s.mode = .normal)

/-- The edge timer is in range: CNT : uCB, OVF : uOB, each prescaler below its limit (R31, R32). -/
abbrev TimerInv (s : State) : Prop :=
  s.cnt < 2 ^ s.params.cb ∧ s.ovf < 2 ^ s.params.ob ∧ s.encPre.toNat < s.params.encFrameOvf ∧
    s.rxPre.toNat < s.params.rxFrameOvf

/-- CFG and CFG_EDIT are legal records (R50). -/
abbrev ConfigInv (s : State) : Prop :=
  Record.legal s.params.nax s.params.wCap s.cfg = true ∧
    Record.legal s.params.nax s.params.wCap s.cfgEdit = true

/-- The window of one axis, of length `w` and capacity `wCap`: the index is in range (R38), only slots below
`w` are used (R36), and the running sum is the exact sum of the window (R37, R151). -/
abbrev Axis.WindowOk (x : Axis) (wCap w : Nat) : Prop :=
  x.encWin.length = wCap ∧ x.encIdx < w ∧ x.encWin.drop w = List.replicate (wCap - w) 0 ∧
    x.encSum.toInt = ((x.encWin.take w).map BitVec.toInt).sum

/-- There is one record per axis, and each window is kept (R36-R38, R151). -/
abbrev WindowInv (s : State) : Prop :=
  s.axes.length = s.params.nax ∧
    ∀ a (h : a < s.axes.length), (s.axes[a]).WindowOk s.params.wCap (s.axisCfg a).ewin.toNat

/-- The ring of one channel: RX_N readings, the head in range, and the order a permutation of 0..RX_N-1 along
which the readings do not decrease (R44-R46, R189). -/
abbrev Channel.RingOk (x : Channel) (rxN : Nat) : Prop :=
  x.ringVal.length = rxN ∧ x.ringHead < rxN ∧ x.ringOrd.Perm (List.range rxN) ∧
    (x.ringOrd.map (fun k => x.ringVal.getD k 0)).Pairwise (· ≤ ·)

/-- There is one record per channel, and each ring is ordered (R45, R189). -/
abbrev RingInv (s : State) : Prop :=
  s.chans.length = s.params.nch ∧ ∀ x ∈ s.chans, x.RingOk s.params.rxN

/-- Every stored tick is below 2^TB (R42-R44, R54), and RX_MUX is a channel, 0 in PAR mode (R41). -/
abbrev TickInv (s : State) : Prop :=
  s.lastPair < 2 ^ s.params.tb ∧ s.serLast < 2 ^ s.params.tb ∧
    (∀ x ∈ s.chans, x.rxStart < 2 ^ s.params.tb ∧ x.rxEnd < 2 ^ s.params.tb ∧
      ∀ v ∈ x.ringVal, v < 2 ^ s.params.tb) ∧
    s.rxMux < s.params.nch ∧ (s.params.rxMode = .par → s.rxMux = 0)

/-- MOTOR_CMD is in ±MOTOR_MAX (R49) and RX_COND in ±RANGE (R47). -/
abbrev OutputInv (s : State) : Prop :=
  (∀ x ∈ s.axes, -100 ≤ x.motorCmd.toInt ∧ x.motorCmd.toInt ≤ 100) ∧
    ∀ x ∈ s.chans, -(s.params.range : Int) ≤ x.rxCond.toInt ∧ x.rxCond.toInt ≤ s.params.range

/-- SER_RXQ holds at most SER_FIFO_CAP bytes (R54). -/
abbrev FifoInv (s : State) : Prop := s.serRxq.length ≤ s.params.serFifoCap

/-- The invariants of the state together. -/
abbrev BlockInv (s : State) : Prop :=
  TimerInv s ∧ ConfigInv s ∧ WindowInv s ∧ RingInv s ∧ TickInv s ∧ OutputInv s ∧ FifoInv s

end Sys2Proof.Machine
end

