-- ==== Sys2Proof/Certificates/Slice0/Obligations.lean ====
section
/-! DEFINITION. The statements for the provers, one `def Obligations.<Name> : Prop` each; OBLIGATIONS.json
lists them. A statement about every state quantifies over every parameter set too: the parameters of R8 stand
in the state (log 1). -/

open Sys2Proof Sys2Proof.Machine

/-! ## Encoding -/

/-- Decoding the encoding of a well-formed operation gives the operation back, with every operand
(R101-R105, R108-R111, R113). -/
def Obligations.DecodeEncodeRoundTrip : Prop :=
  ∀ (p : Params) (i : Instr), i.wellFormed p = true → decode p (encode i) = .ok i

/-- An encoding that spells an operation spells a well-formed one, and is that operation's encoding (R101, R103,
R104, R108, R109, R113): no bit of a word and no byte of a request is dropped. -/
def Obligations.EncodingsHaveOneMeaning : Prop :=
  ∀ (p : Params) (e : Encoded) (i : Instr),
    decode p e = .ok i → i.wellFormed p = true ∧ encode i = e

/-- R104, R105: a word spells an operation exactly when it matches a row of R105 and neither names an axis
not below NAX in ENC nor copy 3 in NVFAULT; and the operation is the matched row's. -/
def Obligations.WordSelectsItsRow : Prop :=
  ∀ (p : Params) (w : OpWord),
    ((∃ i, decodeWord p w = .ok i) ↔
      (∃ r ∈ opcodeRows, w &&& r.2 = r.1) ∧
        ¬(w &&& 0xF0FC = 0x2000 ∧ p.nax ≤ (w.extractLsb' 8 4).toNat) ∧ w ≠ 0x5003) ∧
    ∀ i, decodeWord p w = .ok i → ∃ r, matchMask i = some r ∧ w &&& r.2 = r.1

/-- R106: a word of a reserved KIND, with a nonzero bit in a field marked 0, or failing R104's constraint is
refused by name and has no step. -/
def Obligations.IllegalWordHasNoStep : Prop :=
  ∀ (s : State) (w : OpWord) (rest : List OpWord),
    s.params.legal = true → s.pending = w :: rest →
    ((w.extractLsb' 12 4 ∈ [0x0#4, 0x7#4, 0xB#4, 0xC#4, 0xD#4, 0xE#4]) ∨
      (w.extractLsb' 12 4 = 0x2#4 ∧ w.extractLsb' 2 6 ≠ 0) ∨
      (w.extractLsb' 12 4 ∈ [0x3#4, 0x4#4] ∧ w.extractLsb' 8 4 ≠ 0) ∨
      (w.extractLsb' 12 4 = 0x5#4 ∧ w.extractLsb' 2 10 ≠ 0) ∨
      (w.extractLsb' 12 4 ∈ [0x8#4, 0x9#4, 0xA#4, 0xF#4] ∧ w.extractLsb' 0 12 ≠ 0) ∨
      (w.extractLsb' 12 4 = 0x2#4 ∧ s.params.nax ≤ (w.extractLsb' 8 4).toNat) ∨
      w = 0x5003) →
    ∃ e, step s = .refused (.illegalWord e)

/-- Words and requests written out from R101-R113 and 95_test_vectors.md sections 2.10 and 2.12 decode to the
operations they stand for (a block of two axes). -/
def Obligations.WrittenWordsDecode : Prop :=
  decodeTableWord 16 0x1FFF = some (.tick 0xFFF) ∧ decodeTableWord 16 0x2103 = some (.enc 1 3) ∧
    decodeTableWord 16 0x30A5 = some (.rx 0xA5) ∧ decodeTableWord 16 0x4055 = some (.ser 0x55) ∧
    decodeTableWord 16 0x5002 = some (.nvfault 2) ∧ decodeTableWord 16 0x6FFF = some (.rdreg 0xFFF) ∧
    decodeTableWord 16 0x8000 = some .svcEnc ∧ decodeTableWord 16 0x9000 = some .svcRx ∧
    decodeTableWord 16 0xA000 = some .svcCfg ∧ decodeTableWord 16 0xF000 = some .reset ∧
    decodeRequest [0x01, 0x03] = .ok (.read 3 []) ∧
    decodeRequest [0x03, 0x33, 0x40, 0x00] = .ok (.write 3 [0x40, 0x00]) ∧
    decodeRequest [0x01, 0xFF] = .ok (.finish []) ∧ decodeTableWord 8 0x55 = some .handshake

/-! ## Steps -/

/-- A step runs the decoded operation: the next presented word is taken from the sequence, and the state
after the step is that of the operation it spells (R90, R91, R468). -/
def Obligations.StepRunsTheDecodedOperation : Prop :=
  ∀ (s : State) (w : OpWord) (rest : List OpWord) (i : Instr),
    s.params.legal = true → s.pending = w :: rest → decodeWord s.params w = .ok i →
    i.wellFormed s.params = true → step s = exec i { s with pending := rest }

/-- In CONFIG mode, SVC.CFG performs the serial command whose request stands at the front of SER_RXQ, after
taking its bytes (R313; that the commands are operations of their own is the model's choice, log 7). -/
def Obligations.SvcCfgRunsTheFrontRequest : Prop :=
  ∀ (s : State) (bs tail : List Byte) (r : Request),
    s.mode = .config → s.serRxq = bs ++ tail → decodeRequest bs = .ok r →
    exec .svcCfg s = exec r.toInstr { s with serRxq := tail }

/-- R107, R400, with the conditions of R281, R284, R312 and R407 written out: a well-formed operation that is
enabled completes, and one that is not has no step: it is stuck. No operation is refused, and `opEnabled` is that
condition. The stop of a serial command outside its mode is the model's choice (log 7). -/
def Obligations.EnabledOperationsComplete : Prop :=
  ∀ (s : State) (i : Instr), i.wellFormed s.params = true →
    let enabled : Prop :=
      match i with
      | .svcEnc => s.encDue = true ∧ s.mode = .normal
      | .svcRx => s.rxDue = true ∧ s.mode = .normal
      | .svcCfg =>
        s.mode = .config ∧ ∃ l rest, s.serRxq = l :: rest ∧
          (l.toNat = 0 ∨ 5 < l.toNat ∨ 1 + l.toNat ≤ s.serRxq.length ∨
            (s.params.serTimeout : Int) ≤
              ((s.ovf * 2 ^ s.params.cb + s.cnt : Int) - s.serLast) % 2 ^ (s.params.cb + s.params.ob))
      | .reqRead _ _ | .reqWrite _ _ | .reqFinish _ => s.mode = .config
      | .handshake => s.mode = .normal
      | .tick _ | .enc _ _ | .rx _ | .ser _ | .nvfault _ | .rdreg _ | .reset => True
    (enabled → ∃ t, exec i s = .next t) ∧ (¬enabled → ∃ f, exec i s = .fault f) ∧
      (opEnabled s i = true ↔ enabled)

/-! ## TICK -/

/-- R141, R116: TICK k is k consecutive TICK 1 operations, and `TICKS n` expands to operations that together are
n single ticks. -/
def Obligations.TickRepeatsSingleTicks : Prop :=
  ∀ s : State,
    (∀ k : BitVec 12, exec (.tick k) s = performAll (List.replicate (k.toNat + 1) (.tick 0)) s) ∧
    ∀ n : Nat, 1 ≤ n → performAll (ticksOps n) s = performAll (List.replicate n (.tick 0)) s

/-- R140 for one tick: CNT counts modulo 2^CB, and where it wraps OVF and the prescalers count in the same
step, each prescaler raising its flag and returning to 0 at its limit; nothing else changes. A prescaler
whose limit is above 65536 wraps at its 16 bits instead, as R403 says of every overflow (log 9). -/
def Obligations.SingleTickCounts : Prop :=
  ∀ s : State, s.params.legal = true → TimerInv s →
    exec (.tick 0) s = .next
      (if s.cnt + 1 = 2 ^ s.params.cb then
        { s with
          cnt := 0
          ovf := if s.ovf + 1 = 2 ^ s.params.ob then 0 else s.ovf + 1
          encPre := if s.encPre.toNat + 1 = s.params.encFrameOvf then 0
            else BitVec.ofNat 16 (s.encPre.toNat + 1)
          encDue := if s.encPre.toNat + 1 = s.params.encFrameOvf then true else s.encDue
          rxPre := if s.rxPre.toNat + 1 = s.params.rxFrameOvf then 0
            else BitVec.ofNat 16 (s.rxPre.toNat + 1)
          rxDue := if s.rxPre.toNat + 1 = s.params.rxFrameOvf then true else s.rxDue }
      else { s with cnt := s.cnt + 1 })

/-- TICK in closed form, from R140 and R141: with `w` counter wraps in `k + 1` ticks, CNT advances by `k + 1` modulo
2^CB and OVF by `w` modulo 2^OB, so NOW by `k + 1` modulo 2^TB; each prescaler advances by `w` modulo its limit, and
its frame flag rises exactly when it passes the limit. A prescaler whose limit is above 65536 wraps at its 16 bits, as
R403 says of every overflow, and never reaches the limit (log 9). The timer stays in range and nothing else
changes. -/
def Obligations.TickClosedForm : Prop :=
  ∀ (k : BitVec 12) (s : State), s.params.legal = true → TimerInv s →
    let n := k.toNat + 1
    let w := (s.cnt + n) / 2 ^ s.params.cb
    ∃ t, exec (.tick k) s = .next t ∧
      t.cnt = (s.cnt + n) % 2 ^ s.params.cb ∧ t.ovf = (s.ovf + w) % 2 ^ s.params.ob ∧
      t.now = (s.now + n) % 2 ^ s.params.tb ∧ TimerInv t ∧
      t.encPre.toNat = (s.encPre.toNat + w) % min s.params.encFrameOvf 65536 ∧
      (t.encDue = true ↔
        s.encDue = true ∨ (s.params.encFrameOvf ≤ s.encPre.toNat + w ∧ s.params.encFrameOvf ≤ 65536)) ∧
      t.rxPre.toNat = (s.rxPre.toNat + w) % min s.params.rxFrameOvf 65536 ∧
      (t.rxDue = true ↔
        s.rxDue = true ∨ (s.params.rxFrameOvf ≤ s.rxPre.toNat + w ∧ s.params.rxFrameOvf ≤ 65536)) ∧
      t = { s with cnt := t.cnt, ovf := t.ovf, encPre := t.encPre, rxPre := t.rxPre,
                   encDue := t.encDue, rxDue := t.rxDue }

/-! ## ENC -/

/-- R143: the first sample of an axis only loads; every later one adds the policy's delta to ENC_COUNT,
wrapping as s16, and becomes the previous state. Nothing else changes. -/
def Obligations.EncCountsTheSample : Prop :=
  ∀ (axis : BitVec 4) (ab : BitVec 2) (s : State) (x : Axis),
    axis.toNat < s.params.nax → s.axes[axis.toNat]? = some x →
    exec (.enc axis ab) s = .next
      { s with
        axes := s.axes.set axis.toNat
          (if x.encPv = false then { x with encPrev := ab, encPv := true }
          else
            { x with
              encCount := BitVec.ofInt 16 (x.encCount.toInt +
                (match s.params.encPolicy with
                | .quad => qdec x.encPrev ab
                | .inc => (((x.encPrev ^^^ ab).getLsbD 0).toNat + ((x.encPrev ^^^ ab).getLsbD 1).toNat : Nat)))
              encPrev := ab }) }

/-- The table of R144 is the Gray code 00 → 01 → 11 → 10 → 00: a step along it counts +1, a step against it
−1, no change and a change of both inputs 0. -/
def Obligations.QuadratureTableIsGrayCode : Prop :=
  ∀ prev cur : BitVec 2,
    let gray := fun q : BitVec 2 => if q = 0 then 1#2 else if q = 1 then 3#2 else if q = 3 then 2#2 else 0#2
    qdec prev cur = if cur = gray prev then 1 else if prev = gray cur then -1 else 0

/-- R145: under QUAD a step and its reverse leave the whole state as it was, and four forward steps, once around
the Gray sequence from any state, add 4 to ENC_COUNT modulo 2^16. -/
def Obligations.QuadratureStepsReverse : Prop :=
  ∀ (axis : BitVec 4) (s : State) (x : Axis),
    axis.toNat < s.params.nax → s.axes[axis.toNat]? = some x → s.params.encPolicy = .quad → x.encPv = true →
    (∀ ab : BitVec 2, performAll [.enc axis ab, .enc axis x.encPrev] s = .next s) ∧
    let gray := fun q : BitVec 2 => if q = 0 then 1#2 else if q = 1 then 3#2 else if q = 3 then 2#2 else 0#2
    let q := x.encPrev
    performAll [.enc axis (gray q), .enc axis (gray (gray q)), .enc axis (gray (gray (gray q))), .enc axis q] s =
      .next { s with axes := s.axes.set axis.toNat { x with encCount := x.encCount + 4 } }

/-! ## SVC.ENC -/

/-- R148, R149: an encoder frame clears ENC_DUE and, for each axis, snapshots and zeroes the count, replaces the
window's oldest slot, keeps the sum, advances the index, and measures the speed. -/
def Obligations.SvcEncDrainsAndMeasures : Prop :=
  ∀ s : State, s.encDue = true → s.mode = .normal →
    ∃ t, exec .svcEnc s = .next t ∧ t.encDue = false ∧ t.axes.length = s.axes.length ∧
      ∀ (a : Nat) (x : Axis), s.axes[a]? = some x →
        ∃ y, t.axes[a]? = some y ∧
          y.encCount = 0 ∧
          y.encSum = x.encSum - (x.encWin.getD x.encIdx 0).signExtend 32 + x.encCount.signExtend 32 ∧
          y.encWin = x.encWin.set x.encIdx x.encCount ∧
          y.encIdx = (x.encIdx + 1) % (s.axisCfg a).ewin.toNat ∧
          y.encSpeed = BitVec.ofInt 32 (Int.tdiv (y.encSum.toInt * 2 ^ s.params.sfrac)
            ((s.axisCfg a).ewin.toNat * s.params.encCalDiv))

/-- R251: in a frame that sees a zero target, PID_OUT, PID_INT, PID_LAST and MOTOR_CMD become 0 whatever the
measured speed and prior state. -/
def Obligations.SvcEncZeroTargetRests : Prop :=
  ∀ s : State, s.encDue = true → s.mode = .normal →
    ∃ t, exec .svcEnc s = .next t ∧
      ∀ (a : Nat) (x : Axis), s.axes[a]? = some x → x.pidTgt = 0 →
        ∃ y, t.axes[a]? = some y ∧
          y.pidOut = 0 ∧ y.pidInt = 0 ∧ y.pidLast = 0 ∧ y.pidTgt = 0 ∧ y.motorCmd = 0

/-- R150, R252-R255: with a nonzero target the error is the target less the measured speed (which takes the
target's sign under INC), the integral and the accumulated output add their terms modulo 2^32, and the error is
kept. -/
def Obligations.SvcEncPidAccumulates : Prop :=
  ∀ s : State, s.encDue = true → s.mode = .normal →
    ∃ t, exec .svcEnc s = .next t ∧
      ∀ (a : Nat) (x : Axis), s.axes[a]? = some x → x.pidTgt ≠ 0 →
        ∃ y, t.axes[a]? = some y ∧
          let g := s.axisCfg a
          let meas : Word :=
            if s.params.encPolicy = .inc ∧ x.pidTgt.toInt < 0 then -y.encSpeed else y.encSpeed
          let e : Word := x.pidTgt - meas
          let d : Word := e - x.pidLast
          y.pidLast = e ∧
          y.pidInt = x.pidInt +
            BitVec.ofInt 32 (Int.tdiv (Int.fdiv (g.ki.toInt * e.toInt) (2 ^ s.params.sfrac)) s.params.intDiv) ∧
          y.pidOut = x.pidOut + BitVec.ofInt 32 (Int.fdiv (g.kp.toInt * e.toInt) (2 ^ s.params.sfrac)) +
            y.pidInt + BitVec.ofInt 32 (Int.fdiv (g.kd.toInt * d.toInt) (2 ^ s.params.sfrac)) ∧
          y.pidTgt = x.pidTgt

/-- R256-R258: with a nonzero target MOTOR_CMD is the blend of the new output with the target, as integer
percent rounded down, clamped to ±100, and negated where REV is 1. The values written go out, axis by axis (R282,
R468; the place of that history, `motorOut`, is the model's choice, log 23). -/
def Obligations.SvcEncCommandsTheMotor : Prop :=
  ∀ s : State, s.encDue = true → s.mode = .normal →
    ∃ t, exec .svcEnc s = .next t ∧
      t.motorOut = s.motorOut ++ t.axes.mapIdx (fun a y => (a, y.motorCmd)) ∧
      ∀ (a : Nat) (x : Axis), s.axes[a]? = some x → x.pidTgt ≠ 0 →
        ∃ y, t.axes[a]? = some y ∧
          let g := s.axisCfg a
          let blend := Int.fdiv (y.pidOut.toInt * g.blend.toNat + x.pidTgt.toInt * (256 - g.blend.toNat)) 256
          let m := max (-100) (min 100 (Int.fdiv blend (2 ^ s.params.sfrac)))
          y.motorCmd.toInt = if g.rev = 1 then -m else m

/-- R283 and the frame of SVC.ENC: at most one byte leaves SER_RXQ, 0x55 enters CONFIG mode with CFG_EDIT a copy
of CFG, any other byte is discarded, and nothing is emitted; besides, only ENC_DUE, the axes and the history of motor
commands change, and of an axis neither ENC_PREV, ENC_PV nor PID_TGT. -/
def Obligations.SvcEncChecksTheHandshake : Prop :=
  ∀ s : State, s.encDue = true → s.mode = .normal →
    ∃ t, exec .svcEnc s = .next t ∧
      t = { s with encDue := false, axes := t.axes, motorOut := t.motorOut, serRxq := s.serRxq.tail,
                   mode := if s.serRxq.head? = some 0x55 then .config else .normal,
                   cfgEdit := if s.serRxq.head? = some 0x55 then s.cfg else s.cfgEdit } ∧
      ∀ (a : Nat) (x : Axis), s.axes[a]? = some x →
        ∃ y, t.axes[a]? = some y ∧ y.encPrev = x.encPrev ∧ y.encPv = x.encPv ∧ y.pidTgt = x.pidTgt

/-! ## RX -/

/-- R180: the first sample after reset only loads the previous port value. -/
def Obligations.RxFirstSampleLoads : Prop :=
  ∀ (port : Byte) (s : State), s.rxPv = false →
    exec (.rx port) s = .next { s with rxPrev := port, rxPv := true }

/-- R181, R182, R184: in SEQ mode only the monitored bit counts for the current channel. A rise takes its start;
a fall completes its pair, advances RX_MUX cyclically, and takes the start of the next channel where its bit
rises in the same port value; otherwise only RX_PREV changes. -/
def Obligations.RxSequentialEdges : Prop :=
  ∀ (port : Byte) (s : State) (x : Channel),
    s.rxPv = true → s.params.rxMode = .seq → s.rxMux < s.params.nch → s.chans.length = s.params.nch →
    s.chans[s.rxMux]? = some x →
    let old := s.rxPrev
    let b := s.params.chBitOf s.rxMux
    let c2 := (s.rxMux + 1) % s.params.nch
    let b2 := s.params.chBitOf c2
    (old.getLsbD b = false → port.getLsbD b = true →
      exec (.rx port) s = .next
        { s with rxPrev := port, chans := s.chans.set s.rxMux { x with rxStart := s.now } }) ∧
    (old.getLsbD b = true → port.getLsbD b = false →
      ∃ t, exec (.rx port) s = .next t ∧
        t.chans[s.rxMux]? = some { x with rxEnd := s.now, rxUpd := true } ∧
        (∀ y, c2 ≠ s.rxMux → s.chans[c2]? = some y →
          t.chans[c2]? = some (if old.getLsbD b2 = false ∧ port.getLsbD b2 = true then
            { y with rxStart := s.now } else y)) ∧
        (∀ c, c ≠ s.rxMux → c ≠ c2 → t.chans[c]? = s.chans[c]?) ∧
        t = { s with chans := t.chans, rxPrev := port, rxMux := c2, lastPair := s.now, lost := false,
                     rxDue := s.rxDue || decide (s.rxMux + 1 = s.params.nch) }) ∧
    (old.getLsbD b = port.getLsbD b → exec (.rx port) s = .next { s with rxPrev := port })

/-- R183, R184: in PAR mode every channel whose bit changed takes its edge at the same NOW: a rise its start, a
fall its end with RX_UPD set; any fall sets LAST_PAIR and clears LOST, and a fall of the last channel sets
RX_DUE; RX_MUX is not used. -/
def Obligations.RxParallelEdges : Prop :=
  ∀ (port : Byte) (s : State),
    s.rxPv = true → s.params.rxMode = .par → s.chans.length = s.params.nch →
    let rise := fun c => !s.rxPrev.getLsbD (s.params.chBitOf c) && port.getLsbD (s.params.chBitOf c)
    let fall := fun c => s.rxPrev.getLsbD (s.params.chBitOf c) && !port.getLsbD (s.params.chBitOf c)
    let anyFall := (List.range s.params.nch).any fall
    ∃ t, exec (.rx port) s = .next t ∧
      (∀ (c : Nat) (x : Channel), s.chans[c]? = some x →
        t.chans[c]? = some (if rise c then { x with rxStart := s.now }
          else if fall c then { x with rxEnd := s.now, rxUpd := true } else x)) ∧
      t.chans.length = s.chans.length ∧
      t = { s with chans := t.chans, rxPrev := port,
                   lastPair := if anyFall then s.now else s.lastPair,
                   lost := if anyFall then false else s.lost,
                   rxDue := s.rxDue || (List.range s.params.nch).any (fun c => decide (c + 1 = s.params.nch) && fall c) }

/-- R186: the width of a pulse of true length d is d modulo 2^TB, so it is d where d < 2^TB, wherever it starts and
whether or not the counter wraps between its edges. -/
def Obligations.PulseWidthSurvivesWrap : Prop :=
  ∀ (p : Params) (start d : Nat) (x : Channel),
    start < 2 ^ p.tb → x.rxStart = start → x.rxEnd = (start + d) % 2 ^ p.tb →
    x.width p = d % 2 ^ p.tb ∧ (d < 2 ^ p.tb → x.width p = d)

/-- A pulse presented to the monitored channel in SEQ mode (R116's PULSE, R181, R185, R186) leaves an edge record
of that many ticks modulo 2^TB, marked updated, and the next channel monitored. -/
def Obligations.PulseIsTimedInTicks : Prop :=
  ∀ (s : State) (w : Nat),
    s.params.legal = true → TimerInv s → 1 ≤ w → s.rxPv = true → s.params.rxMode = .seq →
    s.rxMux < s.params.nch → s.chans.length = s.params.nch →
    s.rxPrev.getLsbD (s.params.chBitOf s.rxMux) = false →
    ∃ t y, performAll (pulseOps s.rxPrev (s.params.chBitOf s.rxMux) w) s = .next t ∧
      t.chans[s.rxMux]? = some y ∧ y.rxUpd = true ∧ y.width s.params = w % 2 ^ s.params.tb ∧
      t.rxMux = (s.rxMux + 1) % s.params.nch ∧ t.lost = false ∧ t.lastPair = t.now

/-! ## Ring buffer and median -/

/-- R189: after any sequence of insertions and ring resets from a reset ring, the order is a permutation of
0..RX_N-1 along which the readings do not decrease. -/
def Obligations.RingOrderSurvivesInsertions : Prop :=
  ∀ (x : Channel) (n : Nat) (events : List (Option Tick)), 0 < n →
    (events.foldl (fun y e => match e with | some v => y.insert n v | none => y.resetRing n)
      (x.resetRing n)).RingOk n

/-- R44, R46: RX_N insertions into an ordered ring leave exactly those readings in it. -/
def Obligations.RingHoldsTheLastReadings : Prop :=
  ∀ (x : Channel) (n : Nat) (vs : List Tick), x.RingOk n → vs.length = n →
    (vs.foldl (fun y v => y.insert n v) x).ringVal.Perm vs

/-- R190: in an ordered ring MEDIAN is the reading at the middle of the sorted readings, the upper of the two
middle ones for even RX_N, and it is 0 exactly when at least RX_N div 2 + 1 slots hold 0. -/
def Obligations.MedianIsTheMiddleReading : Prop :=
  ∀ (x : Channel) (n : Nat), x.RingOk n →
    (x.ringVal.mergeSort (fun a b => decide (a ≤ b)))[n / 2]? = some (x.median n) ∧
    (x.median n = 0 ↔ n / 2 + 1 ≤ x.ringVal.count 0)

/-! ## SVC.RX -/

/-- R185, R187: before the loss limit, a receiver frame clears RX_DUE and inserts the width of every updated
edge record over the oldest reading of its ring, clearing the record's flag and end; a channel without new data
keeps its record and ring, and an ordered ring stays ordered. In the order of an ordered ring the other slots keep
their sequence, and the slot written stays where it stood among readings equal to the new one, else moves to the
nearest place that is in order: both comparisons of R187 are strict. -/
def Obligations.SvcRxDrainsTheRecords : Prop :=
  ∀ s : State, s.rxDue = true → s.mode = .normal → s.params.legal = true →
    s.elapsed s.lastPair ≤ s.params.lossT + s.params.fadeF →
    ∃ t, exec .svcRx s = .next t ∧ t.rxDue = false ∧ t.chans.length = s.chans.length ∧
      t.rxMux = s.rxMux ∧ t.lost = s.lost ∧
      ∀ (c : Nat) (x : Channel), s.chans[c]? = some x →
        ∃ y, t.chans[c]? = some y ∧ y.rxStart = x.rxStart ∧ y.rxUpd = false ∧
          (x.rxUpd = false →
            y.rxEnd = x.rxEnd ∧ y.ringVal = x.ringVal ∧ y.ringOrd = x.ringOrd ∧ y.ringHead = x.ringHead) ∧
          (x.rxUpd = true →
            y.rxEnd = 0 ∧ y.ringHead = (x.ringHead + 1) % s.params.rxN ∧
            y.ringVal = x.ringVal.set x.ringHead
              ((((x.rxEnd : Int) - x.rxStart) % 2 ^ s.params.tb).toNat)) ∧
          (x.RingOk s.params.rxN → y.RingOk s.params.rxN) ∧
          (x.RingOk s.params.rxN → x.rxUpd = true →
            let v := (((x.rxEnd : Int) - x.rxStart) % 2 ^ s.params.tb).toNat
            let others := x.ringOrd.erase x.ringHead
            let below := others.countP (fun k => decide (x.ringVal.getD k 0 < v))
            let upTo := others.countP (fun k => decide (x.ringVal.getD k 0 ≤ v))
            let place := max below (min upTo (x.ringOrd.idxOf x.ringHead))
            y.ringOrd = others.take place ++ x.ringHead :: others.drop place)

/-- R220-R226: before the loss limit, RX_COND of a channel is the median after the drain mapped linearly onto
±RANGE and clamped (0 for a median of 0 and for a degenerate calibration), unchanged up to LOSS_T ticks after
the last pair and then faded linearly. -/
def Obligations.SvcRxConditionsTheMedian : Prop :=
  ∀ s : State, s.rxDue = true → s.mode = .normal → s.params.legal = true →
    s.elapsed s.lastPair ≤ s.params.lossT + s.params.fadeF →
    ∃ t, exec .svcRx s = .next t ∧
      ∀ (c : Nat) (x : Channel), s.chans[c]? = some x →
        ∃ y, t.chans[c]? = some y ∧
          let m : Int := y.ringVal.getD (y.ringOrd.getD (s.params.rxN / 2) 0) 0
          let lo : Int := s.params.calMinOf c
          let hi : Int := s.params.calMaxOf c
          let r : Int := s.params.range
          let v : Int :=
            if m = 0 then 0 else if hi = lo then 0
            else max (-r) (min r (Int.tdiv ((m - lo) * 2 * r) (hi - lo) - r))
          y.rxCond.toInt =
            if s.elapsed s.lastPair ≤ s.params.lossT then v
            else Int.tdiv (v * (s.params.lossT + s.params.fadeF - s.elapsed s.lastPair)) s.params.fadeF

/-- R226, R227: beyond LOSS_T + FADE_F ticks since the last pair, a receiver frame clears every ring and edge
record, RX_MUX and RX_COND, and sets LOST; LAST_PAIR, RX_PREV and RX_PV stay; every target becomes 0. -/
def Obligations.SvcRxLossResetsTheChannels : Prop :=
  ∀ s : State, s.rxDue = true → s.mode = .normal → s.params.legal = true →
    s.params.lossT + s.params.fadeF < s.elapsed s.lastPair →
    ∃ t, exec .svcRx s = .next t ∧ t.chans = List.replicate s.chans.length (Channel.initial s.params) ∧
      t.rxMux = 0 ∧ t.lost = true ∧ t.lastPair = s.lastPair ∧ t.rxPrev = s.rxPrev ∧ t.rxPv = s.rxPv ∧
      t.axes = s.axes.map fun x => { x with pidTgt := 0 }

/-- R229 and the frame of SVC.RX: the target of an axis is RX_COND of its channel in Q(S), exactly; of an axis
nothing else changes; of the rest of the state only RX_DUE, the channels, RX_MUX and LOST can change. -/
def Obligations.SvcRxRetargetsTheAxes : Prop :=
  ∀ s : State, s.rxDue = true → s.mode = .normal → s.params.legal = true →
    ∃ t, exec .svcRx s = .next t ∧
      t = { s with rxDue := false, chans := t.chans, axes := t.axes, rxMux := t.rxMux, lost := t.lost } ∧
      t.axes.length = s.axes.length ∧
      ∀ (a : Nat) (x : Axis) (y : Channel), s.axes[a]? = some x → t.chans[s.params.axChOf a]? = some y →
        ∃ z : Word, z.toInt = y.rxCond.toInt * 2 ^ s.params.sfrac ∧
          t.axes[a]? = some { x with pidTgt := z }

/-! ## Configuration port -/

/-- R310: a byte is queued with its time where the FIFO has room, and dropped where it has none. -/
def Obligations.SerQueuesOrDropsTheByte : Prop :=
  ∀ (b : Byte) (s : State),
    (s.serRxq.length < s.params.serFifoCap →
      exec (.ser b) s = .next { s with serRxq := s.serRxq ++ [b], serLast := s.now }) ∧
    (s.params.serFifoCap ≤ s.serRxq.length → exec (.ser b) s = .next s)

/-- R313's errors before a command is known, in its order: a length byte of 0 is answered 0xE0 and one above 5
0xE4, each consuming one byte; an incomplete request whose timeout has expired empties the queue and is answered
0xE5; a complete request whose opcode byte is neither 0x00-0x0F, 0x30-0x3F nor 0xFF is consumed and answered
0xE0. -/
def Obligations.SvcCfgReportsFramingErrors : Prop :=
  ∀ (s : State) (l : Byte) (rest : List Byte), s.mode = .config → s.serRxq = l :: rest →
    (l = 0 → exec .svcCfg s = .next { s with serRxq := rest, serTx := s.serTx ++ [0xE0] }) ∧
    (5 < l.toNat → exec .svcCfg s = .next { s with serRxq := rest, serTx := s.serTx ++ [0xE4] }) ∧
    (1 ≤ l.toNat → l.toNat ≤ 5 → rest.length < l.toNat →
      s.params.serTimeout ≤ s.elapsed s.serLast →
      exec .svcCfg s = .next { s with serRxq := [], serTx := s.serTx ++ [0xE5] }) ∧
    (∀ (op : Byte) (v tail : List Byte), rest = op :: v ++ tail → l.toNat = 1 + v.length → l.toNat ≤ 5 →
      ¬(op.toNat < 0x10 ∨ (0x30 ≤ op.toNat ∧ op.toNat < 0x40) ∨ op.toNat = 0xFF) →
      exec .svcCfg s = .next { s with serRxq := tail, serTx := s.serTx ++ [0xE0] })

/-- R312, R313: where SVC.CFG is enabled it completes: it consumes at least one byte, emits at least one, and
changes nothing but SER_RXQ, SER_TX, CFG_EDIT, and, for a FINISH, NV_COPY and MODE. -/
def Obligations.SvcCfgAnswersTheRequest : Prop :=
  ∀ (s : State) (l : Byte) (rest : List Byte), s.mode = .config → s.serRxq = l :: rest →
    (l.toNat = 0 ∨ 5 < l.toNat ∨ l.toNat ≤ rest.length ∨ s.params.serTimeout ≤ s.elapsed s.serLast) →
    ∃ t resp, exec .svcCfg s = .next t ∧ resp ≠ [] ∧ t.serTx = s.serTx ++ resp ∧
      t.serRxq <:+ rest ∧
      t = { s with serRxq := t.serRxq, serTx := t.serTx, cfgEdit := t.cfgEdit, nv := t.nv, mode := t.mode } ∧
      (t.mode = .config → t.nv = s.nv) ∧
      (t.mode = .config ∨ (t.mode = .finished ∧ t.cfgEdit = s.cfgEdit))

/-- R314, R112: READ answers ACK and the field's value, little-endian in size(f) bytes, and changes nothing. -/
def Obligations.ReadAnswersTheField : Prop :=
  ∀ (s : State) (id : BitVec 4) (f : Field), s.mode = .config →
    Field.ofNum (id.extractLsb' 0 3).toNat = some f → (id.extractLsb' 3 1).toNat < s.params.nax →
    ∃ bs, exec (.reqRead id []) s = .next { s with serTx := s.serTx ++ 0xAC :: bs } ∧
      bs.length = f.size ∧ leNat bs = (s.cfgEdit.field (id.extractLsb' 3 1).toNat f).toNat

/-- R315: a WRITE of a legal value of the right length sets that field of CFG_EDIT, leaves every other field, and
answers ACK; CFG is not changed. -/
def Obligations.WriteSetsTheEditedField : Prop :=
  ∀ (s : State) (id : BitVec 4) (v : List Byte) (f : Field), s.mode = .config → ConfigInv s →
    Field.ofNum (id.extractLsb' 0 3).toNat = some f → (id.extractLsb' 3 1).toNat < s.params.nax →
    v.length = f.size → f.legal s.params.wCap (leValue v) = true →
    ∃ r, exec (.reqWrite id v) s = .next { s with cfgEdit := r, serTx := s.serTx ++ [0xAC] } ∧
      r.length = s.cfgEdit.length ∧ r.field (id.extractLsb' 3 1).toNat f = leValue v ∧
      ∀ a f', (a ≠ (id.extractLsb' 3 1).toNat ∨ f' ≠ f) → r.field a f' = s.cfgEdit.field a f'

/-- R318: a WRITE whose value is outside the field's legal set is answered 0xE3 and changes nothing else. -/
def Obligations.WriteRefusesIllegalValues : Prop :=
  ∀ (s : State) (id : BitVec 4) (v : List Byte) (f : Field), s.mode = .config →
    Field.ofNum (id.extractLsb' 0 3).toNat = some f → (id.extractLsb' 3 1).toNat < s.params.nax →
    v.length = f.size →
    ((f = .blend ∧ 255 < leNat v) ∨ (f = .ewin ∧ (leNat v < 5 ∨ s.params.wCap < leNat v)) ∨
      ((f = .rev ∨ f = .calm) ∧ 1 < leNat v)) →
    exec (.reqWrite id v) s = .next { s with serTx := s.serTx ++ [0xE3] }

/-- R401, R313: a request of a legal length (at most four value bytes, R108): READ and WRITE of an id with field 7 or
axis ≥ NAX are answered 0xE1 whatever their length; of a valid id with the wrong length, and FINISH with value bytes,
0xE2. Nothing else changes. -/
def Obligations.RequestsReportBadIdsAndLengths : Prop :=
  ∀ (s : State) (id : BitVec 4) (v : List Byte), s.mode = .config → v.length ≤ 4 →
    (((id.extractLsb' 0 3).toNat = 7 ∨ s.params.nax ≤ (id.extractLsb' 3 1).toNat) →
      exec (.reqRead id v) s = .next { s with serTx := s.serTx ++ [0xE1] } ∧
      exec (.reqWrite id v) s = .next { s with serTx := s.serTx ++ [0xE1] }) ∧
    (∀ f, Field.ofNum (id.extractLsb' 0 3).toNat = some f → (id.extractLsb' 3 1).toNat < s.params.nax →
      (v ≠ [] → exec (.reqRead id v) s = .next { s with serTx := s.serTx ++ [0xE2] }) ∧
      (v.length ≠ f.size → exec (.reqWrite id v) s = .next { s with serTx := s.serTx ++ [0xE2] })) ∧
    (v ≠ [] → exec (.reqFinish v) s = .next { s with serTx := s.serTx ++ [0xE2] })

/-- A WRITE of a legal value followed at once by a READ of the same id answers ACK, ACK and the value's bytes: from
R111, R313, R314 and R315. R319 says it of a READ at any later time before a reset. -/
def Obligations.WriteThenReadReturnsTheValue : Prop :=
  ∀ (s : State) (id : BitVec 4) (v : List Byte) (f : Field), s.mode = .config → ConfigInv s →
    Field.ofNum (id.extractLsb' 0 3).toNat = some f → (id.extractLsb' 3 1).toNat < s.params.nax →
    v.length = f.size → f.legal s.params.wCap (leValue v) = true →
    ∃ t, performAll [.reqWrite id v, .reqRead id []] s = .next t ∧
      t.serTx = s.serTx ++ 0xAC :: 0xAC :: v

/-- R316, R323: FINISH answers ACK, writes CFG_EDIT to all three copies, valid, and enters FINISHED mode. -/
def Obligations.FinishPersistsTheEdit : Prop :=
  ∀ s : State, s.mode = .config →
    exec (.reqFinish []) s = .next
      { s with
        serTx := s.serTx ++ [0xAC]
        nv := { copy0 := { record := s.cfgEdit, valid := true }, copy1 := { record := s.cfgEdit, valid := true },
                copy2 := { record := s.cfgEdit, valid := true } }
        mode := .finished }

/-- The effect of the handshake byte in NORMAL mode (R283, R113); that it stops outside NORMAL mode is the model's
choice (log 7). -/
def Obligations.HandshakeEntersConfig : Prop :=
  ∀ s : State,
    (s.mode = .normal → exec .handshake s = .next { s with mode := .config, cfgEdit := s.cfg }) ∧
    (s.mode ≠ .normal → exec .handshake s = .fault .handshakeOutsideNormal)

/-! ## Host access and reset -/

/-- R360, R89: RDREG returns the register and changes nothing else; a second read of the same address returns the
same value (the place of the result, `hostOut`, is the model's, log 5). SER_LEVEL reads the length of SER_RXQ; for
2^32 bytes or more, where the spec is silent, the length modulo 2^32 is the model's choice (log 21). -/
def Obligations.RdregReturnsTheRegister : Prop :=
  ∀ (addr : BitVec 12) (s : State),
    exec (.rdreg addr) s = .next { s with hostOut := s.hostOut ++ [s.memRead addr] } ∧
    performAll [.rdreg addr, .rdreg addr] s =
      .next { s with hostOut := s.hostOut ++ [s.memRead addr, s.memRead addr] } ∧
    s.memRead 0x003 = BitVec.ofNat 32 s.serRxq.length

/-- R82: STATUS shows the flags, MODE, LOST, RX_MUX and RX_UPD in their places and 0 elsewhere; TIME, LAST_PAIR and
SER_LEVEL read the tick, the last pair and the length of SER_RXQ where 32 bits hold it. -/
def Obligations.GlobalRegistersRead : Prop :=
  ∀ s : State, s.rxMux < 8 → s.chans.length ≤ 8 →
    (s.memRead 0x000).getLsbD 0 = s.encDue ∧ (s.memRead 0x000).getLsbD 1 = s.rxDue ∧
    (s.memRead 0x000).extractLsb' 2 2 =
      (match s.mode with | .normal => 0#2 | .config => 1#2 | .finished => 2#2) ∧
    (s.memRead 0x000).getLsbD 4 = s.lost ∧ ((s.memRead 0x000).extractLsb' 8 3).toNat = s.rxMux ∧
    (∀ c x, s.chans[c]? = some x → (s.memRead 0x000).getLsbD (16 + c) = x.rxUpd) ∧
    (∀ c, s.chans.length ≤ c → c < 8 → (s.memRead 0x000).getLsbD (16 + c) = false) ∧
    (∀ j ∈ [5, 6, 7, 11, 12, 13, 14, 15, 24, 25, 26, 27, 28, 29, 30, 31],
      (s.memRead 0x000).getLsbD j = false) ∧
    s.memRead 0x001 = BitVec.ofNat 32 (s.ovf * 2 ^ s.params.cb + s.cnt) ∧
    s.memRead 0x002 = BitVec.ofNat 32 s.lastPair ∧
    (s.serRxq.length < 2 ^ 32 → (s.memRead 0x003).toNat = s.serRxq.length)

/-- R83: the encoder and PID registers of an axis. -/
def Obligations.AxisRegistersRead : Prop :=
  ∀ (s : State) (a : Nat) (x : Axis), a < 4 → s.axes[a]? = some x →
    s.memRead (BitVec.ofNat 12 (0x010 + a)) = x.encCount.signExtend 32 ∧
    s.memRead (BitVec.ofNat 12 (0x014 + a)) = x.encSum ∧
    s.memRead (BitVec.ofNat 12 (0x018 + a)) = x.encSpeed ∧
    s.memRead (BitVec.ofNat 12 (0x01C + a)) = BitVec.ofNat 32 x.encIdx ∧
    s.memRead (BitVec.ofNat 12 (0x040 + a)) = x.pidOut ∧
    s.memRead (BitVec.ofNat 12 (0x044 + a)) = x.pidInt ∧
    s.memRead (BitVec.ofNat 12 (0x048 + a)) = x.pidLast ∧
    s.memRead (BitVec.ofNat 12 (0x04C + a)) = x.pidTgt ∧
    s.memRead (BitVec.ofNat 12 (0x050 + a)) = x.motorCmd.signExtend 32 ∧
    ∀ k v, k < 32 → x.encWin[k]? = some v →
      s.memRead (BitVec.ofNat 12 (0x100 + 0x20 * a + k)) = v.signExtend 32

/-- R84: the receiver and conditioner registers of a channel. -/
def Obligations.ChannelRegistersRead : Prop :=
  ∀ (s : State) (c : Nat) (x : Channel), c < 8 → s.chans[c]? = some x →
    s.memRead (BitVec.ofNat 12 (0x020 + c)) = BitVec.ofNat 32 x.rxStart ∧
    s.memRead (BitVec.ofNat 12 (0x028 + c)) = BitVec.ofNat 32 x.rxEnd ∧
    s.memRead (BitVec.ofNat 12 (0x030 + c)) = BitVec.ofNat 32 (x.median s.params.rxN) ∧
    s.memRead (BitVec.ofNat 12 (0x038 + c)) = x.rxCond.signExtend 32 ∧
    s.memRead (BitVec.ofNat 12 (0x0A0 + c)) = BitVec.ofNat 32 x.ringHead ∧
    (∀ k v, k < 32 → x.ringVal[k]? = some v →
      s.memRead (BitVec.ofNat 12 (0x200 + 0x40 * c + k)) = BitVec.ofNat 32 v) ∧
    ∀ k v, k < 32 → x.ringOrd[k]? = some v →
      s.memRead (BitVec.ofNat 12 (0x220 + 0x40 * c + k)) = BitVec.ofNat 32 v

/-- R85: the configuration registers of an axis: CFG, CFG_EDIT and the three persisted copies with their valid
bits; field number 7 of each reads 0. -/
def Obligations.ConfigRegistersRead : Prop :=
  ∀ (s : State) (a : Nat), a < 4 → a < s.params.nax →
    (∀ n f, Field.ofNum n = some f →
      s.memRead (BitVec.ofNat 12 (0x060 + 8 * a + n)) = s.cfg.field a f ∧
      s.memRead (BitVec.ofNat 12 (0x080 + 8 * a + n)) = s.cfgEdit.field a f ∧
      s.memRead (BitVec.ofNat 12 (0x400 + 8 * a + n)) = s.nv.copy0.record.field a f ∧
      s.memRead (BitVec.ofNat 12 (0x440 + 8 * a + n)) = s.nv.copy1.record.field a f ∧
      s.memRead (BitVec.ofNat 12 (0x480 + 8 * a + n)) = s.nv.copy2.record.field a f) ∧
    s.memRead (BitVec.ofNat 12 (0x060 + 8 * a + 7)) = 0 ∧ s.memRead (BitVec.ofNat 12 (0x080 + 8 * a + 7)) = 0 ∧
    (∀ k < 3, s.memRead (BitVec.ofNat 12 (0x400 + 0x40 * k + 8 * a + 7)) = 0) ∧
    s.memRead 0x43F = (if s.nv.copy0.valid then 1 else 0) ∧
    s.memRead 0x47F = (if s.nv.copy1.valid then 1 else 0) ∧
    s.memRead 0x4BF = (if s.nv.copy2.valid then 1 else 0)

/-- R86: an address that names no register, or whose axis, channel, window slot or ring slot is out of range, reads
0. -/
def Obligations.UnnamedAddressesReadZero : Prop :=
  ∀ (s : State) (n : Nat), n < 0x1000 →
    ((0x004 ≤ n ∧ n < 0x010) ∨ (0x054 ≤ n ∧ n < 0x060) ∨ (0x0A8 ≤ n ∧ n < 0x100) ∨ (0x180 ≤ n ∧ n < 0x200) ∨
      0x4C0 ≤ n ∨
      (∃ a, s.axes.length ≤ a ∧ a < 4 ∧
        (n = 0x010 + a ∨ n = 0x014 + a ∨ n = 0x018 + a ∨ n = 0x01C + a ∨ n = 0x040 + a ∨ n = 0x044 + a ∨
          n = 0x048 + a ∨ n = 0x04C + a ∨ n = 0x050 + a ∨ ∃ k < 32, n = 0x100 + 0x20 * a + k)) ∨
      (∃ a, s.params.nax ≤ a ∧ a < 4 ∧ ∃ f < 8, (n = 0x060 + 8 * a + f ∨ n = 0x080 + 8 * a + f)) ∨
      (∃ k < 3, ∃ j < 0x3F, (s.params.nax ≤ j / 8 ∨ j % 8 = 7) ∧ n = 0x400 + 0x40 * k + j) ∨
      (∃ c, s.chans.length ≤ c ∧ c < 8 ∧
        (n = 0x020 + c ∨ n = 0x028 + c ∨ n = 0x030 + c ∨ n = 0x038 + c ∨ n = 0x0A0 + c ∨
          ∃ k < 0x40, n = 0x200 + 0x40 * c + k)) ∨
      (∃ a x k, a < 4 ∧ s.axes[a]? = some x ∧ x.encWin.length ≤ k ∧ k < 32 ∧ n = 0x100 + 0x20 * a + k) ∨
      (∃ c x k, c < 8 ∧ s.chans[c]? = some x ∧ k < 32 ∧
        ((x.ringVal.length ≤ k ∧ n = 0x200 + 0x40 * c + k) ∨
          (x.ringOrd.length ≤ k ∧ n = 0x220 + 0x40 * c + k)))) →
    s.memRead (BitVec.ofNat 12 n) = 0

/-- R361: NVFAULT makes one copy invalid, keeping its record; the other copies and the rest of the state stay. -/
def Obligations.NvfaultInvalidatesOneCopy : Prop :=
  ∀ (k : BitVec 2) (s : State), k ≠ 3 →
    exec (.nvfault k) s = .next
      { s with
        nv := { copy0 := { record := s.nv.copy0.record, valid := s.nv.copy0.valid && decide (k ≠ 0) }
                copy1 := { record := s.nv.copy1.record, valid := s.nv.copy1.valid && decide (k ≠ 1) }
                copy2 := { record := s.nv.copy2.record, valid := s.nv.copy2.valid && decide (k ≠ 2) } } }

/-- R451: RESET gives every element its reset value and loads CFG and CFG_EDIT from the persisted copies; NV_COPY
and SER_TX are not changed. The clauses on the model's own fields are the model's choice: the parameters (log 1), the
presented sequence (log 4) and the host's results (log 5) stay, and the motor commands of 0 are added to the history
(log 23). So is what `loadConfig` gives axes 2 and 3, on which
R317 and R322 clash (log 25). -/
def Obligations.ResetGivesResetValues : Prop :=
  ∀ s : State, ∃ t, exec .reset s = .next t ∧
    t.cnt = 0 ∧ t.ovf = 0 ∧ t.encPre = 0 ∧ t.rxPre = 0 ∧ t.encDue = false ∧ t.rxDue = false ∧
    t.cfg = loadConfig s.params s.nv ∧ t.cfgEdit = t.cfg ∧
    t.axes.length = s.params.nax ∧
    (∀ x ∈ t.axes, x.encPrev = 0 ∧ x.encPv = false ∧ x.encCount = 0 ∧ x.encWin = List.replicate s.params.wCap 0 ∧
      x.encSum = 0 ∧ x.encIdx = 0 ∧ x.encSpeed = 0 ∧ x.pidOut = 0 ∧ x.pidInt = 0 ∧ x.pidLast = 0 ∧ x.pidTgt = 0 ∧
      x.motorCmd = 0) ∧
    t.rxPrev = 0 ∧ t.rxPv = false ∧ t.rxMux = 0 ∧ t.chans.length = s.params.nch ∧
    (∀ x ∈ t.chans, x.rxStart = 0 ∧ x.rxEnd = 0 ∧ x.rxUpd = false ∧ x.ringVal = List.replicate s.params.rxN 0 ∧
      x.ringOrd = List.range s.params.rxN ∧ x.ringHead = 0 ∧ x.rxCond = 0) ∧
    t.lastPair = 0 ∧ t.lost = true ∧ t.serRxq = [] ∧ t.serLast = 0 ∧ t.mode = .normal ∧
    t.nv = s.nv ∧ t.serTx = s.serTx ∧ t.params = s.params ∧ t.hostOut = s.hostOut ∧ t.pending = s.pending ∧
    t.motorOut = s.motorOut ++ (List.range s.params.nax).map (fun a => (a, 0))

/-- R321, R322: CFG takes, for every axis and field, the vote of the three copies (an invalid one counting as 0) with
DEFAULT_CFG where no two agree, and DEFAULT_CFG where the vote is illegal; so it is legal; and CFG_EDIT is CFG. Axes 2
and 3 take this vote or, as R317 says, DEFAULT_CFG: that a free value decides is the model's choice (log 25), and the
statement holds for either. -/
def Obligations.ResetLoadsTheVote : Prop :=
  ∀ s : State, s.params.legal = true → ∃ t, exec .reset s = .next t ∧
    Record.legal s.params.nax s.params.wCap t.cfg = true ∧ t.cfgEdit = t.cfg ∧
    ∀ (a : Nat) (f : Field), a < s.params.nax →
      let x := if s.nv.copy0.valid then s.nv.copy0.record.field a f else 0
      let y := if s.nv.copy1.valid then s.nv.copy1.record.field a f else 0
      let z := if s.nv.copy2.valid then s.nv.copy2.record.field a f else 0
      let d := s.params.defaultCfg.field a f
      let v := if x = y then x else if x = z then x else if y = z then y else d
      t.cfg.field a f =
        if 2 ≤ a ∧ Config.idlessByDefault = true then d else if f.legal s.params.wCap v = true then v else d

/-- From R316, R322, R323, R361: after FINISH, one copy may fail and the next reset still loads the record that
was edited. Axes 2 and 3 may be those of DEFAULT_CFG instead (R317): that a free value decides is the model's choice
(log 25). -/
def Obligations.FinishSurvivesOneBadCopy : Prop :=
  ∀ (s : State) (k : BitVec 2), s.params.legal = true → s.mode = .config → ConfigInv s → k ≠ 3 →
    ∃ t, performAll [.reqFinish [], .nvfault k, .reset] s = .next t ∧
      (s.params.nax ≤ 2 → t.cfg = s.cfgEdit) ∧ t.cfg.length = s.params.nax ∧
      (∀ a < s.params.nax, t.cfg.axis a =
        if 2 ≤ a ∧ Config.idlessByDefault = true then s.params.defaultCfg.axis a else s.cfgEdit.axis a) ∧
      t.cfgEdit = t.cfg ∧ t.mode = .normal ∧ t.serTx = s.serTx ++ [0xAC]

/-! ## What no operation does -/

/-- R406: the only changes of mode are the handshake (NORMAL to CONFIG), FINISH (CONFIG to FINISHED) and RESET (any
mode to NORMAL). -/
def Obligations.ModeChangesAreTheThree : Prop :=
  ∀ (s t : State) (i : Instr), exec i s = .next t → t.mode ≠ s.mode →
    (s.mode = .normal ∧ t.mode = .config ∧ (i = .handshake ∨ (i = .svcEnc ∧ s.serRxq.head? = some 0x55))) ∨
    (s.mode = .config ∧ t.mode = .finished ∧ (i = .reqFinish [] ∨ (i = .svcCfg ∧ s.serRxq.take 2 = [1, 0xFF]))) ∨
    (i = .reset ∧ t.mode = .normal)

/-- R33, R410: the edge timer and its prescalers are advanced only by TICK and cleared only by RESET; ENC_DUE is set
only by TICK and cleared only by SVC.ENC and RESET; RX_DUE is set only by TICK and RX, and cleared only by SVC.RX
and RESET. -/
def Obligations.TimerAndFlagsHaveTheirWriters : Prop :=
  ∀ (s t : State) (i : Instr), exec i s = .next t →
    ((t.cnt ≠ s.cnt ∨ t.ovf ≠ s.ovf ∨ t.encPre ≠ s.encPre ∨ t.rxPre ≠ s.rxPre) →
      (∃ k, i = .tick k) ∨ (i = .reset ∧ t.now = 0 ∧ t.encPre = 0 ∧ t.rxPre = 0)) ∧
    (s.encDue = false → t.encDue = true → ∃ k, i = .tick k) ∧
    (s.encDue = true → t.encDue = false → i = .svcEnc ∨ i = .reset) ∧
    (s.rxDue = false → t.rxDue = true → (∃ k, i = .tick k) ∨ ∃ p, i = .rx p) ∧
    (s.rxDue = true → t.rxDue = false → i = .svcRx ∨ i = .reset)

/-- R51, R52, R56: CFG is written only by reset; CFG_EDIT only by the handshake, a WRITE and reset; NV_COPY only by
FINISH and NVFAULT. R8 makes the parameters constants; that they stand in the state, where nothing writes them, is
the model's choice (log 1). -/
def Obligations.ConfigurationHasItsWriters : Prop :=
  ∀ (s t : State) (i : Instr), exec i s = .next t →
    t.params = s.params ∧
    (t.cfg ≠ s.cfg → i = .reset) ∧
    (t.cfgEdit ≠ s.cfgEdit →
      i = .reset ∨ i = .handshake ∨ i = .svcEnc ∨ i = .svcCfg ∨ ∃ id v, i = .reqWrite id v) ∧
    (t.nv ≠ s.nv → i = .svcCfg ∨ (∃ v, i = .reqFinish v) ∨ ∃ k, i = .nvfault k)

/-- R289: outside NORMAL mode no operation but RESET changes a motor command, a target or the PID state of an axis,
or clears a latched frame flag. -/
def Obligations.OutputsHoldOutsideNormal : Prop :=
  ∀ (s t : State) (i : Instr), s.mode ≠ .normal → i ≠ .reset → exec i s = .next t →
    (s.encDue = true → t.encDue = true) ∧ (s.rxDue = true → t.rxDue = true) ∧
    t.axes.map (fun x => (x.motorCmd, x.pidTgt, x.pidOut, x.pidInt, x.pidLast, x.encWin)) =
      s.axes.map (fun x => (x.motorCmd, x.pidTgt, x.pidOut, x.pidInt, x.pidLast, x.encWin))

/-- R55, R468: SER_TX is a history: no operation removes or changes a byte already emitted, and only SVC.CFG and the
serial requests emit. So is that of the MOTOR_CMD values written (log 23), to which only SVC.ENC and RESET add. The
result of a run is the state after its last operation together with what the run added to each. -/
def Obligations.TransmitHistoryOnlyGrows : Prop :=
  (∀ (s t : State) (i : Instr), exec i s = .next t →
    s.serTx <+: t.serTx ∧
    (t.serTx ≠ s.serTx →
      i = .svcCfg ∨ (∃ id v, i = .reqRead id v) ∨ (∃ id v, i = .reqWrite id v) ∨ ∃ v, i = .reqFinish v) ∧
    s.motorOut <+: t.motorOut ∧ (t.motorOut ≠ s.motorOut → i = .svcEnc ∨ i = .reset)) ∧
  ∀ (s t : State) (is : List Instr), performAll is s = .next t →
    ∃ r, run is s = .next r ∧ r.final = t ∧ t.serTx = s.serTx ++ r.emitted ∧
      t.motorOut = s.motorOut ++ r.motorWritten

/-! ## Invariants -/

/-- R37, R151: the running sum stays the exact sum of the window through every step, with the index in range and
the unused slots 0. -/
def Obligations.StepKeepsWindowInv : Prop :=
  ∀ s t : State, ConfigInv s → WindowInv s → step s = .next t → WindowInv t

/-- R45, R189: every ring's order stays a permutation along which the readings do not decrease, through every
step. -/
def Obligations.StepKeepsRingInv : Prop :=
  ∀ s t : State, RingInv s → step s = .next t → RingInv t

/-- All the invariants of the state together (R31, R32, R37, R38, R41-R50, R54) are kept by every step. -/
def Obligations.StepKeepsBlockInv : Prop :=
  ∀ s t : State, BlockInv s → step s = .next t → BlockInv t

/-- The state after the first reset of any block, whatever its persisted copies, has the invariants. -/
def Obligations.InitialStateHasBlockInv : Prop :=
  ∀ (p : Params) (nv : NvStore), p.legal = true → BlockInv (State.initial p nv)
end

