-- ==== Sys2Proof/Laws/Decode.lean ====
section
/-! SUPPORT. What the decoder and the encoder do to fields, frames and commands. -/

namespace Sys2Proof

/-! ## Fields -/

/-- The low field of two fields put together. -/
theorem extractLsb'_append_low {n m : Nat} (x : BitVec n) (y : BitVec m) : (x ++ y).extractLsb' 0 m = y := by
  ext i hi
  simp [BitVec.getLsbD_append, hi]

/-- The high field of two fields put together. -/
theorem extractLsb'_append_high {n m : Nat} (x : BitVec n) (y : BitVec m) : (x ++ y).extractLsb' m n = x := by
  ext i hi
  simp [BitVec.getLsbD_append, hi]

/-- An operation word is its KIND and its twelve operand bits. -/
theorem kindOf_append (w : OpWord) : kindOf w ++ w.extractLsb' 0 12 = w := by
  ext i hi
  rw [BitVec.getElem_append]
  split <;> simp [kindOf, *]
  rw [Nat.add_sub_cancel' (by omega)]
  exact BitVec.getLsbD_eq_getElem hi

/-- `requireZero` accepts exactly where the bits are zero and the inner operation is accepted. -/
theorem requireZero_ok {n : Nat} {z : BitVec n} {x : Except DecodeError Instr} {i : Instr} :
    requireZero z x = .ok i ↔ z = 0 ∧ x = .ok i := by
  unfold requireZero
  split
  · exact ⟨fun h => ⟨‹_›, h⟩, fun h => h.2⟩
  · rename_i hz
    constructor
    · intro h
      cases h
    · intro h
      exact absurd h.1 hz

/-- `requireZero` rejects by name. -/
theorem requireZero_ne {n : Nat} {z : BitVec n} {x : Except DecodeError Instr} (h : z ≠ 0) :
    requireZero z x = .error .mustBeZero := if_neg h

/-! ## Commands and frames -/

/-- Everything `decodeCommand` can answer (R109). -/
theorem decodeCommand_some {op : Byte} {v : List Byte} {r : Request} (h : decodeCommand op v = some r) :
    (op = 0xFF ∧ r = .finish v) ∨ (op.toNat < 0x10 ∧ r = .read (op.extractLsb' 0 4) v) ∨
      (0x30 ≤ op.toNat ∧ op.toNat < 0x40 ∧ r = .write (op.extractLsb' 0 4) v) := by
  have lo : ∀ op : Byte, op.extractLsb' 4 4 = 0x0#4 → op.toNat < 0x10 := by decide
  have hi : ∀ op : Byte, op.extractLsb' 4 4 = 0x3#4 → 0x30 ≤ op.toNat ∧ op.toNat < 0x40 := by decide
  unfold decodeCommand at h
  split at h
  · exact .inl ⟨‹_›, (Option.some.inj h).symm⟩
  · split at h
    · exact .inr (.inl ⟨lo op ‹_›, (Option.some.inj h).symm⟩)
    · split at h
      · exact .inr (.inr ⟨(hi op ‹_›).1, (hi op ‹_›).2, (Option.some.inj h).symm⟩)
      · cases h

/-- The opcode bytes that name no command (R109). -/
theorem decodeCommand_none {op : Byte} {v : List Byte}
    (h : ¬(op.toNat < 0x10 ∨ (0x30 ≤ op.toNat ∧ op.toNat < 0x40) ∨ op.toNat = 0xFF)) :
    decodeCommand op v = none := by
  have key : ∀ op : Byte, ¬(op.toNat < 0x10 ∨ (0x30 ≤ op.toNat ∧ op.toNat < 0x40) ∨ op.toNat = 0xFF) →
      op ≠ 0xFF ∧ op.extractLsb' 4 4 ≠ 0x0#4 ∧ op.extractLsb' 4 4 ≠ 0x3#4 := by decide
  obtain ⟨h1, h2, h3⟩ := key op h
  exact (if_neg h1).trans ((if_neg h2).trans (if_neg h3))

/-- The command of a READ's opcode byte. -/
theorem decodeCommand_read (id : BitVec 4) (v : List Byte) : decodeCommand (0x0#4 ++ id) v = some (.read id v) := by
  have key : ∀ id : BitVec 4, (0x0#4 ++ id) ≠ Config.finishByte ∧ (0x0#4 ++ id).extractLsb' 4 4 = 0x0#4 ∧
      (0x0#4 ++ id).extractLsb' 0 4 = id := by decide
  obtain ⟨h1, h2, h3⟩ := key id
  simp only [decodeCommand, h1, h2, h3, if_true, if_false]

/-- The command of a WRITE's opcode byte. -/
theorem decodeCommand_write (id : BitVec 4) (v : List Byte) :
    decodeCommand (0x3#4 ++ id) v = some (.write id v) := by
  have key : ∀ id : BitVec 4, (0x3#4 ++ id) ≠ Config.finishByte ∧ (0x3#4 ++ id).extractLsb' 4 4 = 0x3#4 ∧
      (0x3#4 ++ id).extractLsb' 0 4 = id := by decide
  obtain ⟨h1, h2, h3⟩ := key id
  simp only [decodeCommand, h1, h2, h3, if_true, if_false, show ¬(0x3#4 = 0x0#4) by decide]

/-- The command of FINISH's opcode byte (C3). -/
theorem decodeCommand_finish (v : List Byte) : decodeCommand Config.finishByte v = some (.finish v) := rfl

/-- A framed command is read back as the command. -/
theorem decodeRequest_frameRequest {op : Byte} {v : List Byte} {r : Request} (hv : v.length ≤ 4)
    (h : decodeCommand op v = some r) : decodeRequest (frameRequest op v) = .ok r := by
  have hl : (BitVec.ofNat 8 (1 + v.length)).toNat = 1 + v.length := by
    rw [BitVec.toNat_ofNat]; omega
  simp only [frameRequest, decodeRequest, hl]
  rw [if_pos ⟨trivial, by omega⟩, h]

/-- Everything `decodeRequest` can accept: a length byte that counts the bytes after it, in 1..5, and a command
(R108). -/
theorem decodeRequest_ok {bs : List Byte} {r : Request} (h : decodeRequest bs = .ok r) :
    ∃ l op v, bs = l :: op :: v ∧ l.toNat = 1 + v.length ∧ l.toNat ≤ 5 ∧ decodeCommand op v = some r := by
  match bs with
  | [] => cases h
  | [_] => cases h
  | l :: op :: v =>
    simp only [decodeRequest] at h
    split at h
    · rename_i hl
      refine ⟨l, op, v, rfl, hl.1, hl.2, ?_⟩
      cases hc : decodeCommand op v with
      | none => rw [hc] at h; cases h
      | some q => rw [hc] at h; cases h; rfl
    · cases h

/-- The frame of an operation's opcode byte and value bytes is the byte sequence it came from. -/
theorem frameRequest_eq {l op : Byte} {v : List Byte} (h : l.toNat = 1 + v.length) :
    frameRequest op v = l :: op :: v := by
  rw [frameRequest, ← h, BitVec.ofNat_toNat, BitVec.setWidth_eq]

end Sys2Proof
end

