-- ==== Sys2Proof/Laws/State.lean ====
section
/-! SUPPORT. One lemma per field per update of State, Axis and Channel, so that no later proof unfolds a
record update. -/

namespace Sys2Proof.Machine

/-! ### State.modifyAxis -/

@[simp] theorem State.modifyAxis_params (s : State) (a : Nat) (f : Axis → Axis) : (s.modifyAxis a f).params = s.params := rfl
@[simp] theorem State.modifyAxis_cnt (s : State) (a : Nat) (f : Axis → Axis) : (s.modifyAxis a f).cnt = s.cnt := rfl
@[simp] theorem State.modifyAxis_ovf (s : State) (a : Nat) (f : Axis → Axis) : (s.modifyAxis a f).ovf = s.ovf := rfl
@[simp] theorem State.modifyAxis_encPre (s : State) (a : Nat) (f : Axis → Axis) : (s.modifyAxis a f).encPre = s.encPre := rfl
@[simp] theorem State.modifyAxis_rxPre (s : State) (a : Nat) (f : Axis → Axis) : (s.modifyAxis a f).rxPre = s.rxPre := rfl
@[simp] theorem State.modifyAxis_encDue (s : State) (a : Nat) (f : Axis → Axis) : (s.modifyAxis a f).encDue = s.encDue := rfl
@[simp] theorem State.modifyAxis_rxDue (s : State) (a : Nat) (f : Axis → Axis) : (s.modifyAxis a f).rxDue = s.rxDue := rfl
@[simp] theorem State.modifyAxis_axes (s : State) (a : Nat) (f : Axis → Axis) : (s.modifyAxis a f).axes = s.axes.modify a f := rfl
@[simp] theorem State.modifyAxis_rxPrev (s : State) (a : Nat) (f : Axis → Axis) : (s.modifyAxis a f).rxPrev = s.rxPrev := rfl
@[simp] theorem State.modifyAxis_rxPv (s : State) (a : Nat) (f : Axis → Axis) : (s.modifyAxis a f).rxPv = s.rxPv := rfl
@[simp] theorem State.modifyAxis_rxMux (s : State) (a : Nat) (f : Axis → Axis) : (s.modifyAxis a f).rxMux = s.rxMux := rfl
@[simp] theorem State.modifyAxis_lastPair (s : State) (a : Nat) (f : Axis → Axis) : (s.modifyAxis a f).lastPair = s.lastPair := rfl
@[simp] theorem State.modifyAxis_lost (s : State) (a : Nat) (f : Axis → Axis) : (s.modifyAxis a f).lost = s.lost := rfl
@[simp] theorem State.modifyAxis_chans (s : State) (a : Nat) (f : Axis → Axis) : (s.modifyAxis a f).chans = s.chans := rfl
@[simp] theorem State.modifyAxis_cfg (s : State) (a : Nat) (f : Axis → Axis) : (s.modifyAxis a f).cfg = s.cfg := rfl
@[simp] theorem State.modifyAxis_cfgEdit (s : State) (a : Nat) (f : Axis → Axis) : (s.modifyAxis a f).cfgEdit = s.cfgEdit := rfl
@[simp] theorem State.modifyAxis_mode (s : State) (a : Nat) (f : Axis → Axis) : (s.modifyAxis a f).mode = s.mode := rfl
@[simp] theorem State.modifyAxis_serRxq (s : State) (a : Nat) (f : Axis → Axis) : (s.modifyAxis a f).serRxq = s.serRxq := rfl
@[simp] theorem State.modifyAxis_serLast (s : State) (a : Nat) (f : Axis → Axis) : (s.modifyAxis a f).serLast = s.serLast := rfl
@[simp] theorem State.modifyAxis_serTx (s : State) (a : Nat) (f : Axis → Axis) : (s.modifyAxis a f).serTx = s.serTx := rfl
@[simp] theorem State.modifyAxis_nv (s : State) (a : Nat) (f : Axis → Axis) : (s.modifyAxis a f).nv = s.nv := rfl
@[simp] theorem State.modifyAxis_motorOut (s : State) (a : Nat) (f : Axis → Axis) : (s.modifyAxis a f).motorOut = s.motorOut := rfl
@[simp] theorem State.modifyAxis_hostOut (s : State) (a : Nat) (f : Axis → Axis) : (s.modifyAxis a f).hostOut = s.hostOut := rfl
@[simp] theorem State.modifyAxis_pending (s : State) (a : Nat) (f : Axis → Axis) : (s.modifyAxis a f).pending = s.pending := rfl

/-! ### State.modifyChan -/

@[simp] theorem State.modifyChan_params (s : State) (c : Nat) (f : Channel → Channel) : (s.modifyChan c f).params = s.params := rfl
@[simp] theorem State.modifyChan_cnt (s : State) (c : Nat) (f : Channel → Channel) : (s.modifyChan c f).cnt = s.cnt := rfl
@[simp] theorem State.modifyChan_ovf (s : State) (c : Nat) (f : Channel → Channel) : (s.modifyChan c f).ovf = s.ovf := rfl
@[simp] theorem State.modifyChan_encPre (s : State) (c : Nat) (f : Channel → Channel) : (s.modifyChan c f).encPre = s.encPre := rfl
@[simp] theorem State.modifyChan_rxPre (s : State) (c : Nat) (f : Channel → Channel) : (s.modifyChan c f).rxPre = s.rxPre := rfl
@[simp] theorem State.modifyChan_encDue (s : State) (c : Nat) (f : Channel → Channel) : (s.modifyChan c f).encDue = s.encDue := rfl
@[simp] theorem State.modifyChan_rxDue (s : State) (c : Nat) (f : Channel → Channel) : (s.modifyChan c f).rxDue = s.rxDue := rfl
@[simp] theorem State.modifyChan_axes (s : State) (c : Nat) (f : Channel → Channel) : (s.modifyChan c f).axes = s.axes := rfl
@[simp] theorem State.modifyChan_rxPrev (s : State) (c : Nat) (f : Channel → Channel) : (s.modifyChan c f).rxPrev = s.rxPrev := rfl
@[simp] theorem State.modifyChan_rxPv (s : State) (c : Nat) (f : Channel → Channel) : (s.modifyChan c f).rxPv = s.rxPv := rfl
@[simp] theorem State.modifyChan_rxMux (s : State) (c : Nat) (f : Channel → Channel) : (s.modifyChan c f).rxMux = s.rxMux := rfl
@[simp] theorem State.modifyChan_lastPair (s : State) (c : Nat) (f : Channel → Channel) : (s.modifyChan c f).lastPair = s.lastPair := rfl
@[simp] theorem State.modifyChan_lost (s : State) (c : Nat) (f : Channel → Channel) : (s.modifyChan c f).lost = s.lost := rfl
@[simp] theorem State.modifyChan_chans (s : State) (c : Nat) (f : Channel → Channel) : (s.modifyChan c f).chans = s.chans.modify c f := rfl
@[simp] theorem State.modifyChan_cfg (s : State) (c : Nat) (f : Channel → Channel) : (s.modifyChan c f).cfg = s.cfg := rfl
@[simp] theorem State.modifyChan_cfgEdit (s : State) (c : Nat) (f : Channel → Channel) : (s.modifyChan c f).cfgEdit = s.cfgEdit := rfl
@[simp] theorem State.modifyChan_mode (s : State) (c : Nat) (f : Channel → Channel) : (s.modifyChan c f).mode = s.mode := rfl
@[simp] theorem State.modifyChan_serRxq (s : State) (c : Nat) (f : Channel → Channel) : (s.modifyChan c f).serRxq = s.serRxq := rfl
@[simp] theorem State.modifyChan_serLast (s : State) (c : Nat) (f : Channel → Channel) : (s.modifyChan c f).serLast = s.serLast := rfl
@[simp] theorem State.modifyChan_serTx (s : State) (c : Nat) (f : Channel → Channel) : (s.modifyChan c f).serTx = s.serTx := rfl
@[simp] theorem State.modifyChan_nv (s : State) (c : Nat) (f : Channel → Channel) : (s.modifyChan c f).nv = s.nv := rfl
@[simp] theorem State.modifyChan_motorOut (s : State) (c : Nat) (f : Channel → Channel) : (s.modifyChan c f).motorOut = s.motorOut := rfl
@[simp] theorem State.modifyChan_hostOut (s : State) (c : Nat) (f : Channel → Channel) : (s.modifyChan c f).hostOut = s.hostOut := rfl
@[simp] theorem State.modifyChan_pending (s : State) (c : Nat) (f : Channel → Channel) : (s.modifyChan c f).pending = s.pending := rfl

/-! ### State.emit -/

@[simp] theorem State.emit_params (s : State) (bs : List Byte) : (s.emit bs).params = s.params := rfl
@[simp] theorem State.emit_cnt (s : State) (bs : List Byte) : (s.emit bs).cnt = s.cnt := rfl
@[simp] theorem State.emit_ovf (s : State) (bs : List Byte) : (s.emit bs).ovf = s.ovf := rfl
@[simp] theorem State.emit_encPre (s : State) (bs : List Byte) : (s.emit bs).encPre = s.encPre := rfl
@[simp] theorem State.emit_rxPre (s : State) (bs : List Byte) : (s.emit bs).rxPre = s.rxPre := rfl
@[simp] theorem State.emit_encDue (s : State) (bs : List Byte) : (s.emit bs).encDue = s.encDue := rfl
@[simp] theorem State.emit_rxDue (s : State) (bs : List Byte) : (s.emit bs).rxDue = s.rxDue := rfl
@[simp] theorem State.emit_axes (s : State) (bs : List Byte) : (s.emit bs).axes = s.axes := rfl
@[simp] theorem State.emit_rxPrev (s : State) (bs : List Byte) : (s.emit bs).rxPrev = s.rxPrev := rfl
@[simp] theorem State.emit_rxPv (s : State) (bs : List Byte) : (s.emit bs).rxPv = s.rxPv := rfl
@[simp] theorem State.emit_rxMux (s : State) (bs : List Byte) : (s.emit bs).rxMux = s.rxMux := rfl
@[simp] theorem State.emit_lastPair (s : State) (bs : List Byte) : (s.emit bs).lastPair = s.lastPair := rfl
@[simp] theorem State.emit_lost (s : State) (bs : List Byte) : (s.emit bs).lost = s.lost := rfl
@[simp] theorem State.emit_chans (s : State) (bs : List Byte) : (s.emit bs).chans = s.chans := rfl
@[simp] theorem State.emit_cfg (s : State) (bs : List Byte) : (s.emit bs).cfg = s.cfg := rfl
@[simp] theorem State.emit_cfgEdit (s : State) (bs : List Byte) : (s.emit bs).cfgEdit = s.cfgEdit := rfl
@[simp] theorem State.emit_mode (s : State) (bs : List Byte) : (s.emit bs).mode = s.mode := rfl
@[simp] theorem State.emit_serRxq (s : State) (bs : List Byte) : (s.emit bs).serRxq = s.serRxq := rfl
@[simp] theorem State.emit_serLast (s : State) (bs : List Byte) : (s.emit bs).serLast = s.serLast := rfl
@[simp] theorem State.emit_serTx (s : State) (bs : List Byte) : (s.emit bs).serTx = s.serTx ++ bs := rfl
@[simp] theorem State.emit_nv (s : State) (bs : List Byte) : (s.emit bs).nv = s.nv := rfl
@[simp] theorem State.emit_motorOut (s : State) (bs : List Byte) : (s.emit bs).motorOut = s.motorOut := rfl
@[simp] theorem State.emit_hostOut (s : State) (bs : List Byte) : (s.emit bs).hostOut = s.hostOut := rfl
@[simp] theorem State.emit_pending (s : State) (bs : List Byte) : (s.emit bs).pending = s.pending := rfl

/-! ### State.protocolError -/

@[simp] theorem State.protocolError_params (s : State) (code : Byte) : (s.protocolError code).params = s.params := rfl
@[simp] theorem State.protocolError_cnt (s : State) (code : Byte) : (s.protocolError code).cnt = s.cnt := rfl
@[simp] theorem State.protocolError_ovf (s : State) (code : Byte) : (s.protocolError code).ovf = s.ovf := rfl
@[simp] theorem State.protocolError_encPre (s : State) (code : Byte) : (s.protocolError code).encPre = s.encPre := rfl
@[simp] theorem State.protocolError_rxPre (s : State) (code : Byte) : (s.protocolError code).rxPre = s.rxPre := rfl
@[simp] theorem State.protocolError_encDue (s : State) (code : Byte) : (s.protocolError code).encDue = s.encDue := rfl
@[simp] theorem State.protocolError_rxDue (s : State) (code : Byte) : (s.protocolError code).rxDue = s.rxDue := rfl
@[simp] theorem State.protocolError_axes (s : State) (code : Byte) : (s.protocolError code).axes = s.axes := rfl
@[simp] theorem State.protocolError_rxPrev (s : State) (code : Byte) : (s.protocolError code).rxPrev = s.rxPrev := rfl
@[simp] theorem State.protocolError_rxPv (s : State) (code : Byte) : (s.protocolError code).rxPv = s.rxPv := rfl
@[simp] theorem State.protocolError_rxMux (s : State) (code : Byte) : (s.protocolError code).rxMux = s.rxMux := rfl
@[simp] theorem State.protocolError_lastPair (s : State) (code : Byte) : (s.protocolError code).lastPair = s.lastPair := rfl
@[simp] theorem State.protocolError_lost (s : State) (code : Byte) : (s.protocolError code).lost = s.lost := rfl
@[simp] theorem State.protocolError_chans (s : State) (code : Byte) : (s.protocolError code).chans = s.chans := rfl
@[simp] theorem State.protocolError_cfg (s : State) (code : Byte) : (s.protocolError code).cfg = s.cfg := rfl
@[simp] theorem State.protocolError_cfgEdit (s : State) (code : Byte) : (s.protocolError code).cfgEdit = s.cfgEdit := rfl
@[simp] theorem State.protocolError_mode (s : State) (code : Byte) : (s.protocolError code).mode = s.mode := rfl
@[simp] theorem State.protocolError_serRxq (s : State) (code : Byte) : (s.protocolError code).serRxq = s.serRxq := rfl
@[simp] theorem State.protocolError_serLast (s : State) (code : Byte) : (s.protocolError code).serLast = s.serLast := rfl
@[simp] theorem State.protocolError_serTx (s : State) (code : Byte) : (s.protocolError code).serTx = s.serTx ++ [code] := rfl
@[simp] theorem State.protocolError_nv (s : State) (code : Byte) : (s.protocolError code).nv = s.nv := rfl
@[simp] theorem State.protocolError_motorOut (s : State) (code : Byte) : (s.protocolError code).motorOut = s.motorOut := rfl
@[simp] theorem State.protocolError_hostOut (s : State) (code : Byte) : (s.protocolError code).hostOut = s.hostOut := rfl
@[simp] theorem State.protocolError_pending (s : State) (code : Byte) : (s.protocolError code).pending = s.pending := rfl

/-! ### State.withRxq -/

@[simp] theorem State.withRxq_params (s : State) (q : List Byte) : (s.withRxq q).params = s.params := rfl
@[simp] theorem State.withRxq_cnt (s : State) (q : List Byte) : (s.withRxq q).cnt = s.cnt := rfl
@[simp] theorem State.withRxq_ovf (s : State) (q : List Byte) : (s.withRxq q).ovf = s.ovf := rfl
@[simp] theorem State.withRxq_encPre (s : State) (q : List Byte) : (s.withRxq q).encPre = s.encPre := rfl
@[simp] theorem State.withRxq_rxPre (s : State) (q : List Byte) : (s.withRxq q).rxPre = s.rxPre := rfl
@[simp] theorem State.withRxq_encDue (s : State) (q : List Byte) : (s.withRxq q).encDue = s.encDue := rfl
@[simp] theorem State.withRxq_rxDue (s : State) (q : List Byte) : (s.withRxq q).rxDue = s.rxDue := rfl
@[simp] theorem State.withRxq_axes (s : State) (q : List Byte) : (s.withRxq q).axes = s.axes := rfl
@[simp] theorem State.withRxq_rxPrev (s : State) (q : List Byte) : (s.withRxq q).rxPrev = s.rxPrev := rfl
@[simp] theorem State.withRxq_rxPv (s : State) (q : List Byte) : (s.withRxq q).rxPv = s.rxPv := rfl
@[simp] theorem State.withRxq_rxMux (s : State) (q : List Byte) : (s.withRxq q).rxMux = s.rxMux := rfl
@[simp] theorem State.withRxq_lastPair (s : State) (q : List Byte) : (s.withRxq q).lastPair = s.lastPair := rfl
@[simp] theorem State.withRxq_lost (s : State) (q : List Byte) : (s.withRxq q).lost = s.lost := rfl
@[simp] theorem State.withRxq_chans (s : State) (q : List Byte) : (s.withRxq q).chans = s.chans := rfl
@[simp] theorem State.withRxq_cfg (s : State) (q : List Byte) : (s.withRxq q).cfg = s.cfg := rfl
@[simp] theorem State.withRxq_cfgEdit (s : State) (q : List Byte) : (s.withRxq q).cfgEdit = s.cfgEdit := rfl
@[simp] theorem State.withRxq_mode (s : State) (q : List Byte) : (s.withRxq q).mode = s.mode := rfl
@[simp] theorem State.withRxq_serRxq (s : State) (q : List Byte) : (s.withRxq q).serRxq = q := rfl
@[simp] theorem State.withRxq_serLast (s : State) (q : List Byte) : (s.withRxq q).serLast = s.serLast := rfl
@[simp] theorem State.withRxq_serTx (s : State) (q : List Byte) : (s.withRxq q).serTx = s.serTx := rfl
@[simp] theorem State.withRxq_nv (s : State) (q : List Byte) : (s.withRxq q).nv = s.nv := rfl
@[simp] theorem State.withRxq_motorOut (s : State) (q : List Byte) : (s.withRxq q).motorOut = s.motorOut := rfl
@[simp] theorem State.withRxq_hostOut (s : State) (q : List Byte) : (s.withRxq q).hostOut = s.hostOut := rfl
@[simp] theorem State.withRxq_pending (s : State) (q : List Byte) : (s.withRxq q).pending = s.pending := rfl

/-! ### State.enterConfig -/

@[simp] theorem State.enterConfig_params (s : State) : (s.enterConfig).params = s.params := rfl
@[simp] theorem State.enterConfig_cnt (s : State) : (s.enterConfig).cnt = s.cnt := rfl
@[simp] theorem State.enterConfig_ovf (s : State) : (s.enterConfig).ovf = s.ovf := rfl
@[simp] theorem State.enterConfig_encPre (s : State) : (s.enterConfig).encPre = s.encPre := rfl
@[simp] theorem State.enterConfig_rxPre (s : State) : (s.enterConfig).rxPre = s.rxPre := rfl
@[simp] theorem State.enterConfig_encDue (s : State) : (s.enterConfig).encDue = s.encDue := rfl
@[simp] theorem State.enterConfig_rxDue (s : State) : (s.enterConfig).rxDue = s.rxDue := rfl
@[simp] theorem State.enterConfig_axes (s : State) : (s.enterConfig).axes = s.axes := rfl
@[simp] theorem State.enterConfig_rxPrev (s : State) : (s.enterConfig).rxPrev = s.rxPrev := rfl
@[simp] theorem State.enterConfig_rxPv (s : State) : (s.enterConfig).rxPv = s.rxPv := rfl
@[simp] theorem State.enterConfig_rxMux (s : State) : (s.enterConfig).rxMux = s.rxMux := rfl
@[simp] theorem State.enterConfig_lastPair (s : State) : (s.enterConfig).lastPair = s.lastPair := rfl
@[simp] theorem State.enterConfig_lost (s : State) : (s.enterConfig).lost = s.lost := rfl
@[simp] theorem State.enterConfig_chans (s : State) : (s.enterConfig).chans = s.chans := rfl
@[simp] theorem State.enterConfig_cfg (s : State) : (s.enterConfig).cfg = s.cfg := rfl
@[simp] theorem State.enterConfig_cfgEdit (s : State) : (s.enterConfig).cfgEdit = s.cfg := rfl
@[simp] theorem State.enterConfig_mode (s : State) : (s.enterConfig).mode = .config := rfl
@[simp] theorem State.enterConfig_serRxq (s : State) : (s.enterConfig).serRxq = s.serRxq := rfl
@[simp] theorem State.enterConfig_serLast (s : State) : (s.enterConfig).serLast = s.serLast := rfl
@[simp] theorem State.enterConfig_serTx (s : State) : (s.enterConfig).serTx = s.serTx := rfl
@[simp] theorem State.enterConfig_nv (s : State) : (s.enterConfig).nv = s.nv := rfl
@[simp] theorem State.enterConfig_motorOut (s : State) : (s.enterConfig).motorOut = s.motorOut := rfl
@[simp] theorem State.enterConfig_hostOut (s : State) : (s.enterConfig).hostOut = s.hostOut := rfl
@[simp] theorem State.enterConfig_pending (s : State) : (s.enterConfig).pending = s.pending := rfl

/-! ### State.dispatchMotors -/

@[simp] theorem State.dispatchMotors_params (s : State) : (s.dispatchMotors).params = s.params := rfl
@[simp] theorem State.dispatchMotors_cnt (s : State) : (s.dispatchMotors).cnt = s.cnt := rfl
@[simp] theorem State.dispatchMotors_ovf (s : State) : (s.dispatchMotors).ovf = s.ovf := rfl
@[simp] theorem State.dispatchMotors_encPre (s : State) : (s.dispatchMotors).encPre = s.encPre := rfl
@[simp] theorem State.dispatchMotors_rxPre (s : State) : (s.dispatchMotors).rxPre = s.rxPre := rfl
@[simp] theorem State.dispatchMotors_encDue (s : State) : (s.dispatchMotors).encDue = s.encDue := rfl
@[simp] theorem State.dispatchMotors_rxDue (s : State) : (s.dispatchMotors).rxDue = s.rxDue := rfl
@[simp] theorem State.dispatchMotors_axes (s : State) : (s.dispatchMotors).axes = s.axes := rfl
@[simp] theorem State.dispatchMotors_rxPrev (s : State) : (s.dispatchMotors).rxPrev = s.rxPrev := rfl
@[simp] theorem State.dispatchMotors_rxPv (s : State) : (s.dispatchMotors).rxPv = s.rxPv := rfl
@[simp] theorem State.dispatchMotors_rxMux (s : State) : (s.dispatchMotors).rxMux = s.rxMux := rfl
@[simp] theorem State.dispatchMotors_lastPair (s : State) : (s.dispatchMotors).lastPair = s.lastPair := rfl
@[simp] theorem State.dispatchMotors_lost (s : State) : (s.dispatchMotors).lost = s.lost := rfl
@[simp] theorem State.dispatchMotors_chans (s : State) : (s.dispatchMotors).chans = s.chans := rfl
@[simp] theorem State.dispatchMotors_cfg (s : State) : (s.dispatchMotors).cfg = s.cfg := rfl
@[simp] theorem State.dispatchMotors_cfgEdit (s : State) : (s.dispatchMotors).cfgEdit = s.cfgEdit := rfl
@[simp] theorem State.dispatchMotors_mode (s : State) : (s.dispatchMotors).mode = s.mode := rfl
@[simp] theorem State.dispatchMotors_serRxq (s : State) : (s.dispatchMotors).serRxq = s.serRxq := rfl
@[simp] theorem State.dispatchMotors_serLast (s : State) : (s.dispatchMotors).serLast = s.serLast := rfl
@[simp] theorem State.dispatchMotors_serTx (s : State) : (s.dispatchMotors).serTx = s.serTx := rfl
@[simp] theorem State.dispatchMotors_nv (s : State) : (s.dispatchMotors).nv = s.nv := rfl
@[simp] theorem State.dispatchMotors_motorOut (s : State) : (s.dispatchMotors).motorOut = s.motorOut ++ s.axes.mapIdx (fun a x => (a, x.motorCmd)) := rfl
@[simp] theorem State.dispatchMotors_hostOut (s : State) : (s.dispatchMotors).hostOut = s.hostOut := rfl
@[simp] theorem State.dispatchMotors_pending (s : State) : (s.dispatchMotors).pending = s.pending := rfl

/-! ### State.returnToHost -/

@[simp] theorem State.returnToHost_params (s : State) (w : Word) : (s.returnToHost w).params = s.params := rfl
@[simp] theorem State.returnToHost_cnt (s : State) (w : Word) : (s.returnToHost w).cnt = s.cnt := rfl
@[simp] theorem State.returnToHost_ovf (s : State) (w : Word) : (s.returnToHost w).ovf = s.ovf := rfl
@[simp] theorem State.returnToHost_encPre (s : State) (w : Word) : (s.returnToHost w).encPre = s.encPre := rfl
@[simp] theorem State.returnToHost_rxPre (s : State) (w : Word) : (s.returnToHost w).rxPre = s.rxPre := rfl
@[simp] theorem State.returnToHost_encDue (s : State) (w : Word) : (s.returnToHost w).encDue = s.encDue := rfl
@[simp] theorem State.returnToHost_rxDue (s : State) (w : Word) : (s.returnToHost w).rxDue = s.rxDue := rfl
@[simp] theorem State.returnToHost_axes (s : State) (w : Word) : (s.returnToHost w).axes = s.axes := rfl
@[simp] theorem State.returnToHost_rxPrev (s : State) (w : Word) : (s.returnToHost w).rxPrev = s.rxPrev := rfl
@[simp] theorem State.returnToHost_rxPv (s : State) (w : Word) : (s.returnToHost w).rxPv = s.rxPv := rfl
@[simp] theorem State.returnToHost_rxMux (s : State) (w : Word) : (s.returnToHost w).rxMux = s.rxMux := rfl
@[simp] theorem State.returnToHost_lastPair (s : State) (w : Word) : (s.returnToHost w).lastPair = s.lastPair := rfl
@[simp] theorem State.returnToHost_lost (s : State) (w : Word) : (s.returnToHost w).lost = s.lost := rfl
@[simp] theorem State.returnToHost_chans (s : State) (w : Word) : (s.returnToHost w).chans = s.chans := rfl
@[simp] theorem State.returnToHost_cfg (s : State) (w : Word) : (s.returnToHost w).cfg = s.cfg := rfl
@[simp] theorem State.returnToHost_cfgEdit (s : State) (w : Word) : (s.returnToHost w).cfgEdit = s.cfgEdit := rfl
@[simp] theorem State.returnToHost_mode (s : State) (w : Word) : (s.returnToHost w).mode = s.mode := rfl
@[simp] theorem State.returnToHost_serRxq (s : State) (w : Word) : (s.returnToHost w).serRxq = s.serRxq := rfl
@[simp] theorem State.returnToHost_serLast (s : State) (w : Word) : (s.returnToHost w).serLast = s.serLast := rfl
@[simp] theorem State.returnToHost_serTx (s : State) (w : Word) : (s.returnToHost w).serTx = s.serTx := rfl
@[simp] theorem State.returnToHost_nv (s : State) (w : Word) : (s.returnToHost w).nv = s.nv := rfl
@[simp] theorem State.returnToHost_motorOut (s : State) (w : Word) : (s.returnToHost w).motorOut = s.motorOut := rfl
@[simp] theorem State.returnToHost_hostOut (s : State) (w : Word) : (s.returnToHost w).hostOut = s.hostOut ++ [w] := rfl
@[simp] theorem State.returnToHost_pending (s : State) (w : Word) : (s.returnToHost w).pending = s.pending := rfl

/-! ### State.present -/

@[simp] theorem State.present_params (s : State) (w : OpWord) : (s.present w).params = s.params := rfl
@[simp] theorem State.present_cnt (s : State) (w : OpWord) : (s.present w).cnt = s.cnt := rfl
@[simp] theorem State.present_ovf (s : State) (w : OpWord) : (s.present w).ovf = s.ovf := rfl
@[simp] theorem State.present_encPre (s : State) (w : OpWord) : (s.present w).encPre = s.encPre := rfl
@[simp] theorem State.present_rxPre (s : State) (w : OpWord) : (s.present w).rxPre = s.rxPre := rfl
@[simp] theorem State.present_encDue (s : State) (w : OpWord) : (s.present w).encDue = s.encDue := rfl
@[simp] theorem State.present_rxDue (s : State) (w : OpWord) : (s.present w).rxDue = s.rxDue := rfl
@[simp] theorem State.present_axes (s : State) (w : OpWord) : (s.present w).axes = s.axes := rfl
@[simp] theorem State.present_rxPrev (s : State) (w : OpWord) : (s.present w).rxPrev = s.rxPrev := rfl
@[simp] theorem State.present_rxPv (s : State) (w : OpWord) : (s.present w).rxPv = s.rxPv := rfl
@[simp] theorem State.present_rxMux (s : State) (w : OpWord) : (s.present w).rxMux = s.rxMux := rfl
@[simp] theorem State.present_lastPair (s : State) (w : OpWord) : (s.present w).lastPair = s.lastPair := rfl
@[simp] theorem State.present_lost (s : State) (w : OpWord) : (s.present w).lost = s.lost := rfl
@[simp] theorem State.present_chans (s : State) (w : OpWord) : (s.present w).chans = s.chans := rfl
@[simp] theorem State.present_cfg (s : State) (w : OpWord) : (s.present w).cfg = s.cfg := rfl
@[simp] theorem State.present_cfgEdit (s : State) (w : OpWord) : (s.present w).cfgEdit = s.cfgEdit := rfl
@[simp] theorem State.present_mode (s : State) (w : OpWord) : (s.present w).mode = s.mode := rfl
@[simp] theorem State.present_serRxq (s : State) (w : OpWord) : (s.present w).serRxq = s.serRxq := rfl
@[simp] theorem State.present_serLast (s : State) (w : OpWord) : (s.present w).serLast = s.serLast := rfl
@[simp] theorem State.present_serTx (s : State) (w : OpWord) : (s.present w).serTx = s.serTx := rfl
@[simp] theorem State.present_nv (s : State) (w : OpWord) : (s.present w).nv = s.nv := rfl
@[simp] theorem State.present_motorOut (s : State) (w : OpWord) : (s.present w).motorOut = s.motorOut := rfl
@[simp] theorem State.present_hostOut (s : State) (w : OpWord) : (s.present w).hostOut = s.hostOut := rfl
@[simp] theorem State.present_pending (s : State) (w : OpWord) : (s.present w).pending = w :: s.pending := rfl

/-! ### State.overwriteRxq -/

@[simp] theorem State.overwriteRxq_params (s : State) (bs : List Byte) : (s.overwriteRxq bs).params = s.params := rfl
@[simp] theorem State.overwriteRxq_cnt (s : State) (bs : List Byte) : (s.overwriteRxq bs).cnt = s.cnt := rfl
@[simp] theorem State.overwriteRxq_ovf (s : State) (bs : List Byte) : (s.overwriteRxq bs).ovf = s.ovf := rfl
@[simp] theorem State.overwriteRxq_encPre (s : State) (bs : List Byte) : (s.overwriteRxq bs).encPre = s.encPre := rfl
@[simp] theorem State.overwriteRxq_rxPre (s : State) (bs : List Byte) : (s.overwriteRxq bs).rxPre = s.rxPre := rfl
@[simp] theorem State.overwriteRxq_encDue (s : State) (bs : List Byte) : (s.overwriteRxq bs).encDue = s.encDue := rfl
@[simp] theorem State.overwriteRxq_rxDue (s : State) (bs : List Byte) : (s.overwriteRxq bs).rxDue = s.rxDue := rfl
@[simp] theorem State.overwriteRxq_axes (s : State) (bs : List Byte) : (s.overwriteRxq bs).axes = s.axes := rfl
@[simp] theorem State.overwriteRxq_rxPrev (s : State) (bs : List Byte) : (s.overwriteRxq bs).rxPrev = s.rxPrev := rfl
@[simp] theorem State.overwriteRxq_rxPv (s : State) (bs : List Byte) : (s.overwriteRxq bs).rxPv = s.rxPv := rfl
@[simp] theorem State.overwriteRxq_rxMux (s : State) (bs : List Byte) : (s.overwriteRxq bs).rxMux = s.rxMux := rfl
@[simp] theorem State.overwriteRxq_lastPair (s : State) (bs : List Byte) : (s.overwriteRxq bs).lastPair = s.lastPair := rfl
@[simp] theorem State.overwriteRxq_lost (s : State) (bs : List Byte) : (s.overwriteRxq bs).lost = s.lost := rfl
@[simp] theorem State.overwriteRxq_chans (s : State) (bs : List Byte) : (s.overwriteRxq bs).chans = s.chans := rfl
@[simp] theorem State.overwriteRxq_cfg (s : State) (bs : List Byte) : (s.overwriteRxq bs).cfg = s.cfg := rfl
@[simp] theorem State.overwriteRxq_cfgEdit (s : State) (bs : List Byte) : (s.overwriteRxq bs).cfgEdit = s.cfgEdit := rfl
@[simp] theorem State.overwriteRxq_mode (s : State) (bs : List Byte) : (s.overwriteRxq bs).mode = s.mode := rfl
@[simp] theorem State.overwriteRxq_serRxq (s : State) (bs : List Byte) : (s.overwriteRxq bs).serRxq = bs ++ s.serRxq.drop bs.length := rfl
@[simp] theorem State.overwriteRxq_serLast (s : State) (bs : List Byte) : (s.overwriteRxq bs).serLast = s.serLast := rfl
@[simp] theorem State.overwriteRxq_serTx (s : State) (bs : List Byte) : (s.overwriteRxq bs).serTx = s.serTx := rfl
@[simp] theorem State.overwriteRxq_nv (s : State) (bs : List Byte) : (s.overwriteRxq bs).nv = s.nv := rfl
@[simp] theorem State.overwriteRxq_motorOut (s : State) (bs : List Byte) : (s.overwriteRxq bs).motorOut = s.motorOut := rfl
@[simp] theorem State.overwriteRxq_hostOut (s : State) (bs : List Byte) : (s.overwriteRxq bs).hostOut = s.hostOut := rfl
@[simp] theorem State.overwriteRxq_pending (s : State) (bs : List Byte) : (s.overwriteRxq bs).pending = s.pending := rfl

/-! ### State.wrapTick -/

@[simp] theorem State.wrapTick_params (s : State) : (s.wrapTick).params = s.params := rfl
@[simp] theorem State.wrapTick_cnt (s : State) : (s.wrapTick).cnt = 0 := rfl
@[simp] theorem State.wrapTick_ovf (s : State) : (s.wrapTick).ovf = (s.ovf + 1) % 2 ^ s.params.ob := rfl
@[simp] theorem State.wrapTick_encPre (s : State) : (s.wrapTick).encPre = prescale s.encPre s.params.encFrameOvf := rfl
@[simp] theorem State.wrapTick_rxPre (s : State) : (s.wrapTick).rxPre = prescale s.rxPre s.params.rxFrameOvf := rfl
@[simp] theorem State.wrapTick_encDue (s : State) : (s.wrapTick).encDue = raiseDue s.encDue s.encPre s.params.encFrameOvf := rfl
@[simp] theorem State.wrapTick_rxDue (s : State) : (s.wrapTick).rxDue = raiseDue s.rxDue s.rxPre s.params.rxFrameOvf := rfl
@[simp] theorem State.wrapTick_axes (s : State) : (s.wrapTick).axes = s.axes := rfl
@[simp] theorem State.wrapTick_rxPrev (s : State) : (s.wrapTick).rxPrev = s.rxPrev := rfl
@[simp] theorem State.wrapTick_rxPv (s : State) : (s.wrapTick).rxPv = s.rxPv := rfl
@[simp] theorem State.wrapTick_rxMux (s : State) : (s.wrapTick).rxMux = s.rxMux := rfl
@[simp] theorem State.wrapTick_lastPair (s : State) : (s.wrapTick).lastPair = s.lastPair := rfl
@[simp] theorem State.wrapTick_lost (s : State) : (s.wrapTick).lost = s.lost := rfl
@[simp] theorem State.wrapTick_chans (s : State) : (s.wrapTick).chans = s.chans := rfl
@[simp] theorem State.wrapTick_cfg (s : State) : (s.wrapTick).cfg = s.cfg := rfl
@[simp] theorem State.wrapTick_cfgEdit (s : State) : (s.wrapTick).cfgEdit = s.cfgEdit := rfl
@[simp] theorem State.wrapTick_mode (s : State) : (s.wrapTick).mode = s.mode := rfl
@[simp] theorem State.wrapTick_serRxq (s : State) : (s.wrapTick).serRxq = s.serRxq := rfl
@[simp] theorem State.wrapTick_serLast (s : State) : (s.wrapTick).serLast = s.serLast := rfl
@[simp] theorem State.wrapTick_serTx (s : State) : (s.wrapTick).serTx = s.serTx := rfl
@[simp] theorem State.wrapTick_nv (s : State) : (s.wrapTick).nv = s.nv := rfl
@[simp] theorem State.wrapTick_motorOut (s : State) : (s.wrapTick).motorOut = s.motorOut := rfl
@[simp] theorem State.wrapTick_hostOut (s : State) : (s.wrapTick).hostOut = s.hostOut := rfl
@[simp] theorem State.wrapTick_pending (s : State) : (s.wrapTick).pending = s.pending := rfl

/-! ### State.countTick -/

@[simp] theorem State.countTick_params (s : State) : (s.countTick).params = s.params := rfl
@[simp] theorem State.countTick_cnt (s : State) : (s.countTick).cnt = (s.cnt + 1) % 2 ^ s.params.cb := rfl
@[simp] theorem State.countTick_ovf (s : State) : (s.countTick).ovf = s.ovf := rfl
@[simp] theorem State.countTick_encPre (s : State) : (s.countTick).encPre = s.encPre := rfl
@[simp] theorem State.countTick_rxPre (s : State) : (s.countTick).rxPre = s.rxPre := rfl
@[simp] theorem State.countTick_encDue (s : State) : (s.countTick).encDue = s.encDue := rfl
@[simp] theorem State.countTick_rxDue (s : State) : (s.countTick).rxDue = s.rxDue := rfl
@[simp] theorem State.countTick_axes (s : State) : (s.countTick).axes = s.axes := rfl
@[simp] theorem State.countTick_rxPrev (s : State) : (s.countTick).rxPrev = s.rxPrev := rfl
@[simp] theorem State.countTick_rxPv (s : State) : (s.countTick).rxPv = s.rxPv := rfl
@[simp] theorem State.countTick_rxMux (s : State) : (s.countTick).rxMux = s.rxMux := rfl
@[simp] theorem State.countTick_lastPair (s : State) : (s.countTick).lastPair = s.lastPair := rfl
@[simp] theorem State.countTick_lost (s : State) : (s.countTick).lost = s.lost := rfl
@[simp] theorem State.countTick_chans (s : State) : (s.countTick).chans = s.chans := rfl
@[simp] theorem State.countTick_cfg (s : State) : (s.countTick).cfg = s.cfg := rfl
@[simp] theorem State.countTick_cfgEdit (s : State) : (s.countTick).cfgEdit = s.cfgEdit := rfl
@[simp] theorem State.countTick_mode (s : State) : (s.countTick).mode = s.mode := rfl
@[simp] theorem State.countTick_serRxq (s : State) : (s.countTick).serRxq = s.serRxq := rfl
@[simp] theorem State.countTick_serLast (s : State) : (s.countTick).serLast = s.serLast := rfl
@[simp] theorem State.countTick_serTx (s : State) : (s.countTick).serTx = s.serTx := rfl
@[simp] theorem State.countTick_nv (s : State) : (s.countTick).nv = s.nv := rfl
@[simp] theorem State.countTick_motorOut (s : State) : (s.countTick).motorOut = s.motorOut := rfl
@[simp] theorem State.countTick_hostOut (s : State) : (s.countTick).hostOut = s.hostOut := rfl
@[simp] theorem State.countTick_pending (s : State) : (s.countTick).pending = s.pending := rfl

/-! ### State.rxRise -/

@[simp] theorem State.rxRise_params (s : State) (c : Nat) : (s.rxRise c).params = s.params := rfl
@[simp] theorem State.rxRise_cnt (s : State) (c : Nat) : (s.rxRise c).cnt = s.cnt := rfl
@[simp] theorem State.rxRise_ovf (s : State) (c : Nat) : (s.rxRise c).ovf = s.ovf := rfl
@[simp] theorem State.rxRise_encPre (s : State) (c : Nat) : (s.rxRise c).encPre = s.encPre := rfl
@[simp] theorem State.rxRise_rxPre (s : State) (c : Nat) : (s.rxRise c).rxPre = s.rxPre := rfl
@[simp] theorem State.rxRise_encDue (s : State) (c : Nat) : (s.rxRise c).encDue = s.encDue := rfl
@[simp] theorem State.rxRise_rxDue (s : State) (c : Nat) : (s.rxRise c).rxDue = s.rxDue := rfl
@[simp] theorem State.rxRise_axes (s : State) (c : Nat) : (s.rxRise c).axes = s.axes := rfl
@[simp] theorem State.rxRise_rxPrev (s : State) (c : Nat) : (s.rxRise c).rxPrev = s.rxPrev := rfl
@[simp] theorem State.rxRise_rxPv (s : State) (c : Nat) : (s.rxRise c).rxPv = s.rxPv := rfl
@[simp] theorem State.rxRise_rxMux (s : State) (c : Nat) : (s.rxRise c).rxMux = s.rxMux := rfl
@[simp] theorem State.rxRise_lastPair (s : State) (c : Nat) : (s.rxRise c).lastPair = s.lastPair := rfl
@[simp] theorem State.rxRise_lost (s : State) (c : Nat) : (s.rxRise c).lost = s.lost := rfl
@[simp] theorem State.rxRise_chans (s : State) (c : Nat) : (s.rxRise c).chans = s.chans.modify c (fun x => { x with rxStart := s.now }) := rfl
@[simp] theorem State.rxRise_cfg (s : State) (c : Nat) : (s.rxRise c).cfg = s.cfg := rfl
@[simp] theorem State.rxRise_cfgEdit (s : State) (c : Nat) : (s.rxRise c).cfgEdit = s.cfgEdit := rfl
@[simp] theorem State.rxRise_mode (s : State) (c : Nat) : (s.rxRise c).mode = s.mode := rfl
@[simp] theorem State.rxRise_serRxq (s : State) (c : Nat) : (s.rxRise c).serRxq = s.serRxq := rfl
@[simp] theorem State.rxRise_serLast (s : State) (c : Nat) : (s.rxRise c).serLast = s.serLast := rfl
@[simp] theorem State.rxRise_serTx (s : State) (c : Nat) : (s.rxRise c).serTx = s.serTx := rfl
@[simp] theorem State.rxRise_nv (s : State) (c : Nat) : (s.rxRise c).nv = s.nv := rfl
@[simp] theorem State.rxRise_motorOut (s : State) (c : Nat) : (s.rxRise c).motorOut = s.motorOut := rfl
@[simp] theorem State.rxRise_hostOut (s : State) (c : Nat) : (s.rxRise c).hostOut = s.hostOut := rfl
@[simp] theorem State.rxRise_pending (s : State) (c : Nat) : (s.rxRise c).pending = s.pending := rfl

/-! ### State.rxFall -/

@[simp] theorem State.rxFall_params (s : State) (c : Nat) : (s.rxFall c).params = s.params := rfl
@[simp] theorem State.rxFall_cnt (s : State) (c : Nat) : (s.rxFall c).cnt = s.cnt := rfl
@[simp] theorem State.rxFall_ovf (s : State) (c : Nat) : (s.rxFall c).ovf = s.ovf := rfl
@[simp] theorem State.rxFall_encPre (s : State) (c : Nat) : (s.rxFall c).encPre = s.encPre := rfl
@[simp] theorem State.rxFall_rxPre (s : State) (c : Nat) : (s.rxFall c).rxPre = s.rxPre := rfl
@[simp] theorem State.rxFall_encDue (s : State) (c : Nat) : (s.rxFall c).encDue = s.encDue := rfl
@[simp] theorem State.rxFall_rxDue (s : State) (c : Nat) : (s.rxFall c).rxDue = (s.rxDue || decide (c + 1 = s.params.nch)) := rfl
@[simp] theorem State.rxFall_axes (s : State) (c : Nat) : (s.rxFall c).axes = s.axes := rfl
@[simp] theorem State.rxFall_rxPrev (s : State) (c : Nat) : (s.rxFall c).rxPrev = s.rxPrev := rfl
@[simp] theorem State.rxFall_rxPv (s : State) (c : Nat) : (s.rxFall c).rxPv = s.rxPv := rfl
@[simp] theorem State.rxFall_rxMux (s : State) (c : Nat) : (s.rxFall c).rxMux = s.rxMux := rfl
@[simp] theorem State.rxFall_lastPair (s : State) (c : Nat) : (s.rxFall c).lastPair = s.now := rfl
@[simp] theorem State.rxFall_lost (s : State) (c : Nat) : (s.rxFall c).lost = false := rfl
@[simp] theorem State.rxFall_chans (s : State) (c : Nat) : (s.rxFall c).chans = s.chans.modify c (fun x => { x with rxEnd := s.now, rxUpd := true }) := rfl
@[simp] theorem State.rxFall_cfg (s : State) (c : Nat) : (s.rxFall c).cfg = s.cfg := rfl
@[simp] theorem State.rxFall_cfgEdit (s : State) (c : Nat) : (s.rxFall c).cfgEdit = s.cfgEdit := rfl
@[simp] theorem State.rxFall_mode (s : State) (c : Nat) : (s.rxFall c).mode = s.mode := rfl
@[simp] theorem State.rxFall_serRxq (s : State) (c : Nat) : (s.rxFall c).serRxq = s.serRxq := rfl
@[simp] theorem State.rxFall_serLast (s : State) (c : Nat) : (s.rxFall c).serLast = s.serLast := rfl
@[simp] theorem State.rxFall_serTx (s : State) (c : Nat) : (s.rxFall c).serTx = s.serTx := rfl
@[simp] theorem State.rxFall_nv (s : State) (c : Nat) : (s.rxFall c).nv = s.nv := rfl
@[simp] theorem State.rxFall_motorOut (s : State) (c : Nat) : (s.rxFall c).motorOut = s.motorOut := rfl
@[simp] theorem State.rxFall_hostOut (s : State) (c : Nat) : (s.rxFall c).hostOut = s.hostOut := rfl
@[simp] theorem State.rxFall_pending (s : State) (c : Nat) : (s.rxFall c).pending = s.pending := rfl

/-! ### State.rxDrain -/

@[simp] theorem State.rxDrain_params (s : State) : (s.rxDrain).params = s.params := rfl
@[simp] theorem State.rxDrain_cnt (s : State) : (s.rxDrain).cnt = s.cnt := rfl
@[simp] theorem State.rxDrain_ovf (s : State) : (s.rxDrain).ovf = s.ovf := rfl
@[simp] theorem State.rxDrain_encPre (s : State) : (s.rxDrain).encPre = s.encPre := rfl
@[simp] theorem State.rxDrain_rxPre (s : State) : (s.rxDrain).rxPre = s.rxPre := rfl
@[simp] theorem State.rxDrain_encDue (s : State) : (s.rxDrain).encDue = s.encDue := rfl
@[simp] theorem State.rxDrain_rxDue (s : State) : (s.rxDrain).rxDue = s.rxDue := rfl
@[simp] theorem State.rxDrain_axes (s : State) : (s.rxDrain).axes = s.axes := rfl
@[simp] theorem State.rxDrain_rxPrev (s : State) : (s.rxDrain).rxPrev = s.rxPrev := rfl
@[simp] theorem State.rxDrain_rxPv (s : State) : (s.rxDrain).rxPv = s.rxPv := rfl
@[simp] theorem State.rxDrain_rxMux (s : State) : (s.rxDrain).rxMux = s.rxMux := rfl
@[simp] theorem State.rxDrain_lastPair (s : State) : (s.rxDrain).lastPair = s.lastPair := rfl
@[simp] theorem State.rxDrain_lost (s : State) : (s.rxDrain).lost = s.lost := rfl
@[simp] theorem State.rxDrain_chans (s : State) : (s.rxDrain).chans = s.chans.map (fun x => x.drain s.params) := rfl
@[simp] theorem State.rxDrain_cfg (s : State) : (s.rxDrain).cfg = s.cfg := rfl
@[simp] theorem State.rxDrain_cfgEdit (s : State) : (s.rxDrain).cfgEdit = s.cfgEdit := rfl
@[simp] theorem State.rxDrain_mode (s : State) : (s.rxDrain).mode = s.mode := rfl
@[simp] theorem State.rxDrain_serRxq (s : State) : (s.rxDrain).serRxq = s.serRxq := rfl
@[simp] theorem State.rxDrain_serLast (s : State) : (s.rxDrain).serLast = s.serLast := rfl
@[simp] theorem State.rxDrain_serTx (s : State) : (s.rxDrain).serTx = s.serTx := rfl
@[simp] theorem State.rxDrain_nv (s : State) : (s.rxDrain).nv = s.nv := rfl
@[simp] theorem State.rxDrain_motorOut (s : State) : (s.rxDrain).motorOut = s.motorOut := rfl
@[simp] theorem State.rxDrain_hostOut (s : State) : (s.rxDrain).hostOut = s.hostOut := rfl
@[simp] theorem State.rxDrain_pending (s : State) : (s.rxDrain).pending = s.pending := rfl

/-! ### State.lossReset -/

@[simp] theorem State.lossReset_params (s : State) : (s.lossReset).params = s.params := rfl
@[simp] theorem State.lossReset_cnt (s : State) : (s.lossReset).cnt = s.cnt := rfl
@[simp] theorem State.lossReset_ovf (s : State) : (s.lossReset).ovf = s.ovf := rfl
@[simp] theorem State.lossReset_encPre (s : State) : (s.lossReset).encPre = s.encPre := rfl
@[simp] theorem State.lossReset_rxPre (s : State) : (s.lossReset).rxPre = s.rxPre := rfl
@[simp] theorem State.lossReset_encDue (s : State) : (s.lossReset).encDue = s.encDue := rfl
@[simp] theorem State.lossReset_rxDue (s : State) : (s.lossReset).rxDue = s.rxDue := rfl
@[simp] theorem State.lossReset_axes (s : State) : (s.lossReset).axes = s.axes := rfl
@[simp] theorem State.lossReset_rxPrev (s : State) : (s.lossReset).rxPrev = s.rxPrev := rfl
@[simp] theorem State.lossReset_rxPv (s : State) : (s.lossReset).rxPv = s.rxPv := rfl
@[simp] theorem State.lossReset_rxMux (s : State) : (s.lossReset).rxMux = 0 := rfl
@[simp] theorem State.lossReset_lastPair (s : State) : (s.lossReset).lastPair = s.lastPair := rfl
@[simp] theorem State.lossReset_lost (s : State) : (s.lossReset).lost = true := rfl
@[simp] theorem State.lossReset_chans (s : State) : (s.lossReset).chans = s.chans.map (fun x => { x.resetRing s.params.rxN with rxStart := 0, rxEnd := 0, rxUpd := false }) := rfl
@[simp] theorem State.lossReset_cfg (s : State) : (s.lossReset).cfg = s.cfg := rfl
@[simp] theorem State.lossReset_cfgEdit (s : State) : (s.lossReset).cfgEdit = s.cfgEdit := rfl
@[simp] theorem State.lossReset_mode (s : State) : (s.lossReset).mode = s.mode := rfl
@[simp] theorem State.lossReset_serRxq (s : State) : (s.lossReset).serRxq = s.serRxq := rfl
@[simp] theorem State.lossReset_serLast (s : State) : (s.lossReset).serLast = s.serLast := rfl
@[simp] theorem State.lossReset_serTx (s : State) : (s.lossReset).serTx = s.serTx := rfl
@[simp] theorem State.lossReset_nv (s : State) : (s.lossReset).nv = s.nv := rfl
@[simp] theorem State.lossReset_motorOut (s : State) : (s.lossReset).motorOut = s.motorOut := rfl
@[simp] theorem State.lossReset_hostOut (s : State) : (s.lossReset).hostOut = s.hostOut := rfl
@[simp] theorem State.lossReset_pending (s : State) : (s.lossReset).pending = s.pending := rfl

/-! ### State.silence -/

@[simp] theorem State.silence_params (s : State) : (s.silence).params = s.params := rfl
@[simp] theorem State.silence_cnt (s : State) : (s.silence).cnt = s.cnt := rfl
@[simp] theorem State.silence_ovf (s : State) : (s.silence).ovf = s.ovf := rfl
@[simp] theorem State.silence_encPre (s : State) : (s.silence).encPre = s.encPre := rfl
@[simp] theorem State.silence_rxPre (s : State) : (s.silence).rxPre = s.rxPre := rfl
@[simp] theorem State.silence_encDue (s : State) : (s.silence).encDue = s.encDue := rfl
@[simp] theorem State.silence_rxDue (s : State) : (s.silence).rxDue = s.rxDue := rfl
@[simp] theorem State.silence_axes (s : State) : (s.silence).axes = s.axes := rfl
@[simp] theorem State.silence_rxPrev (s : State) : (s.silence).rxPrev = s.rxPrev := rfl
@[simp] theorem State.silence_rxPv (s : State) : (s.silence).rxPv = s.rxPv := rfl
@[simp] theorem State.silence_rxMux (s : State) : (s.silence).rxMux = s.rxMux := rfl
@[simp] theorem State.silence_lastPair (s : State) : (s.silence).lastPair = s.lastPair := rfl
@[simp] theorem State.silence_lost (s : State) : (s.silence).lost = s.lost := rfl
@[simp] theorem State.silence_chans (s : State) : (s.silence).chans = s.chans.map (fun x => { x with rxCond := 0 }) := rfl
@[simp] theorem State.silence_cfg (s : State) : (s.silence).cfg = s.cfg := rfl
@[simp] theorem State.silence_cfgEdit (s : State) : (s.silence).cfgEdit = s.cfgEdit := rfl
@[simp] theorem State.silence_mode (s : State) : (s.silence).mode = s.mode := rfl
@[simp] theorem State.silence_serRxq (s : State) : (s.silence).serRxq = s.serRxq := rfl
@[simp] theorem State.silence_serLast (s : State) : (s.silence).serLast = s.serLast := rfl
@[simp] theorem State.silence_serTx (s : State) : (s.silence).serTx = s.serTx := rfl
@[simp] theorem State.silence_nv (s : State) : (s.silence).nv = s.nv := rfl
@[simp] theorem State.silence_motorOut (s : State) : (s.silence).motorOut = s.motorOut := rfl
@[simp] theorem State.silence_hostOut (s : State) : (s.silence).hostOut = s.hostOut := rfl
@[simp] theorem State.silence_pending (s : State) : (s.silence).pending = s.pending := rfl

/-! ### State.conditionAll -/

@[simp] theorem State.conditionAll_params (s : State) (e : Tick) : (s.conditionAll e).params = s.params := rfl
@[simp] theorem State.conditionAll_cnt (s : State) (e : Tick) : (s.conditionAll e).cnt = s.cnt := rfl
@[simp] theorem State.conditionAll_ovf (s : State) (e : Tick) : (s.conditionAll e).ovf = s.ovf := rfl
@[simp] theorem State.conditionAll_encPre (s : State) (e : Tick) : (s.conditionAll e).encPre = s.encPre := rfl
@[simp] theorem State.conditionAll_rxPre (s : State) (e : Tick) : (s.conditionAll e).rxPre = s.rxPre := rfl
@[simp] theorem State.conditionAll_encDue (s : State) (e : Tick) : (s.conditionAll e).encDue = s.encDue := rfl
@[simp] theorem State.conditionAll_rxDue (s : State) (e : Tick) : (s.conditionAll e).rxDue = s.rxDue := rfl
@[simp] theorem State.conditionAll_axes (s : State) (e : Tick) : (s.conditionAll e).axes = s.axes := rfl
@[simp] theorem State.conditionAll_rxPrev (s : State) (e : Tick) : (s.conditionAll e).rxPrev = s.rxPrev := rfl
@[simp] theorem State.conditionAll_rxPv (s : State) (e : Tick) : (s.conditionAll e).rxPv = s.rxPv := rfl
@[simp] theorem State.conditionAll_rxMux (s : State) (e : Tick) : (s.conditionAll e).rxMux = s.rxMux := rfl
@[simp] theorem State.conditionAll_lastPair (s : State) (e : Tick) : (s.conditionAll e).lastPair = s.lastPair := rfl
@[simp] theorem State.conditionAll_lost (s : State) (e : Tick) : (s.conditionAll e).lost = s.lost := rfl
@[simp] theorem State.conditionAll_chans (s : State) (e : Tick) : (s.conditionAll e).chans = s.chans.mapIdx (fun c x => { x with rxCond := wrap16 (fadeValue s.params e (x.condValue s.params c)) }) := rfl
@[simp] theorem State.conditionAll_cfg (s : State) (e : Tick) : (s.conditionAll e).cfg = s.cfg := rfl
@[simp] theorem State.conditionAll_cfgEdit (s : State) (e : Tick) : (s.conditionAll e).cfgEdit = s.cfgEdit := rfl
@[simp] theorem State.conditionAll_mode (s : State) (e : Tick) : (s.conditionAll e).mode = s.mode := rfl
@[simp] theorem State.conditionAll_serRxq (s : State) (e : Tick) : (s.conditionAll e).serRxq = s.serRxq := rfl
@[simp] theorem State.conditionAll_serLast (s : State) (e : Tick) : (s.conditionAll e).serLast = s.serLast := rfl
@[simp] theorem State.conditionAll_serTx (s : State) (e : Tick) : (s.conditionAll e).serTx = s.serTx := rfl
@[simp] theorem State.conditionAll_nv (s : State) (e : Tick) : (s.conditionAll e).nv = s.nv := rfl
@[simp] theorem State.conditionAll_motorOut (s : State) (e : Tick) : (s.conditionAll e).motorOut = s.motorOut := rfl
@[simp] theorem State.conditionAll_hostOut (s : State) (e : Tick) : (s.conditionAll e).hostOut = s.hostOut := rfl
@[simp] theorem State.conditionAll_pending (s : State) (e : Tick) : (s.conditionAll e).pending = s.pending := rfl

/-! ### State.targets -/

@[simp] theorem State.targets_params (s : State) : (s.targets).params = s.params := rfl
@[simp] theorem State.targets_cnt (s : State) : (s.targets).cnt = s.cnt := rfl
@[simp] theorem State.targets_ovf (s : State) : (s.targets).ovf = s.ovf := rfl
@[simp] theorem State.targets_encPre (s : State) : (s.targets).encPre = s.encPre := rfl
@[simp] theorem State.targets_rxPre (s : State) : (s.targets).rxPre = s.rxPre := rfl
@[simp] theorem State.targets_encDue (s : State) : (s.targets).encDue = s.encDue := rfl
@[simp] theorem State.targets_rxDue (s : State) : (s.targets).rxDue = s.rxDue := rfl
@[simp] theorem State.targets_axes (s : State) : (s.targets).axes = s.axes.mapIdx (fun a x => { x with pidTgt := wrap32 (s.condOf (s.params.axChOf a) * 2 ^ s.params.sfrac) }) := rfl
@[simp] theorem State.targets_rxPrev (s : State) : (s.targets).rxPrev = s.rxPrev := rfl
@[simp] theorem State.targets_rxPv (s : State) : (s.targets).rxPv = s.rxPv := rfl
@[simp] theorem State.targets_rxMux (s : State) : (s.targets).rxMux = s.rxMux := rfl
@[simp] theorem State.targets_lastPair (s : State) : (s.targets).lastPair = s.lastPair := rfl
@[simp] theorem State.targets_lost (s : State) : (s.targets).lost = s.lost := rfl
@[simp] theorem State.targets_chans (s : State) : (s.targets).chans = s.chans := rfl
@[simp] theorem State.targets_cfg (s : State) : (s.targets).cfg = s.cfg := rfl
@[simp] theorem State.targets_cfgEdit (s : State) : (s.targets).cfgEdit = s.cfgEdit := rfl
@[simp] theorem State.targets_mode (s : State) : (s.targets).mode = s.mode := rfl
@[simp] theorem State.targets_serRxq (s : State) : (s.targets).serRxq = s.serRxq := rfl
@[simp] theorem State.targets_serLast (s : State) : (s.targets).serLast = s.serLast := rfl
@[simp] theorem State.targets_serTx (s : State) : (s.targets).serTx = s.serTx := rfl
@[simp] theorem State.targets_nv (s : State) : (s.targets).nv = s.nv := rfl
@[simp] theorem State.targets_motorOut (s : State) : (s.targets).motorOut = s.motorOut := rfl
@[simp] theorem State.targets_hostOut (s : State) : (s.targets).hostOut = s.hostOut := rfl
@[simp] theorem State.targets_pending (s : State) : (s.targets).pending = s.pending := rfl

/-! ### State.encFrame -/

@[simp] theorem State.encFrame_params (s : State) : (s.encFrame).params = s.params := rfl
@[simp] theorem State.encFrame_cnt (s : State) : (s.encFrame).cnt = s.cnt := rfl
@[simp] theorem State.encFrame_ovf (s : State) : (s.encFrame).ovf = s.ovf := rfl
@[simp] theorem State.encFrame_encPre (s : State) : (s.encFrame).encPre = s.encPre := rfl
@[simp] theorem State.encFrame_rxPre (s : State) : (s.encFrame).rxPre = s.rxPre := rfl
@[simp] theorem State.encFrame_encDue (s : State) : (s.encFrame).encDue = s.encDue := rfl
@[simp] theorem State.encFrame_rxDue (s : State) : (s.encFrame).rxDue = s.rxDue := rfl
@[simp] theorem State.encFrame_axes (s : State) : (s.encFrame).axes = s.axes.mapIdx (fun a x => x.frame s.params (s.axisCfg a)) := rfl
@[simp] theorem State.encFrame_rxPrev (s : State) : (s.encFrame).rxPrev = s.rxPrev := rfl
@[simp] theorem State.encFrame_rxPv (s : State) : (s.encFrame).rxPv = s.rxPv := rfl
@[simp] theorem State.encFrame_rxMux (s : State) : (s.encFrame).rxMux = s.rxMux := rfl
@[simp] theorem State.encFrame_lastPair (s : State) : (s.encFrame).lastPair = s.lastPair := rfl
@[simp] theorem State.encFrame_lost (s : State) : (s.encFrame).lost = s.lost := rfl
@[simp] theorem State.encFrame_chans (s : State) : (s.encFrame).chans = s.chans := rfl
@[simp] theorem State.encFrame_cfg (s : State) : (s.encFrame).cfg = s.cfg := rfl
@[simp] theorem State.encFrame_cfgEdit (s : State) : (s.encFrame).cfgEdit = s.cfgEdit := rfl
@[simp] theorem State.encFrame_mode (s : State) : (s.encFrame).mode = s.mode := rfl
@[simp] theorem State.encFrame_serRxq (s : State) : (s.encFrame).serRxq = s.serRxq := rfl
@[simp] theorem State.encFrame_serLast (s : State) : (s.encFrame).serLast = s.serLast := rfl
@[simp] theorem State.encFrame_serTx (s : State) : (s.encFrame).serTx = s.serTx := rfl
@[simp] theorem State.encFrame_nv (s : State) : (s.encFrame).nv = s.nv := rfl
@[simp] theorem State.encFrame_motorOut (s : State) : (s.encFrame).motorOut = s.motorOut := rfl
@[simp] theorem State.encFrame_hostOut (s : State) : (s.encFrame).hostOut = s.hostOut := rfl
@[simp] theorem State.encFrame_pending (s : State) : (s.encFrame).pending = s.pending := rfl

/-! ### State.readParam -/

@[simp] theorem State.readParam_params (s : State) (a : Nat) (f : Field) : (s.readParam a f).params = s.params := rfl
@[simp] theorem State.readParam_cnt (s : State) (a : Nat) (f : Field) : (s.readParam a f).cnt = s.cnt := rfl
@[simp] theorem State.readParam_ovf (s : State) (a : Nat) (f : Field) : (s.readParam a f).ovf = s.ovf := rfl
@[simp] theorem State.readParam_encPre (s : State) (a : Nat) (f : Field) : (s.readParam a f).encPre = s.encPre := rfl
@[simp] theorem State.readParam_rxPre (s : State) (a : Nat) (f : Field) : (s.readParam a f).rxPre = s.rxPre := rfl
@[simp] theorem State.readParam_encDue (s : State) (a : Nat) (f : Field) : (s.readParam a f).encDue = s.encDue := rfl
@[simp] theorem State.readParam_rxDue (s : State) (a : Nat) (f : Field) : (s.readParam a f).rxDue = s.rxDue := rfl
@[simp] theorem State.readParam_axes (s : State) (a : Nat) (f : Field) : (s.readParam a f).axes = s.axes := rfl
@[simp] theorem State.readParam_rxPrev (s : State) (a : Nat) (f : Field) : (s.readParam a f).rxPrev = s.rxPrev := rfl
@[simp] theorem State.readParam_rxPv (s : State) (a : Nat) (f : Field) : (s.readParam a f).rxPv = s.rxPv := rfl
@[simp] theorem State.readParam_rxMux (s : State) (a : Nat) (f : Field) : (s.readParam a f).rxMux = s.rxMux := rfl
@[simp] theorem State.readParam_lastPair (s : State) (a : Nat) (f : Field) : (s.readParam a f).lastPair = s.lastPair := rfl
@[simp] theorem State.readParam_lost (s : State) (a : Nat) (f : Field) : (s.readParam a f).lost = s.lost := rfl
@[simp] theorem State.readParam_chans (s : State) (a : Nat) (f : Field) : (s.readParam a f).chans = s.chans := rfl
@[simp] theorem State.readParam_cfg (s : State) (a : Nat) (f : Field) : (s.readParam a f).cfg = s.cfg := rfl
@[simp] theorem State.readParam_cfgEdit (s : State) (a : Nat) (f : Field) : (s.readParam a f).cfgEdit = s.cfgEdit := rfl
@[simp] theorem State.readParam_mode (s : State) (a : Nat) (f : Field) : (s.readParam a f).mode = s.mode := rfl
@[simp] theorem State.readParam_serRxq (s : State) (a : Nat) (f : Field) : (s.readParam a f).serRxq = s.serRxq := rfl
@[simp] theorem State.readParam_serLast (s : State) (a : Nat) (f : Field) : (s.readParam a f).serLast = s.serLast := rfl
@[simp] theorem State.readParam_serTx (s : State) (a : Nat) (f : Field) : (s.readParam a f).serTx = s.serTx ++ Config.ackByte :: leBytes f.size (s.cfgEdit.field a f) := rfl
@[simp] theorem State.readParam_nv (s : State) (a : Nat) (f : Field) : (s.readParam a f).nv = s.nv := rfl
@[simp] theorem State.readParam_motorOut (s : State) (a : Nat) (f : Field) : (s.readParam a f).motorOut = s.motorOut := rfl
@[simp] theorem State.readParam_hostOut (s : State) (a : Nat) (f : Field) : (s.readParam a f).hostOut = s.hostOut := rfl
@[simp] theorem State.readParam_pending (s : State) (a : Nat) (f : Field) : (s.readParam a f).pending = s.pending := rfl

/-! ### State.writeParam -/

@[simp] theorem State.writeParam_params (s : State) (a : Nat) (f : Field) (v : Word) : (s.writeParam a f v).params = s.params := rfl
@[simp] theorem State.writeParam_cnt (s : State) (a : Nat) (f : Field) (v : Word) : (s.writeParam a f v).cnt = s.cnt := rfl
@[simp] theorem State.writeParam_ovf (s : State) (a : Nat) (f : Field) (v : Word) : (s.writeParam a f v).ovf = s.ovf := rfl
@[simp] theorem State.writeParam_encPre (s : State) (a : Nat) (f : Field) (v : Word) : (s.writeParam a f v).encPre = s.encPre := rfl
@[simp] theorem State.writeParam_rxPre (s : State) (a : Nat) (f : Field) (v : Word) : (s.writeParam a f v).rxPre = s.rxPre := rfl
@[simp] theorem State.writeParam_encDue (s : State) (a : Nat) (f : Field) (v : Word) : (s.writeParam a f v).encDue = s.encDue := rfl
@[simp] theorem State.writeParam_rxDue (s : State) (a : Nat) (f : Field) (v : Word) : (s.writeParam a f v).rxDue = s.rxDue := rfl
@[simp] theorem State.writeParam_axes (s : State) (a : Nat) (f : Field) (v : Word) : (s.writeParam a f v).axes = s.axes := rfl
@[simp] theorem State.writeParam_rxPrev (s : State) (a : Nat) (f : Field) (v : Word) : (s.writeParam a f v).rxPrev = s.rxPrev := rfl
@[simp] theorem State.writeParam_rxPv (s : State) (a : Nat) (f : Field) (v : Word) : (s.writeParam a f v).rxPv = s.rxPv := rfl
@[simp] theorem State.writeParam_rxMux (s : State) (a : Nat) (f : Field) (v : Word) : (s.writeParam a f v).rxMux = s.rxMux := rfl
@[simp] theorem State.writeParam_lastPair (s : State) (a : Nat) (f : Field) (v : Word) : (s.writeParam a f v).lastPair = s.lastPair := rfl
@[simp] theorem State.writeParam_lost (s : State) (a : Nat) (f : Field) (v : Word) : (s.writeParam a f v).lost = s.lost := rfl
@[simp] theorem State.writeParam_chans (s : State) (a : Nat) (f : Field) (v : Word) : (s.writeParam a f v).chans = s.chans := rfl
@[simp] theorem State.writeParam_cfg (s : State) (a : Nat) (f : Field) (v : Word) : (s.writeParam a f v).cfg = s.cfg := rfl
@[simp] theorem State.writeParam_cfgEdit (s : State) (a : Nat) (f : Field) (v : Word) : (s.writeParam a f v).cfgEdit = s.cfgEdit.setField a f v := rfl
@[simp] theorem State.writeParam_mode (s : State) (a : Nat) (f : Field) (v : Word) : (s.writeParam a f v).mode = s.mode := rfl
@[simp] theorem State.writeParam_serRxq (s : State) (a : Nat) (f : Field) (v : Word) : (s.writeParam a f v).serRxq = s.serRxq := rfl
@[simp] theorem State.writeParam_serLast (s : State) (a : Nat) (f : Field) (v : Word) : (s.writeParam a f v).serLast = s.serLast := rfl
@[simp] theorem State.writeParam_serTx (s : State) (a : Nat) (f : Field) (v : Word) : (s.writeParam a f v).serTx = s.serTx ++ [Config.ackByte] := rfl
@[simp] theorem State.writeParam_nv (s : State) (a : Nat) (f : Field) (v : Word) : (s.writeParam a f v).nv = s.nv := rfl
@[simp] theorem State.writeParam_motorOut (s : State) (a : Nat) (f : Field) (v : Word) : (s.writeParam a f v).motorOut = s.motorOut := rfl
@[simp] theorem State.writeParam_hostOut (s : State) (a : Nat) (f : Field) (v : Word) : (s.writeParam a f v).hostOut = s.hostOut := rfl
@[simp] theorem State.writeParam_pending (s : State) (a : Nat) (f : Field) (v : Word) : (s.writeParam a f v).pending = s.pending := rfl

/-! ### State.finish -/

@[simp] theorem State.finish_params (s : State) : (s.finish).params = s.params := rfl
@[simp] theorem State.finish_cnt (s : State) : (s.finish).cnt = s.cnt := rfl
@[simp] theorem State.finish_ovf (s : State) : (s.finish).ovf = s.ovf := rfl
@[simp] theorem State.finish_encPre (s : State) : (s.finish).encPre = s.encPre := rfl
@[simp] theorem State.finish_rxPre (s : State) : (s.finish).rxPre = s.rxPre := rfl
@[simp] theorem State.finish_encDue (s : State) : (s.finish).encDue = s.encDue := rfl
@[simp] theorem State.finish_rxDue (s : State) : (s.finish).rxDue = s.rxDue := rfl
@[simp] theorem State.finish_axes (s : State) : (s.finish).axes = s.axes := rfl
@[simp] theorem State.finish_rxPrev (s : State) : (s.finish).rxPrev = s.rxPrev := rfl
@[simp] theorem State.finish_rxPv (s : State) : (s.finish).rxPv = s.rxPv := rfl
@[simp] theorem State.finish_rxMux (s : State) : (s.finish).rxMux = s.rxMux := rfl
@[simp] theorem State.finish_lastPair (s : State) : (s.finish).lastPair = s.lastPair := rfl
@[simp] theorem State.finish_lost (s : State) : (s.finish).lost = s.lost := rfl
@[simp] theorem State.finish_chans (s : State) : (s.finish).chans = s.chans := rfl
@[simp] theorem State.finish_cfg (s : State) : (s.finish).cfg = s.cfg := rfl
@[simp] theorem State.finish_cfgEdit (s : State) : (s.finish).cfgEdit = s.cfgEdit := rfl
@[simp] theorem State.finish_mode (s : State) : (s.finish).mode = .finished := rfl
@[simp] theorem State.finish_serRxq (s : State) : (s.finish).serRxq = s.serRxq := rfl
@[simp] theorem State.finish_serLast (s : State) : (s.finish).serLast = s.serLast := rfl
@[simp] theorem State.finish_serTx (s : State) : (s.finish).serTx = s.serTx ++ [Config.ackByte] := rfl
@[simp] theorem State.finish_nv (s : State) : (s.finish).nv = NvStore.saved s.cfgEdit := rfl
@[simp] theorem State.finish_motorOut (s : State) : (s.finish).motorOut = s.motorOut := rfl
@[simp] theorem State.finish_hostOut (s : State) : (s.finish).hostOut = s.hostOut := rfl
@[simp] theorem State.finish_pending (s : State) : (s.finish).pending = s.pending := rfl

/-! ### State.resetSequence -/

@[simp] theorem State.resetSequence_params (s : State) : (s.resetSequence).params = s.params := rfl
@[simp] theorem State.resetSequence_cnt (s : State) : (s.resetSequence).cnt = 0 := rfl
@[simp] theorem State.resetSequence_ovf (s : State) : (s.resetSequence).ovf = 0 := rfl
@[simp] theorem State.resetSequence_encPre (s : State) : (s.resetSequence).encPre = 0 := rfl
@[simp] theorem State.resetSequence_rxPre (s : State) : (s.resetSequence).rxPre = 0 := rfl
@[simp] theorem State.resetSequence_encDue (s : State) : (s.resetSequence).encDue = false := rfl
@[simp] theorem State.resetSequence_rxDue (s : State) : (s.resetSequence).rxDue = false := rfl
@[simp] theorem State.resetSequence_axes (s : State) : (s.resetSequence).axes = List.replicate s.params.nax (Axis.initial s.params) := rfl
@[simp] theorem State.resetSequence_rxPrev (s : State) : (s.resetSequence).rxPrev = 0 := rfl
@[simp] theorem State.resetSequence_rxPv (s : State) : (s.resetSequence).rxPv = false := rfl
@[simp] theorem State.resetSequence_rxMux (s : State) : (s.resetSequence).rxMux = 0 := rfl
@[simp] theorem State.resetSequence_lastPair (s : State) : (s.resetSequence).lastPair = 0 := rfl
@[simp] theorem State.resetSequence_lost (s : State) : (s.resetSequence).lost = true := rfl
@[simp] theorem State.resetSequence_chans (s : State) : (s.resetSequence).chans = List.replicate s.params.nch (Channel.initial s.params) := rfl
@[simp] theorem State.resetSequence_cfg (s : State) : (s.resetSequence).cfg = loadConfig s.params s.nv := rfl
@[simp] theorem State.resetSequence_cfgEdit (s : State) : (s.resetSequence).cfgEdit = loadConfig s.params s.nv := rfl
@[simp] theorem State.resetSequence_mode (s : State) : (s.resetSequence).mode = .normal := rfl
@[simp] theorem State.resetSequence_serRxq (s : State) : (s.resetSequence).serRxq = [] := rfl
@[simp] theorem State.resetSequence_serLast (s : State) : (s.resetSequence).serLast = 0 := rfl
@[simp] theorem State.resetSequence_serTx (s : State) : (s.resetSequence).serTx = s.serTx := rfl
@[simp] theorem State.resetSequence_nv (s : State) : (s.resetSequence).nv = s.nv := rfl
@[simp] theorem State.resetSequence_motorOut (s : State) : (s.resetSequence).motorOut = s.motorOut ++ (List.replicate s.params.nax (Axis.initial s.params)).mapIdx (fun a x => (a, x.motorCmd)) := rfl
@[simp] theorem State.resetSequence_hostOut (s : State) : (s.resetSequence).hostOut = s.hostOut := rfl
@[simp] theorem State.resetSequence_pending (s : State) : (s.resetSequence).pending = s.pending := rfl

/-! ### Axis.drain -/

@[simp] theorem Axis.drain_encPrev (x : Axis) (w : Nat) : (x.drain w).encPrev = x.encPrev := rfl
@[simp] theorem Axis.drain_encPv (x : Axis) (w : Nat) : (x.drain w).encPv = x.encPv := rfl
@[simp] theorem Axis.drain_encCount (x : Axis) (w : Nat) : (x.drain w).encCount = 0 := rfl
@[simp] theorem Axis.drain_encWin (x : Axis) (w : Nat) : (x.drain w).encWin = x.encWin.set x.encIdx x.encCount := rfl
@[simp] theorem Axis.drain_encSum (x : Axis) (w : Nat) : (x.drain w).encSum = wrap32 (x.encSum.toInt - (x.encWin.getD x.encIdx 0).toInt + x.encCount.toInt) := rfl
@[simp] theorem Axis.drain_encIdx (x : Axis) (w : Nat) : (x.drain w).encIdx = (x.encIdx + 1) % w := rfl
@[simp] theorem Axis.drain_encSpeed (x : Axis) (w : Nat) : (x.drain w).encSpeed = x.encSpeed := rfl
@[simp] theorem Axis.drain_pidOut (x : Axis) (w : Nat) : (x.drain w).pidOut = x.pidOut := rfl
@[simp] theorem Axis.drain_pidInt (x : Axis) (w : Nat) : (x.drain w).pidInt = x.pidInt := rfl
@[simp] theorem Axis.drain_pidLast (x : Axis) (w : Nat) : (x.drain w).pidLast = x.pidLast := rfl
@[simp] theorem Axis.drain_pidTgt (x : Axis) (w : Nat) : (x.drain w).pidTgt = x.pidTgt := rfl
@[simp] theorem Axis.drain_motorCmd (x : Axis) (w : Nat) : (x.drain w).motorCmd = x.motorCmd := rfl

/-! ### Axis.updateSpeed -/

@[simp] theorem Axis.updateSpeed_encPrev (x : Axis) (p : Params) (w : Nat) : (x.updateSpeed p w).encPrev = x.encPrev := rfl
@[simp] theorem Axis.updateSpeed_encPv (x : Axis) (p : Params) (w : Nat) : (x.updateSpeed p w).encPv = x.encPv := rfl
@[simp] theorem Axis.updateSpeed_encCount (x : Axis) (p : Params) (w : Nat) : (x.updateSpeed p w).encCount = x.encCount := rfl
@[simp] theorem Axis.updateSpeed_encWin (x : Axis) (p : Params) (w : Nat) : (x.updateSpeed p w).encWin = x.encWin := rfl
@[simp] theorem Axis.updateSpeed_encSum (x : Axis) (p : Params) (w : Nat) : (x.updateSpeed p w).encSum = x.encSum := rfl
@[simp] theorem Axis.updateSpeed_encIdx (x : Axis) (p : Params) (w : Nat) : (x.updateSpeed p w).encIdx = x.encIdx := rfl
@[simp] theorem Axis.updateSpeed_encSpeed (x : Axis) (p : Params) (w : Nat) : (x.updateSpeed p w).encSpeed = wrap32 (tdiv (x.encSum.toInt * 2 ^ p.sfrac) ((w : Int) * (p.encCalDiv : Int))) := rfl
@[simp] theorem Axis.updateSpeed_pidOut (x : Axis) (p : Params) (w : Nat) : (x.updateSpeed p w).pidOut = x.pidOut := rfl
@[simp] theorem Axis.updateSpeed_pidInt (x : Axis) (p : Params) (w : Nat) : (x.updateSpeed p w).pidInt = x.pidInt := rfl
@[simp] theorem Axis.updateSpeed_pidLast (x : Axis) (p : Params) (w : Nat) : (x.updateSpeed p w).pidLast = x.pidLast := rfl
@[simp] theorem Axis.updateSpeed_pidTgt (x : Axis) (p : Params) (w : Nat) : (x.updateSpeed p w).pidTgt = x.pidTgt := rfl
@[simp] theorem Axis.updateSpeed_motorCmd (x : Axis) (p : Params) (w : Nat) : (x.updateSpeed p w).motorCmd = x.motorCmd := rfl

/-! ### Axis.pidRest -/

@[simp] theorem Axis.pidRest_encPrev (x : Axis) (p : Params) (g : AxisCfg) : (x.pidRest p g).encPrev = x.encPrev := rfl
@[simp] theorem Axis.pidRest_encPv (x : Axis) (p : Params) (g : AxisCfg) : (x.pidRest p g).encPv = x.encPv := rfl
@[simp] theorem Axis.pidRest_encCount (x : Axis) (p : Params) (g : AxisCfg) : (x.pidRest p g).encCount = x.encCount := rfl
@[simp] theorem Axis.pidRest_encWin (x : Axis) (p : Params) (g : AxisCfg) : (x.pidRest p g).encWin = x.encWin := rfl
@[simp] theorem Axis.pidRest_encSum (x : Axis) (p : Params) (g : AxisCfg) : (x.pidRest p g).encSum = x.encSum := rfl
@[simp] theorem Axis.pidRest_encIdx (x : Axis) (p : Params) (g : AxisCfg) : (x.pidRest p g).encIdx = x.encIdx := rfl
@[simp] theorem Axis.pidRest_encSpeed (x : Axis) (p : Params) (g : AxisCfg) : (x.pidRest p g).encSpeed = x.encSpeed := rfl
@[simp] theorem Axis.pidRest_pidOut (x : Axis) (p : Params) (g : AxisCfg) : (x.pidRest p g).pidOut = 0 := rfl
@[simp] theorem Axis.pidRest_pidInt (x : Axis) (p : Params) (g : AxisCfg) : (x.pidRest p g).pidInt = 0 := rfl
@[simp] theorem Axis.pidRest_pidLast (x : Axis) (p : Params) (g : AxisCfg) : (x.pidRest p g).pidLast = 0 := rfl
@[simp] theorem Axis.pidRest_pidTgt (x : Axis) (p : Params) (g : AxisCfg) : (x.pidRest p g).pidTgt = x.pidTgt := rfl
@[simp] theorem Axis.pidRest_motorCmd (x : Axis) (p : Params) (g : AxisCfg) : (x.pidRest p g).motorCmd = motorOf p g.rev 0 := rfl

/-! ### Axis.pidDrive -/

@[simp] theorem Axis.pidDrive_encPrev (x : Axis) (p : Params) (g : AxisCfg) (m : Word) : (x.pidDrive p g m).encPrev = x.encPrev := rfl
@[simp] theorem Axis.pidDrive_encPv (x : Axis) (p : Params) (g : AxisCfg) (m : Word) : (x.pidDrive p g m).encPv = x.encPv := rfl
@[simp] theorem Axis.pidDrive_encCount (x : Axis) (p : Params) (g : AxisCfg) (m : Word) : (x.pidDrive p g m).encCount = x.encCount := rfl
@[simp] theorem Axis.pidDrive_encWin (x : Axis) (p : Params) (g : AxisCfg) (m : Word) : (x.pidDrive p g m).encWin = x.encWin := rfl
@[simp] theorem Axis.pidDrive_encSum (x : Axis) (p : Params) (g : AxisCfg) (m : Word) : (x.pidDrive p g m).encSum = x.encSum := rfl
@[simp] theorem Axis.pidDrive_encIdx (x : Axis) (p : Params) (g : AxisCfg) (m : Word) : (x.pidDrive p g m).encIdx = x.encIdx := rfl
@[simp] theorem Axis.pidDrive_encSpeed (x : Axis) (p : Params) (g : AxisCfg) (m : Word) : (x.pidDrive p g m).encSpeed = x.encSpeed := rfl
@[simp] theorem Axis.pidDrive_pidOut (x : Axis) (p : Params) (g : AxisCfg) (m : Word) : (x.pidDrive p g m).pidOut = x.nextOut p g (wrap32 (x.pidTgt.toInt - m.toInt)) (wrap32 ((wrap32 (x.pidTgt.toInt - m.toInt)).toInt - x.pidLast.toInt)) := rfl
@[simp] theorem Axis.pidDrive_pidInt (x : Axis) (p : Params) (g : AxisCfg) (m : Word) : (x.pidDrive p g m).pidInt = x.nextInt p g (wrap32 (x.pidTgt.toInt - m.toInt)) := rfl
@[simp] theorem Axis.pidDrive_pidLast (x : Axis) (p : Params) (g : AxisCfg) (m : Word) : (x.pidDrive p g m).pidLast = wrap32 (x.pidTgt.toInt - m.toInt) := rfl
@[simp] theorem Axis.pidDrive_pidTgt (x : Axis) (p : Params) (g : AxisCfg) (m : Word) : (x.pidDrive p g m).pidTgt = x.pidTgt := rfl
@[simp] theorem Axis.pidDrive_motorCmd (x : Axis) (p : Params) (g : AxisCfg) (m : Word) : (x.pidDrive p g m).motorCmd = motorOf p g.rev (blendOutput g.blend (x.pidDrive p g m).pidOut x.pidTgt) := rfl

/-! ### Channel.insert -/

@[simp] theorem Channel.insert_rxStart (x : Channel) (n : Nat) (v : Tick) : (x.insert n v).rxStart = x.rxStart := rfl
@[simp] theorem Channel.insert_rxEnd (x : Channel) (n : Nat) (v : Tick) : (x.insert n v).rxEnd = x.rxEnd := rfl
@[simp] theorem Channel.insert_rxUpd (x : Channel) (n : Nat) (v : Tick) : (x.insert n v).rxUpd = x.rxUpd := rfl
@[simp] theorem Channel.insert_ringVal (x : Channel) (n : Nat) (v : Tick) : (x.insert n v).ringVal = x.ringVal.set x.ringHead v := rfl
@[simp] theorem Channel.insert_ringOrd (x : Channel) (n : Nat) (v : Tick) : (x.insert n v).ringOrd = repairOrder n (x.ringVal.set x.ringHead v) x.ringOrd x.ringHead := rfl
@[simp] theorem Channel.insert_ringHead (x : Channel) (n : Nat) (v : Tick) : (x.insert n v).ringHead = (x.ringHead + 1) % n := rfl
@[simp] theorem Channel.insert_rxCond (x : Channel) (n : Nat) (v : Tick) : (x.insert n v).rxCond = x.rxCond := rfl

/-! ### Channel.resetRing -/

@[simp] theorem Channel.resetRing_rxStart (x : Channel) (n : Nat) : (x.resetRing n).rxStart = x.rxStart := rfl
@[simp] theorem Channel.resetRing_rxEnd (x : Channel) (n : Nat) : (x.resetRing n).rxEnd = x.rxEnd := rfl
@[simp] theorem Channel.resetRing_rxUpd (x : Channel) (n : Nat) : (x.resetRing n).rxUpd = x.rxUpd := rfl
@[simp] theorem Channel.resetRing_ringVal (x : Channel) (n : Nat) : (x.resetRing n).ringVal = List.replicate n 0 := rfl
@[simp] theorem Channel.resetRing_ringOrd (x : Channel) (n : Nat) : (x.resetRing n).ringOrd = List.range n := rfl
@[simp] theorem Channel.resetRing_ringHead (x : Channel) (n : Nat) : (x.resetRing n).ringHead = 0 := rfl
@[simp] theorem Channel.resetRing_rxCond (x : Channel) (n : Nat) : (x.resetRing n).rxCond = x.rxCond := rfl

end Sys2Proof.Machine
end

