-- ==== Sys2Proof/Laws/Ops.lean ====
section
/-! SUPPORT. For each shared operation, once, everything it can do: later proofs cite these instead of
unfolding the operation. -/

namespace Sys2Proof.Machine

/-! ## Lists -/

/-- Modifying an element that is there sets it. -/
theorem modify_eq_set {α : Type} {l : List α} {n : Nat} {x : α} (f : α → α) (h : l[n]? = some x) :
    l.modify n f = l.set n (f x) := by
  apply List.ext_getElem?
  intro i
  rw [List.getElem?_modify, List.getElem?_set]
  by_cases hi : n = i
  · subst hi
    obtain ⟨hl, hx⟩ := List.getElem?_eq_some_iff.mp h
    simp [hl, hx]
  · simp [hi]

/-! ## Sequences of operations -/

/-- A sequence in two parts. -/
theorem performAll_append (is js : List Instr) (s : State) :
    performAll (is ++ js) s =
      match performAll is s with
      | .next t => performAll js t
      | .fault f => .fault f
      | .refused r => .refused r := by
  induction is generalizing s with
  | nil => rfl
  | cons i is ih =>
    simp only [List.cons_append, performAll]
    cases exec i s <;> simp [ih]

/-- A sequence whose first operation completes. -/
theorem performAll_cons {i : Instr} {s t : State} (is : List Instr) (h : exec i s = .next t) :
    performAll (i :: is) s = performAll is t := by
  rw [performAll, h]

/-- A run's result is that of the state its operations lead to (R468). -/
theorem run_next {is : List Instr} {s t : State} (h : performAll is s = .next t) :
    run is s = .next (s.resultSince t) := by
  rw [run, h]

/-- Where the output histories only grew, the result holds exactly what was added to them (R468). -/
theorem resultSince_append {s t : State} (bs : List Byte) (ms : List (Nat × BitVec 8))
    (hb : t.serTx = s.serTx ++ bs) (hm : t.motorOut = s.motorOut ++ ms) :
    s.resultSince t = { final := t, emitted := bs, motorWritten := ms } := by
  simp [State.resultSince, hb, hm]

/-! ## Ticks -/

/-- `n + 1` ticks are one tick and `n` more (R141). -/
theorem tickTimes_succ (n : Nat) (s : State) : s.tickTimes (n + 1) = s.tickOnce.tickTimes n := by
  simp only [State.tickTimes, State.tickOnce]
  split <;> rfl

/-- Ticks add up (R141). -/
theorem tickTimes_add (m n : Nat) (s : State) : s.tickTimes (m + n) = (s.tickTimes m).tickTimes n := by
  induction m generalizing s with
  | zero => simp [State.tickTimes]
  | succ m ih => rw [Nat.add_right_comm, tickTimes_succ, tickTimes_succ, ih]

/-- With CNT in range the counter wraps exactly at its last value (R140). -/
theorem counterWraps_eq {s : State} (h : s.cnt < 2 ^ s.params.cb) :
    s.counterWraps = decide (s.cnt + 1 = 2 ^ s.params.cb) := by
  rw [State.counterWraps]
  congr 1
  apply propext
  constructor
  · intro hm
    have := Nat.le_of_dvd (by omega) (Nat.dvd_of_mod_eq_zero hm)
    omega
  · intro he
    rw [he, Nat.mod_self]

/-- Ticks change the timer, the prescalers and the frame flags, and clear no flag (R410). -/
theorem tickTimes_frame (n : Nat) (s : State) :
    s.tickTimes n = { s with
        cnt := (s.tickTimes n).cnt, ovf := (s.tickTimes n).ovf, encPre := (s.tickTimes n).encPre,
        rxPre := (s.tickTimes n).rxPre, encDue := (s.tickTimes n).encDue, rxDue := (s.tickTimes n).rxDue } ∧
      (s.encDue = true → (s.tickTimes n).encDue = true) ∧ (s.rxDue = true → (s.tickTimes n).rxDue = true) := by
  induction n generalizing s with
  | zero => exact ⟨rfl, id, id⟩
  | succ n ih =>
    rw [tickTimes_succ, State.tickOnce]
    split
    · obtain ⟨h1, h2, h3⟩ := ih s.wrapTick
      refine ⟨h1, fun h => h2 ?_, fun h => h3 ?_⟩ <;> simp [raiseDue, h]
    · exact ih s.countTick

/-- One count of a prescaler, as a number: it advances by 1 modulo its limit, or modulo 2^16 where the limit is
larger (R32, R140, R403). -/
theorem prescale_toNat {pre : BitVec 16} {limit : Nat} (h : pre.toNat < limit) :
    (prescale pre limit).toNat = (pre.toNat + 1) % min limit 65536 := by
  have := pre.isLt
  rw [prescale]
  split
  · rename_i he
    rw [he, Nat.min_eq_left (by omega), Nat.mod_self]
    rfl
  · rw [BitVec.toNat_add, show (1 : BitVec 16).toNat = 1 from rfl]
    rcases Nat.le_total limit 65536 with hl | hl
    · rw [Nat.min_eq_left hl, Nat.mod_eq_of_lt (by omega), Nat.mod_eq_of_lt (by omega)]
    · rw [Nat.min_eq_right hl]

/-- A prescaler below its limit stays below it (R32, R140). -/
theorem prescale_lt {pre : BitVec 16} {limit : Nat} (h : pre.toNat < limit) : (prescale pre limit).toNat < limit := by
  rw [prescale_toNat h]
  exact Nat.lt_of_lt_of_le (Nat.mod_lt _ (by omega)) (Nat.min_le_left _ _)

/-- A single tick keeps the timer in range (R31, R32). -/
theorem tickOnce_timer {s : State} (h : TimerInv s) : TimerInv s.tickOnce := by
  obtain ⟨h1, h2, h3, h4⟩ := h
  rw [State.tickOnce]
  split
  · exact ⟨Nat.two_pow_pos _, Nat.mod_lt _ (Nat.two_pow_pos _), prescale_lt h3, prescale_lt h4⟩
  · exact ⟨Nat.mod_lt _ (Nat.two_pow_pos _), h2, h3, h4⟩

/-! ## Receiver -/

/-- What SEQ mode does with a port value: nothing, a start, or a pair that advances RX_MUX and may start the next
channel (R181, R182). -/
theorem rxSeq_cases (s : State) (old new : Byte) :
    s.rxSeq old new = s ∨ s.rxSeq old new = s.rxRise s.rxMux ∨
      ∃ t, t = { s.rxFall s.rxMux with rxMux := (s.rxMux + 1) % s.params.nch } ∧
        (s.rxSeq old new = t ∨ s.rxSeq old new = t.rxRise ((s.rxMux + 1) % s.params.nch)) := by
  unfold State.rxSeq
  simp only
  split
  · exact .inr (.inl rfl)
  · split
    · refine .inr (.inr ⟨_, rfl, ?_⟩)
      split
      · exact .inr rfl
      · exact .inl rfl
    · exact .inl rfl

/-- PAR mode changes the edge records, LAST_PAIR, LOST and RX_DUE, and does not clear RX_DUE (R183). -/
theorem rxParFold_frame (old new : Byte) (cs : List Nat) (s : State) :
    cs.foldl (fun t c => t.rxParChan old new c) s =
        { s with
          chans := (cs.foldl (fun t c => t.rxParChan old new c) s).chans
          lastPair := (cs.foldl (fun t c => t.rxParChan old new c) s).lastPair
          lost := (cs.foldl (fun t c => t.rxParChan old new c) s).lost
          rxDue := (cs.foldl (fun t c => t.rxParChan old new c) s).rxDue } ∧
      (s.rxDue = true → (cs.foldl (fun t c => t.rxParChan old new c) s).rxDue = true) := by
  induction cs generalizing s with
  | nil => exact ⟨rfl, id⟩
  | cons c cs ih =>
    simp only [List.foldl_cons]
    have h : s.rxParChan old new c = s ∨ s.rxParChan old new c = s.rxRise c ∨
        s.rxParChan old new c = s.rxFall c := by
      unfold State.rxParChan
      simp only
      split
      · exact .inr (.inl rfl)
      · split
        · exact .inr (.inr rfl)
        · exact .inl rfl
    rcases h with h | h | h <;> rw [h]
    · exact ih s
    · exact ih (s.rxRise c)
    · obtain ⟨h1, h2⟩ := ih (s.rxFall c)
      exact ⟨h1, fun hd => h2 (by simp [hd])⟩

/-- RX's decoders change the edge records, RX_MUX, LAST_PAIR, LOST and RX_DUE, and do not clear RX_DUE. -/
theorem rxEdges_frame (s : State) (new : Byte) :
    s.rxEdges new = { s with
        chans := (s.rxEdges new).chans, rxMux := (s.rxEdges new).rxMux, lastPair := (s.rxEdges new).lastPair,
        lost := (s.rxEdges new).lost, rxDue := (s.rxEdges new).rxDue } ∧
      (s.rxDue = true → (s.rxEdges new).rxDue = true) := by
  unfold State.rxEdges
  cases s.params.rxMode
  · rcases rxSeq_cases s s.rxPrev new with h | h | ⟨t, rfl, h | h⟩
    all_goals
      show s.rxSeq s.rxPrev new = _ ∧ _
      rw [h]
    · exact ⟨rfl, id⟩
    · exact ⟨rfl, id⟩
    · exact ⟨rfl, fun hd => by simp [hd]⟩
    · exact ⟨rfl, fun hd => by simp [hd]⟩
  · obtain ⟨h1, h2⟩ := rxParFold_frame s.rxPrev new (List.range s.params.nch) s
    refine ⟨?_, h2⟩
    have hm : (s.rxPar s.rxPrev new).rxMux = s.rxMux := by
      unfold State.rxPar
      rw [h1]
    simp only [hm]
    exact h1

/-! ## Conditioner -/

/-- The two things `condition` can do (R226). -/
theorem condition_cases (s : State) :
    (s.params.lossT + s.params.fadeF < s.elapsed s.lastPair ∧ s.condition = s.lossReset.silence) ∨
      (s.elapsed s.lastPair ≤ s.params.lossT + s.params.fadeF ∧
        s.condition = s.conditionAll (s.elapsed s.lastPair)) := by
  unfold State.condition
  simp only
  split
  · exact .inl ⟨‹_›, rfl⟩
  · exact .inr ⟨Nat.not_lt.mp ‹_›, rfl⟩

/-- `clamp` is the nearest value of the range (R12). -/
theorem clamp_eq {v lo hi : Int} (h : lo ≤ hi) : clamp v lo hi = max lo (min hi v) := by
  unfold clamp
  split
  · omega
  · split <;> omega

/-! ## PID -/

/-- The two things `pidStep` can do (R250). -/
theorem pidStep_cases (x : Axis) (p : Params) (g : AxisCfg) (meas : Word) :
    (x.pidTgt = 0 ∧ x.pidStep p g meas = x.pidRest p g) ∨
      (x.pidTgt ≠ 0 ∧ x.pidStep p g meas = x.pidDrive p g meas) := by
  unfold Axis.pidStep
  split
  · exact .inl ⟨‹_›, rfl⟩
  · exact .inr ⟨‹_›, rfl⟩

/-- A motor command is an integer percent (R49, R257, R258). -/
theorem motorOf_range (p : Params) (rev : BitVec 8) (y : Int) :
    -100 ≤ (motorOf p rev y).toInt ∧ (motorOf p rev y).toInt ≤ 100 := by
  unfold motorOf wrap8
  have hc : ∀ v : Int, clamp v (-(Config.motorMax : Int)) Config.motorMax = max (-100) (min 100 v) :=
    fun v => clamp_eq (by decide)
  simp only [hc]
  generalize asr y p.sfrac = v
  rw [BitVec.toInt_ofInt, Int.bmod_def]
  split <;> split <;> omega

/-! ## Handshake check -/

/-- The three things the handshake check can do (R283). -/
theorem handshakeCheck_cases (s : State) :
    (s.serRxq = [] ∧ s.handshakeCheck = s) ∨
      (∃ rest, s.serRxq = 0x55 :: rest ∧ s.handshakeCheck = (s.withRxq rest).enterConfig) ∨
      ∃ b rest, s.serRxq = b :: rest ∧ b ≠ 0x55 ∧ s.handshakeCheck = s.withRxq rest := by
  unfold State.handshakeCheck
  cases hq : s.serRxq with
  | nil => exact .inl ⟨rfl, rfl⟩
  | cons b rest =>
    simp only
    split
    · exact .inr (.inl ⟨rest, by rw [‹b = _›]; rfl, rfl⟩)
    · exact .inr (.inr ⟨b, rest, rfl, ‹_›, rfl⟩)

/-! ## Configuration port -/

/-- The three answers to a READ (R313, R314). -/
theorem runRead_cases (s : State) (id : BitVec 4) (v : List Byte) :
    (paramOf s.params id = none ∧ s.runRead id v = s.protocolError errParam) ∨
      (∃ a f, paramOf s.params id = some (a, f) ∧ v = [] ∧ s.runRead id v = s.readParam a f) ∨
      ∃ a f, paramOf s.params id = some (a, f) ∧ v ≠ [] ∧ s.runRead id v = s.protocolError errLength := by
  unfold State.runRead
  cases hp : paramOf s.params id with
  | none => exact .inl ⟨rfl, rfl⟩
  | some af =>
    simp only
    split
    · exact .inr (.inl ⟨_, _, rfl, List.length_eq_zero_iff.mp ‹_›, rfl⟩)
    · exact .inr (.inr ⟨_, _, rfl, fun h => absurd (List.length_eq_zero_iff.mpr h) ‹_›, rfl⟩)

/-- The four answers to a WRITE (R313, R315, R318). -/
theorem runWrite_cases (s : State) (id : BitVec 4) (v : List Byte) :
    (paramOf s.params id = none ∧ s.runWrite id v = s.protocolError errParam) ∨
      ∃ a f, paramOf s.params id = some (a, f) ∧
        ((v.length = f.size ∧ f.legal s.params.wCap (leValue v) = true ∧
            s.runWrite id v = s.writeParam a f (leValue v)) ∨
          (v.length = f.size ∧ f.legal s.params.wCap (leValue v) = false ∧
            s.runWrite id v = s.protocolError errRange) ∨
          (v.length ≠ f.size ∧ s.runWrite id v = s.protocolError errLength)) := by
  unfold State.runWrite
  cases hp : paramOf s.params id with
  | none => exact .inl ⟨rfl, rfl⟩
  | some af =>
    refine .inr ⟨af.1, af.2, rfl, ?_⟩
    simp only
    split
    · split
      · exact .inl ⟨‹_›, ‹_›, rfl⟩
      · exact .inr (.inl ⟨‹_›, Bool.not_eq_true _ ▸ ‹_›, rfl⟩)
    · exact .inr (.inr ⟨‹_›, rfl⟩)

/-- The two answers to a FINISH (R313, R316). -/
theorem runFinish_cases (s : State) (v : List Byte) :
    (v = [] ∧ s.runFinish v = s.finish) ∨ (v ≠ [] ∧ s.runFinish v = s.protocolError errLength) := by
  unfold State.runFinish
  split
  · exact .inl ⟨List.length_eq_zero_iff.mp ‹_›, rfl⟩
  · exact .inr ⟨fun h => absurd (List.length_eq_zero_iff.mpr h) ‹_›, rfl⟩

/-- The ways SVC.CFG can end (R313): a framing error, no command, or the request's own answer. -/
theorem serveRequest_cases (s : State) (l : Byte) (rest : List Byte) :
    (∃ q code, q <:+ rest ∧ s.serveRequest l rest = (s.withRxq q).protocolError code) ∨
      ∃ op v r, rest.take l.toNat = op :: v ∧ 1 ≤ l.toNat ∧ l.toNat ≤ 5 ∧ l.toNat ≤ rest.length ∧
        decodeCommand op v = some r ∧
        s.serveRequest l rest = (s.withRxq (rest.drop l.toNat)).runRequest r := by
  unfold State.serveRequest
  split
  · exact .inl ⟨_, _, List.suffix_refl _, rfl⟩
  · split
    · exact .inl ⟨_, _, List.suffix_refl _, rfl⟩
    · split
      · exact .inl ⟨_, _, List.nil_suffix, rfl⟩
      · cases ht : rest.take l.toNat with
        | nil => exact .inl ⟨_, _, List.drop_suffix _ _, rfl⟩
        | cons op v =>
          cases hd : decodeCommand op v with
          | none =>
            refine .inl ⟨_, errCommand, List.drop_suffix l.toNat rest, ?_⟩
            simp only [State.runCommand, hd]
          | some r =>
            refine .inr ⟨op, v, r, rfl, by omega, by omega, by omega, hd, ?_⟩
            simp only [State.runCommand, hd]

/-- What a parameter id names (R110). -/
theorem paramOf_some {p : Params} {id : BitVec 4} {a : Nat} {f : Field} (h : paramOf p id = some (a, f)) :
    a = idAxis id ∧ idField id = some f ∧ a < p.nax := by
  unfold paramOf at h
  cases hf : idField id with
  | none => rw [hf] at h; cases h
  | some g =>
    rw [hf] at h
    simp only at h
    split at h
    · cases h
      exact ⟨rfl, rfl, ‹_›⟩
    · cases h

/-! ## Steps -/

/-- What a step that completes ran. -/
theorem step_next {s t : State} (h : step s = .next t) :
    s.params.legal = true ∧ ∃ w rest i, s.pending = w :: rest ∧ decodeWord s.params w = .ok i ∧
      exec i { s with pending := rest } = .next t := by
  unfold step at h
  split at h
  · refine ⟨‹_›, ?_⟩
    cases hp : s.pending with
    | nil => simp [State.fetch, hp] at h
    | cons w rest =>
      simp only [State.fetch, hp, decode] at h
      cases hd : decodeWord s.params w with
      | error e => rw [hd] at h; cases h
      | ok i => rw [hd] at h; exact ⟨w, rest, i, rfl, hd, h⟩
  · cases h

/-! ## The register file -/

/-- A result returned to the host changes no register (R89). -/
theorem returnToHost_memRead (s : State) (v : Word) (addr : BitVec 12) :
    (s.returnToHost v).memRead addr = s.memRead addr := rfl

end Sys2Proof.Machine
end

