-- ==== Sys2Proof/Laws/PerInstr.lean ====
section
/-! SUPPORT. Statements about every instruction, one lemma per constructor: an operation's encoding matches the
row of R105, or the command row of R109 or R113, that stands for it. -/

namespace Sys2Proof.Laws.EncodingMatchesRow

/-- An operation word matches its row of R105; a request carries an opcode byte that names its command; the
handshake is its byte. -/
def Statement (i : Instr) : Prop :=
  match encode i with
  | .word w => ∃ r ∈ opcodeRows, matchMask i = some r ∧ w &&& r.2 = r.1
  | .request bs => matchMask i = none ∧ ∃ op v r, bs = frameRequest op v ∧ decodeCommand op v = some r ∧ r.toInstr = i
  | .byte b => i = .handshake ∧ b = 0x55

theorem tick (k : BitVec 12) : Statement (.tick k) :=
  ⟨(0x1000, 0xF000), by decide, rfl, by
    ext i hi
    simp only [BitVec.getElem_and, BitVec.getElem_append]
    interval_cases i <;> simp⟩

theorem enc (axis : BitVec 4) (ab : BitVec 2) : Statement (.enc axis ab) :=
  ⟨(0x2000, 0xF0FC), by decide, rfl, by revert axis ab; decide⟩

theorem rx (port : Byte) : Statement (.rx port) :=
  ⟨(0x3000, 0xFF00), by decide, rfl, by revert port; decide⟩

theorem ser (b : Byte) : Statement (.ser b) :=
  ⟨(0x4000, 0xFF00), by decide, rfl, by revert b; decide⟩

theorem nvfault (copy : BitVec 2) : Statement (.nvfault copy) :=
  ⟨(0x5000, 0xFFFC), by decide, rfl, by revert copy; decide⟩

theorem rdreg (addr : BitVec 12) : Statement (.rdreg addr) :=
  ⟨(0x6000, 0xF000), by decide, rfl, by
    ext i hi
    simp only [BitVec.getElem_and, BitVec.getElem_append]
    interval_cases i <;> simp⟩

theorem svcEnc : Statement .svcEnc := ⟨(0x8000, 0xFFFF), by decide, rfl, by decide⟩

theorem svcRx : Statement .svcRx := ⟨(0x9000, 0xFFFF), by decide, rfl, by decide⟩

theorem svcCfg : Statement .svcCfg := ⟨(0xA000, 0xFFFF), by decide, rfl, by decide⟩

theorem reset : Statement .reset := ⟨(0xF000, 0xFFFF), by decide, rfl, by decide⟩

theorem reqRead (id : BitVec 4) (v : List Byte) : Statement (.reqRead id v) :=
  ⟨rfl, _, _, _, rfl, decodeCommand_read id v, rfl⟩

theorem reqWrite (id : BitVec 4) (v : List Byte) : Statement (.reqWrite id v) :=
  ⟨rfl, _, _, _, rfl, decodeCommand_write id v, rfl⟩

theorem reqFinish (v : List Byte) : Statement (.reqFinish v) :=
  ⟨rfl, _, _, _, rfl, decodeCommand_finish v, rfl⟩

theorem handshake : Statement .handshake := ⟨rfl, rfl⟩

end Sys2Proof.Laws.EncodingMatchesRow
end

