-- ==== Sys2Proof/Laws/Record.lean ====
section
/-! SUPPORT. Reading and writing one field of a configuration record, and little-endian values. -/

namespace Sys2Proof

/-- The fields of a record built field by field, each in its width. -/
theorem AxisCfg.get_ofFields (v : Field → Word) (f : Field) :
    (AxisCfg.ofFields v).get f =
      match f with
      | .kp => v .kp
      | .ki => v .ki
      | .kd => v .kd
      | .blend => ((v .blend).setWidth 16).setWidth 32
      | .ewin => ((v .ewin).setWidth 8).setWidth 32
      | .rev => ((v .rev).setWidth 8).setWidth 32
      | .calm => ((v .calm).setWidth 8).setWidth 32 := by
  cases f <;> rfl

/-- A record built from its own fields is itself. -/
theorem AxisCfg.ofFields_get (g : AxisCfg) : AxisCfg.ofFields g.get = g := by
  cases g
  simp [AxisCfg.ofFields, AxisCfg.get]

/-- Setting one field leaves the others. -/
theorem AxisCfg.get_set_ne (g : AxisCfg) {f f' : Field} (v : Word) (h : f' ≠ f) : (g.set f v).get f' = g.get f' := by
  cases f <;> cases f' <;> first | rfl | exact absurd rfl h

/-- A value that fits a field's width is read back from it. -/
theorem AxisCfg.get_set_self (g : AxisCfg) (f : Field) (v : Word) (h : v.toNat < 2 ^ (8 * f.size)) :
    (g.set f v).get f = v := by
  cases f
  · rfl
  · rfl
  · rfl
  all_goals
    apply BitVec.eq_of_toNat_eq
    simp only [Field.size] at h
    simp only [AxisCfg.set, AxisCfg.get, BitVec.toNat_setWidth]
    omega

/-- Setting a field keeps the number of axes. -/
@[simp] theorem Record.length_setField (r : Record) (a : Nat) (f : Field) (v : Word) :
    (r.setField a f v).length = r.length := by
  simp [Record.setField]

/-- Setting a field of one axis leaves the other axes. -/
theorem Record.axis_setField_ne (r : Record) {a a' : Nat} (f : Field) (v : Word) (h : a' ≠ a) :
    (r.setField a f v).axis a' = r.axis a' := by
  simp [Record.setField, Record.axis, List.getD_eq_getElem?_getD, Ne.symm h]

/-- Setting a field of an axis that is there. -/
theorem Record.axis_setField_self (r : Record) {a : Nat} (f : Field) (v : Word) (h : a < r.length) :
    (r.setField a f v).axis a = (r.axis a).set f v := by
  simp [Record.setField, Record.axis, List.getD_eq_getElem?_getD, h]

/-- An axis that a parameter id names takes the vote (R110, R322). -/
theorem loadField_named (p : Params) (nv : NvStore) {a : Nat} (f : Field) (h : a < 2) :
    loadField p nv a f = votedField p nv a f := by
  have : ¬2 ≤ a := by omega
  simp [loadField, onlyDefault, this]

/-- An axis that no parameter id names takes DEFAULT_CFG or the vote, as the block has it (R317, R322). -/
theorem loadField_idless (p : Params) (nv : NvStore) {a : Nat} (f : Field) (h : 2 ≤ a) :
    loadField p nv a f = if Config.idlessByDefault then p.defaultCfg.field a f else votedField p nv a f := by
  simp [loadField, onlyDefault, h]

/-- The vote of three equal values (R321). -/
@[simp] theorem vote3_same {α : Type} [DecidableEq α] (x d : α) : vote3 x x x d = x := by
  simp [vote3]

namespace Machine

/-- A little-endian value is below 256 to the number of its bytes (R111). -/
theorem leNat_lt (v : List Byte) : leNat v < 2 ^ (8 * v.length) := by
  induction v with
  | nil => exact Nat.one_pos
  | cons b bs ih =>
    have hb := b.isLt
    rw [leNat, List.length_cons, Nat.mul_succ, Nat.pow_add]
    omega

/-- A value of at most four bytes is its 32-bit pattern's number (R111). -/
theorem leValue_toNat {v : List Byte} (h : v.length ≤ 4) : (leValue v).toNat = leNat v := by
  rw [leValue, BitVec.toNat_ofNat, Nat.mod_eq_of_lt]
  exact Nat.lt_of_lt_of_le (leNat_lt v) (Nat.pow_le_pow_right (by omega) (by omega))

/-- `leBytes` gives as many bytes as asked (R112). -/
@[simp] theorem leBytes_length (n : Nat) (v : Word) : (leBytes n v).length = n := by
  simp [leBytes]

end Machine

end Sys2Proof
end

