-- ==== Sys2Proof/Laws/Ring.lean ====
section
/-! SUPPORT. The order of a ring buffer: every swap of `ring_insert` keeps it a permutation (R187, R189). -/

namespace Sys2Proof.Machine

/-- A swap keeps the length. -/
@[simp] theorem swapNext_length (ord : List Nat) (k : Nat) : (swapNext ord k).length = ord.length := by
  simp [swapNext]

/-- A swap of two entries that are there is a permutation. -/
theorem swapNext_perm {ord : List Nat} {k : Nat} (h : k + 1 < ord.length) : (swapNext ord k).Perm ord := by
  have hs : swapNext ord k = ord.take k ++ ord[k + 1] :: ord[k] :: ord.drop (k + 2) := by
    apply List.ext_getElem?
    intro i
    simp only [swapNext, List.getD_eq_getElem?_getD, List.getElem?_eq_getElem h,
      List.getElem?_eq_getElem (show k < ord.length by omega), Option.getD_some]
    rw [List.getElem?_set, List.getElem?_set, List.length_set, List.getElem?_append, List.length_take,
      Nat.min_eq_left (by omega)]
    rcases Nat.lt_trichotomy i k with hi | hi | hi
    · simp [hi, show ¬k + 1 = i by omega, show ¬k = i by omega]
    · subst hi
      simp [show i < ord.length by omega]
    · rw [if_neg (show ¬i < k by omega)]
      rcases Nat.lt_or_ge (k + 1) i with hj | hj
      · obtain ⟨j, rfl⟩ : ∃ j, i = k + 2 + j := ⟨i - (k + 2), by omega⟩
        simp [show ¬k + 1 = k + 2 + j by omega, show ¬k = k + 2 + j by omega,
          show k + 2 + j - k = j + 2 by omega]
      · have : i = k + 1 := by omega
        subst this
        simp [h]
  have ho : ord = ord.take k ++ ord[k] :: ord[k + 1] :: ord.drop (k + 2) := by
    conv_lhs => rw [← List.take_append_drop k ord]
    rw [List.drop_eq_getElem_cons (by omega), List.drop_eq_getElem_cons h]
  rw [hs]
  conv_rhs => rw [ho]
  exact List.Perm.append_left _ (List.Perm.swap _ _ _)

/-- The first loop keeps the order a permutation and stops within it. -/
theorem bubbleLeft_perm (val : List Tick) (p : Nat) (ord : List Nat) (h : p < ord.length) :
    (bubbleLeft val p ord).1.Perm ord ∧ (bubbleLeft val p ord).2 ≤ p := by
  induction p generalizing ord with
  | zero => exact ⟨List.Perm.refl _, Nat.le_refl _⟩
  | succ p ih =>
    rw [bubbleLeft]
    split
    · obtain ⟨h1, h2⟩ := ih (swapNext ord p) (by rw [swapNext_length]; omega)
      exact ⟨h1.trans (swapNext_perm h), Nat.le_succ_of_le h2⟩
    · exact ⟨List.Perm.refl _, Nat.le_refl _⟩

/-- The second loop keeps the order a permutation. -/
theorem bubbleRight_perm (val : List Tick) (fuel p : Nat) (ord : List Nat) (h : p + fuel < ord.length) :
    (bubbleRight val fuel p ord).Perm ord := by
  induction fuel generalizing p ord with
  | zero => exact List.Perm.refl _
  | succ fuel ih =>
    rw [bubbleRight]
    split
    · exact (ih (p + 1) (swapNext ord p) (by rw [swapNext_length]; omega)).trans (swapNext_perm (by omega))
    · exact List.Perm.refl _

/-- The repair after an insertion keeps the order a permutation. -/
theorem repairOrder_perm {rxN s : Nat} (val : List Tick) {ord : List Nat} (hl : ord.length = rxN) (hs : s ∈ ord) :
    (repairOrder rxN val ord s).Perm ord := by
  have hi : ord.idxOf s < ord.length := List.idxOf_lt_length_iff.mpr hs
  obtain ⟨h1, h2⟩ := bubbleLeft_perm val (ord.idxOf s) ord hi
  unfold repairOrder
  exact (bubbleRight_perm _ _ _ _ (by rw [h1.length_eq]; omega)).trans h1

/-- An inserted reading is in the ring, at the slot that held the oldest one (R187). -/
theorem insert_getElem? (x : Channel) (rxN v : Nat) (h : x.ringHead < x.ringVal.length) :
    (x.insert rxN v).ringVal[x.ringHead]? = some v := by
  simp [Channel.insert, h]

end Sys2Proof.Machine
end

