-- ==== Sys2Proof/Tests/Slice0.lean ====
section
/-! SUPPORT. Small tests: ill-formed terms refused, words written out from the encoding tables, one or two
steps per operation with the values of 95_test_vectors.md, and a witness for the hypotheses of every
obligation that has any (`witness_<obligation>`). -/

namespace Sys2Proof.Tests

open Sys2Proof Sys2Proof.Machine

/-! ## Helpers -/

/-- The operation completes and the state after it satisfies `q`. -/
def after (i : Instr) (s : State) (q : State → Bool) : Bool :=
  match exec i s with
  | .next t => q t
  | .fault _ => false
  | .refused _ => false

/-- The sequence completes and the state after it satisfies `q`. -/
def afterAll (is : List Instr) (s : State) (q : State → Bool) : Bool :=
  match performAll is s with
  | .next t => q t
  | .fault _ => false
  | .refused _ => false

/-- The run completes and its result satisfies `q`. -/
def ranAll (is : List Instr) (s : State) (q : RunResult → Bool) : Bool :=
  match run is s with
  | .next r => q r
  | .fault _ => false
  | .refused _ => false

/-- The operation has no step. -/
def stuck (i : Instr) (s : State) : Bool :=
  match exec i s with
  | .next _ => false
  | .fault _ => true
  | .refused _ => false

/-- The step completes and the state after it satisfies `q`. -/
def stepped (s : State) (q : State → Bool) : Bool :=
  match step s with
  | .next t => q t
  | .fault _ => false
  | .refused _ => false

/-- The state after reset with axis 0 replaced. -/
def withAxis (x : Axis) : State := { State.reset with axes := [x, Axis.initial Config.testParams] }

/-- An axis after reset that has seen a sample. -/
def axis0 : Axis := { Axis.initial Config.testParams with encPv := true }

/-- The axis of vector ED1: window 1..5, sum 15, count 7. -/
def axisED1 : Axis :=
  { axis0 with encCount := 7, encWin := [1, 2, 3, 4, 5] ++ List.replicate 27 0, encSum := 15 }

/-- An encoder frame is due, with axis 0 given and bytes received. -/
def encFrameState (x : Axis) (q : List Byte) : State := { withAxis x with encDue := true, serRxq := q }

/-- CONFIG mode after reset, with bytes received. -/
def configState (q : List Byte) : State := { State.reset with mode := .config, serRxq := q }

/-- The parameters in PAR wiring. -/
def parParams : Params := { Config.testParams with rxMode := .par }

/-- A sample of port value `old` was seen, at CNT 10. -/
def rxState (p : Params) (old : Byte) : State :=
  { State.initial p Config.testNvInit with cnt := 10, rxPrev := old, rxPv := true }

/-- A receiver frame is due with channel 0 given, `e` ticks after the last pair. -/
def rxFrameState (x : Channel) (e : Nat) : State :=
  { State.reset with
    cnt := e % 256, ovf := e / 256, rxDue := true, chans := [x, Channel.initial Config.testParams] }

/-- A ring that holds `v` four times and 0 three times (2.5). -/
def fourReadings (v : Tick) : Channel :=
  { Channel.initial Config.testParams with
    ringVal := [v, v, v, v, 0, 0, 0], ringOrd := [4, 5, 6, 3, 2, 1, 0], ringHead := 4 }

/-- One axis, one channel. -/
def smallParams : Params :=
  { Config.testParams with
    nax := 1, nch := 1, chBit := [0], calMin := [0], calMax := [0], axCh := [0], wCap := 5, rxN := 3,
    defaultCfg := [Config.testAxisCfg] }

/-- Limits that no 16-bit prescaler reaches: R8 gives none an upper bound. -/
def longParams : Params := { Config.testParams with encFrameOvf := 65537, rxFrameOvf := 65536 }

/-- The last tick before both prescalers of the long block count beyond 65535. -/
def longState : State :=
  { State.initial longParams Config.testNvInit with cnt := 255, encPre := 65535, rxPre := 65535 }

/-- Three axes: axis 2 has no parameter id. -/
def threeParams : Params :=
  { Config.testParams with
    nax := 3, axCh := [0, 1, 0], defaultCfg := [Config.testAxisCfg, Config.testAxisCfg, Config.testAxisCfg] }

/-- CONFIG mode in the block of three axes. -/
def threeState : State :=
  { State.initial threeParams Config.testNvInit with
    mode := .config, cfg := threeParams.defaultCfg, cfgEdit := threeParams.defaultCfg }

/-- The state after reset of the small block. -/
def smallState : State := State.initial smallParams Config.testNvInit

/-! ## WellFormed -/

theorem test_wf_enc_axis : (Instr.enc 2 0).wellFormed Config.testParams = false ∧
    (Instr.enc 1 3).wellFormed Config.testParams = true := by decide

theorem test_wf_nvfault_copy : (Instr.nvfault 3).wellFormed Config.testParams = false ∧
    (Instr.nvfault 2).wellFormed Config.testParams = true := by decide

theorem test_wf_request_length : (Instr.reqRead 0 [0, 0, 0, 0, 0]).wellFormed Config.testParams = false ∧
    (Instr.reqWrite 0 [0, 0, 0, 0, 0]).wellFormed Config.testParams = false ∧
    (Instr.reqFinish [0, 0, 0, 0, 0]).wellFormed Config.testParams = false ∧
    (Instr.reqWrite 0 [0, 0, 0, 0]).wellFormed Config.testParams = true := by decide

/-- The word that encodes an ill-formed operation is refused (2.12). -/
theorem test_ill_formed_words_refused :
    decodeWord Config.testParams 0x2200 = .error .axisOutOfRange ∧
    decodeWord Config.testParams 0x5003 = .error .noSuchCopy ∧
    decodeRequest [6, 0x30, 0, 0, 0, 0, 0] = .error .badLength := ⟨rfl, rfl, rfl⟩

/-! ## Decode: the words of 2.12 and the requests of 2.10, written out -/

theorem test_decode_tick : decodeTableWord 16 0x1000 = some (.tick 0) ∧ decodeTableWord 16 0x1FFF = some (.tick 0xFFF) :=
  ⟨rfl, rfl⟩
theorem test_decode_enc : decodeTableWord 16 0b0010000000000011 = some (.enc 0 0b11) ∧
    decodeTableWord 16 0x2103 = some (.enc 1 0b11) := ⟨rfl, rfl⟩
theorem test_decode_rx : decodeTableWord 16 0b0011000010100101 = some (.rx 0xA5) := rfl
theorem test_decode_ser : decodeTableWord 16 0b0100000001010101 = some (.ser 0x55) := rfl
theorem test_decode_nvfault : decodeTableWord 16 0b0101000000000010 = some (.nvfault 2) := rfl
theorem test_decode_rdreg : decodeTableWord 16 0b0110111111111111 = some (.rdreg 0xFFF) := rfl
theorem test_decode_svc : decodeTableWord 16 0x8000 = some .svcEnc ∧ decodeTableWord 16 0x9000 = some .svcRx ∧
    decodeTableWord 16 0xA000 = some .svcCfg := ⟨rfl, rfl, rfl⟩
theorem test_decode_reset : decodeTableWord 16 0xF000 = some .reset := rfl
theorem test_decode_read : decodeRequest [0x01, 0x03] = .ok (.read 3 []) ∧
    decodeTableWord 8 0x08 = some (.reqRead 8 []) := ⟨rfl, rfl⟩
theorem test_decode_write : decodeRequest [0x05, 0x38, 0x00, 0x00, 0xFF, 0xFF] = .ok (.write 8 [0, 0, 0xFF, 0xFF]) ∧
    decodeTableWord 8 0x33 = some (.reqWrite 3 [0, 0]) := ⟨rfl, rfl⟩
theorem test_decode_finish : decodeRequest [0x01, 0xFF] = .ok (.finish []) ∧
    decodeTableWord 8 0xFF = some (.reqFinish []) := ⟨rfl, rfl⟩
theorem test_decode_handshake : decodeTableWord 8 0x55 = some .handshake := rfl

theorem test_decode_refused :
    [0x0000, 0x2004, 0x3100, 0x7000, 0x8001, 0xB000, 0xC000, 0xD000, 0xE000, 0xF001].all
      (fun w => (decodeTableWord 16 w).isNone) = true := by decide

theorem test_decode_request_refused : decodeRequest [0x01, 0x50] = .error .invalidCommand ∧
    decodeRequest [0x01, 0xF0] = .error .invalidCommand ∧ decodeRequest [0x00] = .error .badLength :=
  ⟨rfl, rfl, rfl⟩

/-! ## One step per operation -/

/-- Vector T1. -/
theorem test_tick_wraps :
    after (.tick 0) { State.reset with cnt := 255, ovf := 3, encPre := 3 }
      (fun t => t.cnt == 0 && t.ovf == 4 && t.now == 1024 && t.encPre == 0 && t.encDue) = true := by decide

/-- Vector T2. -/
theorem test_tick_counts :
    after (.tick 254) State.reset (fun t => t.now == 255 && t.ovf == 0 && t.encPre == 0) = true := by decide +kernel

/-- A prescaler at its limit of 65536 returns to 0 and raises its flag; one with a larger limit wraps without it. -/
theorem test_tick_long_limits :
    after (.tick 0) longState (fun t => t.rxPre == 0 && t.rxDue && t.encPre == 0 && !t.encDue) = true := by decide

/-- Vector EN6. -/
theorem test_enc_wraps :
    after (.enc 0 0b01) (withAxis { axis0 with encCount := 32767 })
      (fun t => t.axes.map (fun x => x.encCount.toInt) == [-32768, 0]) = true := by decide

/-- Vector EN8's last sample: under INC an invalid transition counts 2. -/
theorem test_enc_inc :
    after (.enc 0 0b11)
      { withAxis { axis0 with encCount := 4 } with params := { Config.testParams with encPolicy := .inc } }
      (fun t => t.axes.map (fun x => x.encCount.toInt) == [6, 0]) = true := by decide

/-- Vector RS3 at NOW 10: in one event channel 0 ends and channel 1 starts. -/
theorem test_rx_seq :
    after (.rx 0x02) (rxState Config.testParams 0x01)
      (fun t => t.chans.map (fun x => (x.rxStart, x.rxEnd, x.rxUpd)) == [(0, 10, true), (10, 0, false)] &&
        t.rxMux == 1 && t.lastPair == 10 && !t.lost && !t.rxDue) = true := by decide

/-- Vectors RP2 and RP3: both bits rise at once; channel 1's fall requests the frame. -/
theorem test_rx_par :
    after (.rx 0x03) (rxState parParams 0x00) (fun t => t.chans.map (fun x => x.rxStart) == [10, 10]) = true ∧
    after (.rx 0x01) (rxState parParams 0x03)
      (fun t => t.chans.map (fun x => (x.rxEnd, x.rxUpd)) == [(0, false), (10, true)] && t.rxDue) = true := by
  decide

/-- R468: what a run adds to its outputs, with P-1's motor command of 50. -/
theorem test_run :
    ranAll [.svcEnc, .ser 0x01, .ser 0x03, .svcCfg, .reset]
      { encFrameState { axis0 with pidTgt := 3276800 } [0x55] with serTx := [0xE5], motorOut := [(1, 7)] }
      (fun r => r.emitted == [0xAC, 0x80, 0x00] && r.motorWritten == [(0, 50), (1, 0), (0, 0), (1, 0)] &&
        r.final.serTx == [0xE5, 0xAC, 0x80, 0x00]) = true := by decide

/-- R310: a byte that finds room, and one that finds none. -/
theorem test_ser :
    after (.ser 0x55) { State.reset with cnt := 7 } (fun t => t.serRxq == [0x55] && t.serLast == 7) = true ∧
    after (.ser 0x55) { State.reset with cnt := 7, serRxq := List.replicate 64 1 }
      (fun t => t.serRxq == List.replicate 64 1 && t.serLast == 0) = true := by decide

theorem test_nvfault : after (.nvfault 1) State.reset
    (fun t => t.nv.copy0.valid && !t.nv.copy1.valid && t.nv.copy2.valid &&
      t.nv.copy1.record == Config.testParams.defaultCfg) = true := by decide

/-- 2.13: STATUS just after reset, and a sign-extended speed. -/
theorem test_rdreg :
    after (.rdreg 0x000) State.reset (fun t => t.hostOut == [0x10]) = true ∧
    after (.rdreg 0x018) (withAxis { axis0 with encSpeed := BitVec.ofInt 32 (-275251) })
      (fun t => t.hostOut == [0xFFFBCCCD]) = true := by decide

/-- Vectors ED1, ED2 and the first byte of 2.9's handshake example. -/
theorem test_svcEnc_drains :
    after .svcEnc (encFrameState axisED1 [0x12, 0x55])
      (fun t => t.axes.map (fun x => (x.encSum.toInt, x.encSpeed.toInt, x.encCount.toInt, x.encIdx)) ==
          [(21, 275251, 0, 1), (0, 0, 0, 1)] &&
        t.serRxq == [0x55] && t.mode == .normal && !t.encDue) = true := by decide

/-- Vector P-1. -/
theorem test_svcEnc_drives :
    after .svcEnc (encFrameState { axis0 with pidTgt := 3276800 } [0x55])
      (fun t => t.axes.map (fun x => (x.pidOut.toInt, x.pidLast.toInt, x.motorCmd.toInt)) ==
          [(3276800, 3276800, 50), (0, 0, 0)] && t.mode == .config) = true := by decide

/-- Vectors of E5 and 2.6: a median of 1600, half a fade. -/
theorem test_svcRx_fades :
    after .svcRx (rxFrameState (fourReadings 1600) 1500)
      (fun t => t.chans.map (fun x => x.rxCond.toInt) == [10, 0] &&
        t.axes.map (fun x => x.pidTgt.toInt) == [655360, 0]) = true := by decide

/-- Vector of E5, e = 2001. -/
theorem test_svcRx_loses :
    after .svcRx (rxFrameState (fourReadings 1600) 2001)
      (fun t => t.chans.map (fun x => (x.rxCond.toInt, x.ringVal, x.ringOrd)) ==
        [(0, List.replicate 7 0, List.range 7), (0, List.replicate 7 0, List.range 7)] && t.lost) = true := by decide

/-- Vectors S1 and S10. -/
theorem test_svcCfg :
    after .svcCfg (configState [0x01, 0x03]) (fun t => t.serTx == [0xAC, 0x80, 0x00] && t.serRxq == []) = true ∧
    after .svcCfg (configState [0x00, 0x01]) (fun t => t.serTx == [0xE0] && t.serRxq == [0x01]) = true := by decide

theorem test_reset :
    after .reset { encFrameState axisED1 [1, 2] with serTx := [0xAC], mode := .finished }
      (fun t => t == { State.reset with serTx := [0xAC], motorOut := [(0, 0), (1, 0)] }) = true := by decide

/-- Vectors S1 and S12. -/
theorem test_reqRead :
    after (.reqRead 3 []) (configState []) (fun t => t.serTx == [0xAC, 0x80, 0x00]) = true ∧
    after (.reqRead 7 []) (configState []) (fun t => t.serTx == [0xE1]) = true := by decide

/-- Vectors S4 and S8. -/
theorem test_reqWrite :
    after (.reqWrite 8 [0x00, 0x00, 0xFF, 0xFF]) (configState [])
      (fun t => t.serTx == [0xAC] && t.cfgEdit.field 1 .kp == BitVec.ofInt 32 (-65536) &&
        t.cfgEdit.field 0 .kp == 65536) = true ∧
    after (.reqWrite 4 [0x21]) (configState []) (fun t => t.serTx == [0xE3]) = true := by decide

/-- Vectors S20 and S18. -/
theorem test_reqFinish :
    after (.reqFinish []) (configState []) (fun t => t.serTx == [0xAC] && t.mode == .finished) = true ∧
    after (.reqFinish [0]) (configState []) (fun t => t.serTx == [0xE2] && t.mode == .config) = true := by decide

theorem test_handshake : after .handshake State.reset (fun t => t.mode == .config && t.cfgEdit == t.cfg) = true := by
  decide

/-- R107: 2.9's services that have no step. -/
theorem test_disabled_services_stuck : stuck .svcEnc State.reset = true ∧ stuck .svcRx State.reset = true ∧
    stuck .svcCfg State.reset = true ∧ stuck .svcCfg (configState [0x02, 0x34]) = true ∧
    stuck .svcEnc { encFrameState axis0 [] with mode := .config } = true := by decide

/-- A step takes the next presented word. -/
theorem test_step : stepped { State.reset with pending := [0x4055, 0x8000] }
    (fun t => t == { State.reset with serRxq := [0x55], pending := [0x8000] }) = true := by decide

/-- Placement: the very next step runs the placed word, the placed request and the placed byte. -/
theorem test_withFetchWord :
    stepped (State.reset.withFetchWord 16 0x4055) (fun t => t == { State.reset with serRxq := [0x55] }) = true ∧
    stepped (State.reset.withFetchWord 8 0x03) (fun t => t.serTx == [0xAC, 0x80, 0x00]) = true ∧
    stepped (State.reset.withFetchWord 8 0x55) (fun t => t.mode == .config && t.serRxq == []) = true := by decide

/-- Table E2: the order after inserting 5, 3, 4 and 1 into a ring of three. -/
theorem test_ring_insert :
    (([5, 3, 4, 1] : List Tick).foldl (fun y v => y.insert 3 v) ((fourReadings 0).resetRing 3)).ringOrd = [0, 1, 2] ∧
    (([5, 3] : List Tick).foldl (fun y v => y.insert 3 v) ((fourReadings 0).resetRing 3)).ringOrd = [2, 1, 0] := by
  decide

/-- R187: both comparisons are strict. Slot 0 takes the reading 5: among equal readings it stays where it stood. -/
theorem test_ring_ties_stay :
    ({ fourReadings 0 with ringVal := [0, 5, 5], ringOrd := [0, 1, 2], ringHead := 0 }.insert 3 5).ringOrd = [0, 1, 2] ∧
    ({ fourReadings 0 with ringVal := [9, 5, 5], ringOrd := [1, 2, 0], ringHead := 0 }.insert 3 5).ringOrd = [1, 2, 0] := by
  decide

/-- Vector V5 on an axis with an id: two invalid copies load 0, and the default where 0 is illegal. -/
theorem test_load_two_bad_copies :
    after .reset { State.reset with nv := { Config.testNvInit with
        copy0 := { Config.testNvInit.copy0 with valid := false }, copy1 := { Config.testNvInit.copy1 with valid := false } } }
      (fun t => t.cfg.field 1 .blend == 0 && t.cfg.field 1 .ewin == 5) = true := by decide

/-- Vectors V4 and V6. -/
theorem test_vote : vote3 (10 : Nat) 0 30 128 = 128 ∧ vote3 (200 : Nat) 10 10 5 = 10 := by decide

/-- R115, R116: a line of each shape. -/
theorem test_assemble : assembleLine "TICK 4096".toList = some [.tick 0xFFF] ∧
    assembleLine "ENC 1, 0b11 ; sample".toList = some [.enc 1 3] ∧
    assembleLine "TICKS 5000".toList = some [.tick 0xFFF, .tick 903] ∧
    assembleLine "REQ.WRITE 4, 5".toList = some [.ser 2, .ser 0x34, .ser 5] ∧
    assembleLine "NVFAULT 3".toList = none := by decide +kernel

/-! ## Witnesses: states and operands that meet the hypotheses of each obligation -/

theorem witness_DecodeEncodeRoundTrip :
    [Instr.tick 0xFFF, .enc 1 3, .rx 0xFF, .ser 0, .nvfault 2, .rdreg 0xFFF, .svcEnc, .svcRx, .svcCfg, .reset,
      .reqRead 0xF [], .reqWrite 0 [1, 2, 3, 4], .reqFinish [1, 2, 3, 4], .handshake].all
      (fun i => i.wellFormed Config.testParams) = true := by decide

theorem witness_EncodingsHaveOneMeaning :
    decode Config.testParams (.word 0x2103) = .ok (.enc 1 3) ∧
    decode Config.testParams (.request [5, 0x30, 1, 2, 3, 4]) = .ok (.reqWrite 0 [1, 2, 3, 4]) ∧
    decode Config.testParams (.byte 0x55) = .ok .handshake := ⟨rfl, rfl, rfl⟩

theorem witness_WordSelectsItsRow : decodeWord Config.testParams 0x2103 = .ok (.enc 1 3) ∧
    decodeWord Config.testParams 0xF000 = .ok .reset := ⟨rfl, rfl⟩

/-- One word for each clause, and the axis clause at its boundary. -/
theorem witness_IllegalWordHasNoStep :
    let ok := fun (w : OpWord) (c : Prop) => ({ State.reset with pending := [w] }).params.legal = true ∧ c
    ok 0xE000 ((0xE000 : OpWord).extractLsb' 12 4 ∈ [0x0#4, 0x7#4, 0xB#4, 0xC#4, 0xD#4, 0xE#4]) ∧
    ok 0x2004 ((0x2004 : OpWord).extractLsb' 12 4 = 0x2#4 ∧ (0x2004 : OpWord).extractLsb' 2 6 ≠ 0) ∧
    ok 0x4100 ((0x4100 : OpWord).extractLsb' 12 4 ∈ [0x3#4, 0x4#4] ∧ (0x4100 : OpWord).extractLsb' 8 4 ≠ 0) ∧
    ok 0x5004 ((0x5004 : OpWord).extractLsb' 12 4 = 0x5#4 ∧ (0x5004 : OpWord).extractLsb' 2 10 ≠ 0) ∧
    ok 0xF001 ((0xF001 : OpWord).extractLsb' 12 4 ∈ [0x8#4, 0x9#4, 0xA#4, 0xF#4] ∧
      (0xF001 : OpWord).extractLsb' 0 12 ≠ 0) ∧
    ok 0x2200 ((0x2200 : OpWord).extractLsb' 12 4 = 0x2#4 ∧ 2 ≤ ((0x2200 : OpWord).extractLsb' 8 4).toNat) ∧
    ok 0x5003 ((0x5003 : OpWord) = 0x5003) := by decide

theorem witness_StepRunsTheDecodedOperation :
    let s := { State.reset with pending := [0x2103] }
    s.params.legal = true ∧ s.pending = 0x2103 :: [] ∧ decodeWord s.params 0x2103 = .ok (.enc 1 3) ∧
      (Instr.enc 1 3).wellFormed s.params = true := by decide

theorem witness_SvcCfgRunsTheFrontRequest :
    let s := configState [0x03, 0x33, 0x40, 0x00, 0x01, 0x03]
    s.mode = .config ∧ s.serRxq = [0x03, 0x33, 0x40, 0x00] ++ [0x01, 0x03] ∧
      decodeRequest [0x03, 0x33, 0x40, 0x00] = .ok (.write 3 [0x40, 0x00]) := by decide

/-- Every operation is well-formed and enabled somewhere, and each guarded one is not somewhere: SVC.ENC and SVC.RX
without their flag and outside NORMAL mode, SVC.CFG outside CONFIG mode, with nothing queued, and with an incomplete
request one tick before the timeout (it is enabled at the timeout, and by length bytes 0 and 6). -/
theorem witness_EnabledOperationsComplete :
    [Instr.tick 0, .enc 1 0, .rx 0, .ser 0, .nvfault 2, .rdreg 0, .svcEnc, .svcRx, .svcCfg, .reset, .reqRead 0 [],
      .reqWrite 0 [], .reqFinish [], .handshake].all (fun i => i.wellFormed State.reset.params) = true ∧
    ((encFrameState axis0 []).encDue = true ∧ (encFrameState axis0 []).mode = .normal) ∧
    ((rxFrameState (fourReadings 0) 0).rxDue = true ∧ (rxFrameState (fourReadings 0) 0).mode = .normal) ∧
    (State.reset.encDue = false ∧ State.reset.rxDue = false ∧ State.reset.mode = .normal ∧
      State.reset.serRxq = []) ∧
    (let s := { configState [0x02, 0x34] with encDue := true, rxDue := true, cnt := 135, ovf := 19 };
      s.mode = .config ∧ s.serRxq = 0x02 :: [0x34] ∧ ¬1 + (0x02#8).toNat ≤ s.serRxq.length ∧
        ¬(s.params.serTimeout : Int) ≤
          ((s.ovf * 2 ^ s.params.cb + s.cnt : Int) - s.serLast) % 2 ^ (s.params.cb + s.params.ob)) ∧
    (let s := { configState [0x02, 0x34] with cnt := 136, ovf := 19 };
      (s.params.serTimeout : Int) ≤
        ((s.ovf * 2 ^ s.params.cb + s.cnt : Int) - s.serLast) % 2 ^ (s.params.cb + s.params.ob)) ∧
    ((configState [0]).serRxq = 0 :: [] ∧ (configState [6]).serRxq = 6 :: [] ∧ 5 < (6#8).toNat ∧
      (configState []).serRxq = [] ∧ (configState [0x01, 0x03]).serRxq = 0x01 :: [0x03] ∧
      1 + (0x01#8).toNat ≤ (configState [0x01, 0x03]).serRxq.length) := by decide

/-- The pseudo-operation at its boundaries: one operation, one full operation, two. -/
theorem witness_TickRepeatsSingleTicks : (1 ≤ 1 ∧ ticksOps 1 = [.tick 0]) ∧ (1 ≤ 4096 ∧ ticksOps 4096 = [.tick 0xFFF]) ∧
    (1 ≤ 4097 ∧ ticksOps 4097 = [.tick 0xFFF, .tick 0]) := by decide

/-- Just after reset, at the last value of every counter, and where a limit is above 65536. -/
theorem witness_SingleTickCounts :
    (State.reset.params.legal = true ∧ TimerInv State.reset) ∧
    TimerInv { State.reset with cnt := 255, ovf := 255, encPre := 3, rxPre := 7 } ∧
    (longState.params.legal = true ∧ TimerInv longState ∧ longState.cnt + 1 = 2 ^ longState.params.cb ∧
      longState.encPre.toNat = 65535 ∧ longState.encPre.toNat + 1 ≠ longState.params.encFrameOvf) := by decide

/-- At the last value of every counter, and where one limit is above 65536 and the other is 65536. -/
theorem witness_TickClosedForm :
    (State.reset.params.legal = true ∧
      TimerInv { State.reset with cnt := 255, ovf := 255, encPre := 3, rxPre := 7 }) ∧
    (longState.params.legal = true ∧ TimerInv longState) := by decide

theorem witness_EncCountsTheSample :
    (1#4).toNat < State.reset.params.nax ∧
      State.reset.axes[(1#4).toNat]? = some (Axis.initial Config.testParams) ∧
      (withAxis axis0).axes[(0#4).toNat]? = some axis0 := by decide

theorem witness_QuadratureStepsReverse :
    (0#4).toNat < (withAxis axis0).params.nax ∧ (withAxis axis0).axes[(0#4).toNat]? = some axis0 ∧
      (withAxis axis0).params.encPolicy = .quad ∧ axis0.encPv = true := by decide

theorem witness_SvcEncDrainsAndMeasures :
    (encFrameState axisED1 []).encDue = true ∧ (encFrameState axisED1 []).mode = .normal ∧
      (encFrameState axisED1 []).axes[0]? = some axisED1 := by decide

theorem witness_SvcEncZeroTargetRests :
    let x := { axisED1 with pidOut := 123456, pidInt := 7, pidLast := 99 }
    (encFrameState x []).encDue = true ∧ (encFrameState x []).mode = .normal ∧
      (encFrameState x []).axes[0]? = some x ∧ x.pidTgt = 0 := by decide

theorem witness_SvcEncPidAccumulates :
    let x := { axisED1 with pidTgt := 3276800 }
    (encFrameState x []).encDue = true ∧ (encFrameState x []).mode = .normal ∧
      (encFrameState x []).axes[0]? = some x ∧ x.pidTgt ≠ 0 := by decide

theorem witness_SvcEncCommandsTheMotor :
    let x := { axisED1 with pidTgt := BitVec.ofInt 32 (-3276800) }
    (encFrameState x []).encDue = true ∧ (encFrameState x []).mode = .normal ∧
      (encFrameState x []).axes[0]? = some x ∧ x.pidTgt ≠ 0 := by decide

/-- No byte, the handshake byte, and another byte. -/
theorem witness_SvcEncChecksTheHandshake :
    [[], [0x55], [0x12, 0x55]].all (fun q =>
      (encFrameState axis0 q).encDue && decide ((encFrameState axis0 q).mode = .normal)) = true := by decide

theorem witness_RxFirstSampleLoads : State.reset.rxPv = false := rfl

/-- A rise, a fall and no change of the monitored bit, for the first and for the last channel. -/
theorem witness_RxSequentialEdges :
    let s := rxState Config.testParams 0x01
    let s' := { rxState Config.testParams 0x00 with rxMux := 1 }
    (s.rxPv = true ∧ s.params.rxMode = .seq ∧ s.rxMux < s.params.nch ∧ s.chans.length = s.params.nch ∧
      s.chans[s.rxMux]? = some (Channel.initial Config.testParams)) ∧
    (s'.rxPv = true ∧ s'.rxMux < s'.params.nch ∧ s'.chans[s'.rxMux]? = some (Channel.initial Config.testParams)) ∧
    (s.rxPrev.getLsbD (s.params.chBitOf s.rxMux) = true ∧ (0x02 : Byte).getLsbD (s.params.chBitOf s.rxMux) = false) ∧
    (s'.rxPrev.getLsbD (s'.params.chBitOf s'.rxMux) = false ∧
      (0x02 : Byte).getLsbD (s'.params.chBitOf s'.rxMux) = true) ∧
    s.rxPrev.getLsbD (s.params.chBitOf s.rxMux) = (0x03 : Byte).getLsbD (s.params.chBitOf s.rxMux) ∧
    ((s.rxMux + 1) % s.params.nch ≠ s.rxMux ∧
      s.chans[(s.rxMux + 1) % s.params.nch]? = some (Channel.initial Config.testParams)) := by decide

theorem witness_RxParallelEdges :
    let s := rxState parParams 0x03
    s.rxPv = true ∧ s.params.rxMode = .par ∧ s.chans.length = s.params.nch ∧ s.params.legal = true ∧
      s.chans[1]? = some (Channel.initial parParams) := by decide

/-- Vector of E1: the counter wraps between the edges. -/
theorem witness_PulseWidthSurvivesWrap :
    let x := { Channel.initial Config.testParams with rxStart := 65500, rxEnd := 100 }
    65500 < 2 ^ Config.testParams.tb ∧ 136 < 2 ^ Config.testParams.tb ∧ x.rxStart = 65500 ∧
      x.rxEnd = (65500 + 136) % 2 ^ Config.testParams.tb ∧ x.width Config.testParams = 136 := by decide

theorem witness_PulseIsTimedInTicks :
    let s := rxState Config.testParams 0x02
    s.params.legal = true ∧ TimerInv s ∧ 1 ≤ 1 ∧ s.rxPv = true ∧ s.params.rxMode = .seq ∧
      s.rxMux < s.params.nch ∧ s.chans.length = s.params.nch ∧
      s.rxPrev.getLsbD (s.params.chBitOf s.rxMux) = false := by decide

theorem witness_RingOrderSurvivesInsertions : 0 < 1 := by decide

theorem witness_RingHoldsTheLastReadings :
    (fourReadings 1600).RingOk 7 ∧ [1, 2, 3, 4, 5, 6, 7].length = 7 := by decide

/-- Four readings of seven are nonzero: the median is; three: it is not. -/
theorem witness_MedianIsTheMiddleReading :
    (fourReadings 1600).RingOk 7 ∧ (fourReadings 1600).median 7 = 1600 ∧
      (Channel.initial Config.testParams).RingOk 7 := by decide

/-- At the loss limit exactly; channel 0 with new data, channel 1 without. -/
theorem witness_SvcRxDrainsTheRecords :
    let s := rxFrameState { fourReadings 1600 with rxEnd := 1600, rxUpd := true } 2000
    s.rxDue = true ∧ s.mode = .normal ∧ s.params.legal = true ∧
      s.elapsed s.lastPair ≤ s.params.lossT + s.params.fadeF ∧
      s.chans.map (fun x => x.rxUpd) = [true, false] ∧ ∀ x ∈ s.chans, x.RingOk s.params.rxN := by decide

/-- At LOSS_T exactly and one tick after. -/
theorem witness_SvcRxConditionsTheMedian :
    let s := rxFrameState (fourReadings 1600) 1000
    let s' := rxFrameState (fourReadings 1600) 1001
    (s.rxDue = true ∧ s.mode = .normal ∧ s.params.legal = true ∧
      s.elapsed s.lastPair ≤ s.params.lossT + s.params.fadeF ∧ s.elapsed s.lastPair ≤ s.params.lossT) ∧
    s'.elapsed s'.lastPair ≤ s'.params.lossT + s'.params.fadeF ∧ ¬s'.elapsed s'.lastPair ≤ s'.params.lossT := by
  decide

theorem witness_SvcRxLossResetsTheChannels :
    let s := rxFrameState (fourReadings 1600) 2001
    s.rxDue = true ∧ s.mode = .normal ∧ s.params.legal = true ∧
      s.params.lossT + s.params.fadeF < s.elapsed s.lastPair := by decide

theorem witness_SvcRxRetargetsTheAxes :
    let s := rxFrameState (fourReadings 1600) 0
    s.rxDue = true ∧ s.mode = .normal ∧ s.params.legal = true ∧
      s.axes[0]? = some (Axis.initial Config.testParams) ∧ s.params.axChOf 0 < s.chans.length := by decide

/-- One byte short of full, and full. -/
theorem witness_SerQueuesOrDropsTheByte :
    let s := { State.reset with serRxq := List.replicate 63 0 }
    let s' := { State.reset with serRxq := List.replicate 64 0 }
    s.serRxq.length < s.params.serFifoCap ∧ s'.params.serFifoCap ≤ s'.serRxq.length := by decide

/-- Length bytes 0, 6 and 2 (with an expired timeout), and an opcode byte that names no command. -/
theorem witness_SvcCfgReportsFramingErrors :
    let s := { configState [0x02, 0x34] with cnt := 136, ovf := 19 }
    ((configState [0]).mode = .config ∧ (configState [0]).serRxq = 0 :: []) ∧
    (5 < (6#8).toNat ∧ (configState [6, 1]).serRxq = 6 :: [1]) ∧
    (s.mode = .config ∧ s.serRxq = 0x02 :: [0x34] ∧ 1 ≤ (2#8).toNat ∧ (2#8).toNat ≤ 5 ∧ [0x34#8].length < (2#8).toNat ∧
      s.params.serTimeout ≤ s.elapsed s.serLast) ∧
    ((configState [0x01, 0xF0]).serRxq = 0x01 :: ([0xF0#8] ++ []) ∧ (1#8).toNat = 1 + 0 ∧
      ¬((0xF0#8).toNat < 0x10 ∨ (0x30 ≤ (0xF0#8).toNat ∧ (0xF0#8).toNat < 0x40) ∨ (0xF0#8).toNat = 0xFF)) := by decide

/-- Each way SVC.CFG is enabled. -/
theorem witness_SvcCfgAnswersTheRequest :
    let s := { configState [0x02, 0x34] with cnt := 136, ovf := 19 }
    (configState [0, 1]).serRxq = 0 :: [1] ∧ (configState [6]).serRxq = 6 :: [] ∧ 5 < (6#8).toNat ∧
    ((configState [1, 3]).serRxq = 1 :: [3] ∧ (1#8).toNat ≤ [3#8].length) ∧
    (s.mode = .config ∧ s.serRxq = 0x02 :: [0x34] ∧ s.params.serTimeout ≤ s.elapsed s.serLast) := by decide

/-- The first and the last parameter id of the block. -/
theorem witness_ReadAnswersTheField :
    (configState []).mode = .config ∧ Field.ofNum ((0x0#4).extractLsb' 0 3).toNat = some .kp ∧
    Field.ofNum ((0xE#4).extractLsb' 0 3).toNat = some .calm ∧
    ((0xE#4).extractLsb' 3 1).toNat < (configState []).params.nax := by decide

/-- Each bounded field at the ends of its legal set. -/
theorem witness_WriteSetsTheEditedField :
    ((configState []).mode = .config ∧ ConfigInv (configState [])) ∧
    (Field.ofNum ((0xB#4).extractLsb' 0 3).toNat = some .blend ∧ ((0xB#4).extractLsb' 3 1).toNat < 2 ∧
      [255#8, 0#8].length = Field.blend.size ∧ Field.blend.legal 32 (leValue [255, 0]) = true) ∧
    Field.ewin.legal 32 (leValue [5]) = true ∧ Field.ewin.legal 32 (leValue [32]) = true ∧
    Field.rev.legal 32 (leValue [1]) = true ∧ Field.kp.legal 32 (leValue [255, 255, 255, 255]) = true := by decide

/-- Each bounded field just outside its legal set. -/
theorem witness_WriteRefusesIllegalValues :
    (configState []).mode = .config ∧
    (Field.ofNum ((3#4).extractLsb' 0 3).toNat = some .blend ∧
      ((3#4).extractLsb' 3 1).toNat < (configState []).params.nax ∧
      [0#8, 1#8].length = Field.blend.size ∧ 255 < leNat [0, 1]) ∧
    (Field.ofNum ((4#4).extractLsb' 0 3).toNat = some .ewin ∧ [4#8].length = Field.ewin.size ∧ leNat [4] < 5 ∧
      (configState []).params.wCap < leNat [33]) ∧
    (Field.ofNum ((5#4).extractLsb' 0 3).toNat = some .rev ∧ Field.ofNum ((6#4).extractLsb' 0 3).toNat = some .calm ∧
      1 < leNat [2]) := by decide

/-- Field 7, an axis that the small block does not have, and wrong lengths, none and four value bytes among them. -/
theorem witness_RequestsReportBadIdsAndLengths :
    let s := configState []
    let s' := { smallState with mode := .config }
    (s.mode = .config ∧ ((7#4).extractLsb' 0 3).toNat = 7) ∧
    (s'.mode = .config ∧ s'.params.nax ≤ ((8#4).extractLsb' 3 1).toNat ∧ s'.params.legal = true) ∧
    (Field.ofNum ((0xB#4).extractLsb' 0 3).toNat = some .blend ∧ ((0xB#4).extractLsb' 3 1).toNat < s.params.nax ∧
      [0#8, 0, 0, 0] ≠ [] ∧ [0#8, 0, 0, 0].length ≠ Field.blend.size ∧ ([] : List Byte).length ≠ Field.blend.size) ∧
    ([] : List Byte).length ≤ 4 ∧ [0#8, 0, 0, 0].length ≤ 4 := by decide

theorem witness_WriteThenReadReturnsTheValue :
    (configState []).mode = .config ∧ ConfigInv (configState []) ∧
    Field.ofNum ((0xC#4).extractLsb' 0 3).toNat = some .ewin ∧ ((0xC#4).extractLsb' 3 1).toNat < 2 ∧
    [32#8].length = Field.ewin.size ∧ Field.ewin.legal 32 (leValue [32]) = true := by decide

theorem witness_FinishPersistsTheEdit : (configState []).mode = .config := rfl

theorem witness_HandshakeEntersConfig : State.reset.mode = .normal ∧ (configState []).mode ≠ .normal := by decide

/-- The last channel the block of eight can have is 7; this block has two. -/
theorem witness_GlobalRegistersRead :
    let s := { rxState Config.testParams 0 with rxMux := 1 }
    s.rxMux < 8 ∧ s.chans.length ≤ 8 ∧ s.chans[1]? = some (Channel.initial Config.testParams) ∧
      s.chans.length ≤ 2 ∧ 2 < 8 ∧ s.serRxq.length < 2 ^ 32 := by decide

theorem witness_AxisRegistersRead :
    1 < 4 ∧ (withAxis axisED1).axes[0]? = some axisED1 ∧ (31 < 32 ∧ axisED1.encWin[31]? = some 0) ∧
      axisED1.encWin[0]? = some 1 := by decide

theorem witness_ChannelRegistersRead :
    let s := rxFrameState (fourReadings 1600) 0
    1 < 8 ∧ s.chans[0]? = some (fourReadings 1600) ∧ (6 < 32 ∧ (fourReadings 1600).ringVal[6]? = some 0) ∧
      (fourReadings 1600).ringOrd[0]? = some 4 := by decide

theorem witness_ConfigRegistersRead : 1 < 4 ∧ 1 < State.reset.params.nax ∧ Field.ofNum 0 = some .kp ∧
    Field.ofNum 6 = some .calm := by decide

/-- An address for each clause, at the ends of the ranges, in a block of one axis and one channel. -/
theorem witness_UnnamedAddressesReadZero :
    (0x004 ≤ 0x00F ∧ 0x00F < 0x010) ∧ (0x054 ≤ 0x05F ∧ 0x05F < 0x060) ∧ (0x0A8 ≤ 0x0FF ∧ 0x0FF < 0x100) ∧
    (0x180 ≤ 0x1FF ∧ 0x1FF < 0x200) ∧ (0x4C0 ≤ 0xFFF ∧ 0xFFF < 0x1000) ∧
    (smallState.axes.length ≤ 1 ∧ 1 < 4 ∧ 0x13F = 0x100 + 0x20 * 1 + 31) ∧
    (smallState.params.nax ≤ 1 ∧ 0x07F = 0x060 + 8 * 3 + 7) ∧
    (smallState.params.nax ≤ 8 / 8 ∧ 0x408 = 0x400 + 0x40 * 0 + 8) ∧ (0x487 = 0x400 + 0x40 * 2 + 7 ∧ 7 % 8 = 7) ∧
    (smallState.chans.length ≤ 7 ∧ 7 < 8 ∧ 0x3FF = 0x200 + 0x40 * 7 + 0x3F) ∧
    (smallState.axes[0]? = some (Axis.initial smallParams) ∧ (Axis.initial smallParams).encWin.length ≤ 5) ∧
    (smallState.chans[0]? = some (Channel.initial smallParams) ∧ (Channel.initial smallParams).ringVal.length ≤ 3 ∧
      (Channel.initial smallParams).ringOrd.length ≤ 3) := by decide

theorem witness_NvfaultInvalidatesOneCopy : 0#2 ≠ 3 ∧ 1#2 ≠ 3 ∧ 2#2 ≠ 3 := by decide

/-- The last axis of the block of two, and an axis without an id. -/
theorem witness_ResetLoadsTheVote : (State.reset.params.legal = true ∧ 1 < State.reset.params.nax) ∧
    threeState.params.legal = true ∧ 2 < threeState.params.nax := by decide

theorem witness_FinishSurvivesOneBadCopy :
    ((configState []).params.legal = true ∧ (configState []).mode = .config ∧ ConfigInv (configState []) ∧
      2#2 ≠ 3 ∧ (configState []).params.nax ≤ 2) ∧
    threeState.params.legal = true ∧ threeState.mode = .config ∧ ConfigInv threeState ∧ 2 < threeState.params.nax := by
  decide

/-- Each of the three changes of mode happens. -/
theorem witness_ModeChangesAreTheThree :
    after .handshake State.reset (fun t => t.mode != .normal) = true ∧
    after .svcEnc (encFrameState axis0 [0x55]) (fun t => t.mode != .normal) = true ∧
    after (.reqFinish []) (configState []) (fun t => t.mode != .config) = true ∧
    after .svcCfg (configState [0x01, 0xFF]) (fun t => t.mode != .config) = true ∧
    after .reset (configState []) (fun t => t.mode != .config) = true := by decide

/-- Each writer of the timer and of the flags changes what it writes. -/
theorem witness_TimerAndFlagsHaveTheirWriters :
    after (.tick 0) { State.reset with cnt := 255, encPre := 3, rxPre := 7 }
      (fun t => t.cnt != 255 && t.encDue && t.rxDue) = true ∧
    after .reset { encFrameState axis0 [] with cnt := 1, rxDue := true }
      (fun t => t.cnt == 0 && !t.encDue && !t.rxDue) = true ∧
    after .svcEnc (encFrameState axis0 []) (fun t => !t.encDue) = true ∧
    after (.rx 0) { rxState Config.testParams 0x02 with rxMux := 1 } (fun t => t.rxDue) = true ∧
    after .svcRx (rxFrameState (fourReadings 0) 0) (fun t => !t.rxDue) = true := by decide

/-- Each writer of the configuration changes what it writes. -/
theorem witness_ConfigurationHasItsWriters :
    let s := { configState [0x02, 0x34, 0x06] with cfg := [] }
    after .reset s (fun t => t.cfg != s.cfg) = true ∧
    after (.reqWrite 4 [6]) s (fun t => t.cfgEdit != s.cfgEdit) = true ∧
    after .svcCfg s (fun t => t.cfgEdit != s.cfgEdit) = true ∧
    after .handshake { s with mode := .normal } (fun t => t.cfgEdit != s.cfgEdit) = true ∧
    after (.nvfault 0) s (fun t => t.nv != s.nv) = true ∧
    after (.reqFinish []) { s with cfgEdit := [] } (fun t => t.nv != s.nv) = true := by decide

/-- Operations that complete outside NORMAL mode, both flags latched. -/
theorem witness_OutputsHoldOutsideNormal :
    let s := { configState [0x01, 0x03] with encDue := true, rxDue := true }
    s.mode ≠ .normal ∧ [Instr.tick 0, .enc 0 1, .rx 1, .ser 0, .nvfault 0, .rdreg 0, .svcCfg, .reqFinish []].all
      (fun i => after i s (fun _ => true)) = true := by decide

/-- Each history grows, and a sequence of operations completes. -/
theorem witness_TransmitHistoryOnlyGrows :
    after .svcCfg { configState [0x01, 0x03] with serTx := [0xAC] }
      (fun t => t.serTx == [0xAC, 0xAC, 0x80, 0x00]) = true ∧
    after .svcEnc (encFrameState axis0 []) (fun t => t.motorOut == [(0, 0), (1, 0)]) = true ∧
    after .reset State.reset (fun t => t.motorOut == [(0, 0), (1, 0)]) = true ∧
    afterAll [.svcEnc, .svcCfg, .reset] (encFrameState axis0 [0x55, 0x01, 0x03])
      (fun t => t.serTx == [0xAC, 0x80, 0x00]) = true := by decide

/-- A step that drains the window of vector ED1. -/
theorem witness_StepKeepsWindowInv :
    let s := { encFrameState axisED1 [] with pending := [0x8000] }
    ConfigInv s ∧ WindowInv s ∧ stepped s (fun t => t.axes != s.axes) = true := by decide +kernel

/-- A step that inserts a reading. -/
theorem witness_StepKeepsRingInv :
    let s := { rxFrameState { fourReadings 1600 with rxEnd := 1500, rxUpd := true } 0 with pending := [0x9000] }
    RingInv s ∧ stepped s (fun t => t.chans != s.chans) = true := by decide

theorem witness_StepKeepsBlockInv :
    let s := { rxFrameState { fourReadings 1600 with rxEnd := 1500, rxUpd := true } 0 with pending := [0x9000] }
    BlockInv s ∧ stepped s (fun t => t.chans != s.chans) = true := by decide +kernel

theorem witness_InitialStateHasBlockInv : Config.testParams.legal = true ∧ smallParams.legal = true := by decide

end Sys2Proof.Tests
end

section
/-! The writers of the configuration (R8, R51, R52, R56): what each operation leaves of the parameters, CFG, CFG_EDIT
and NV_COPY. -/

namespace Sys2Proof.Machine

/-! ## What an operation that completes has done -/

/-- Most operations are a guard before a next state: what such an operation did where it completed. -/
theorem next_of_guard {c : Prop} [Decidable c] {u t : State} {stop : Host.Outcome State Fault Refusal}
    (h : (if c then .next u else stop) = .next t) (hstop : ∀ r, stop ≠ .next r) : c ∧ u = t := by
  split at h
  · exact ⟨‹c›, Host.Outcome.next.inj h⟩
  · exact absurd h (hstop t)

/-- ENC completes for an axis of the block (R104, R143). -/
theorem execEnc_next {axis : BitVec 4} {ab : BitVec 2} {s t : State} (h : execEnc axis ab s = .next t) :
    axis.toNat < s.params.nax ∧ s.modifyAxis axis.toNat (fun x => x.sample s.params.encPolicy ab) = t :=
  next_of_guard h (fun _ => nofun)

/-- NVFAULT completes for one of the three copies (R104, R361). -/
theorem execNvfault_next {copy : BitVec 2} {s t : State} (h : execNvfault copy s = .next t) :
    copy ≠ 3 ∧ { s with nv := s.nv.invalidate copy.toNat } = t := by
  unfold execNvfault at h
  split at h
  · cases h
  · exact ⟨‹_›, Host.Outcome.next.inj h⟩

/-- SVC.ENC completes where it is enabled (R281, R282). -/
theorem execSvcEnc_next {s t : State} (h : execSvcEnc s = .next t) :
    s.svcEncEnabled = true ∧ { s with encDue := false }.encFrame.dispatchMotors.handshakeCheck = t :=
  next_of_guard h (fun _ => nofun)

/-- SVC.RX completes where it is enabled (R284, R285). -/
theorem execSvcRx_next {s t : State} (h : execSvcRx s = .next t) :
    s.svcRxEnabled = true ∧ { s with rxDue := false }.rxDrain.condition.targets = t :=
  next_of_guard h (fun _ => nofun)

/-- SVC.CFG completes where it is enabled, on the request at the front of SER_RXQ (R312, R313). -/
theorem execSvcCfg_next {s t : State} (h : execSvcCfg s = .next t) :
    s.svcCfgEnabled = true ∧ ∃ l rest, s.serRxq = l :: rest ∧ s.serveRequest l rest = t := by
  unfold execSvcCfg at h
  split at h
  · cases hq : s.serRxq with
    | nil => simp [hq] at h
    | cons l rest =>
      rw [hq] at h
      exact ⟨‹_›, l, rest, rfl, Host.Outcome.next.inj h⟩
  · cases h

/-- READ completes in CONFIG mode (R108). -/
theorem execReqRead_next {id : BitVec 4} {v : List Byte} {s t : State} (h : execReqRead id v s = .next t) :
    s.mode = .config ∧ s.runRead id v = t :=
  next_of_guard h (fun _ => nofun)

/-- WRITE completes in CONFIG mode (R108). -/
theorem execReqWrite_next {id : BitVec 4} {v : List Byte} {s t : State} (h : execReqWrite id v s = .next t) :
    s.mode = .config ∧ s.runWrite id v = t :=
  next_of_guard h (fun _ => nofun)

/-- FINISH completes in CONFIG mode (R108). -/
theorem execReqFinish_next {v : List Byte} {s t : State} (h : execReqFinish v s = .next t) :
    s.mode = .config ∧ s.runFinish v = t :=
  next_of_guard h (fun _ => nofun)

/-- HANDSHAKE completes in NORMAL mode (R113). -/
theorem execHandshake_next {s t : State} (h : execHandshake s = .next t) : s.mode = .normal ∧ s.enterConfig = t :=
  next_of_guard h (fun _ => nofun)

/-! ## Operations that write none of the four -/

/-- `t` has the parameters, CFG, CFG_EDIT and NV_COPY of `s`. -/
structure SameConfiguration (s t : State) : Prop where
  params : t.params = s.params
  cfg : t.cfg = s.cfg
  cfgEdit : t.cfgEdit = s.cfgEdit
  nv : t.nv = s.nv

/-- Ticks write the timer, the prescalers and the flags only. -/
theorem tickTimes_sameConfiguration (n : Nat) (s : State) : SameConfiguration s (s.tickTimes n) := by
  rw [(tickTimes_frame n s).1]
  exact ⟨rfl, rfl, rfl, rfl⟩

/-- RX's decoders write receiver state only. -/
theorem rxEdges_sameConfiguration (s : State) (port : Byte) : SameConfiguration s (s.rxEdges port) := by
  rw [(rxEdges_frame s port).1]
  exact ⟨rfl, rfl, rfl, rfl⟩

/-- So does RX, which adds the sample itself (R180). -/
theorem execRx_sameConfiguration {port : Byte} {s t : State} (h : execRx port s = .next t) :
    SameConfiguration s t := by
  unfold execRx at h
  split at h <;> obtain rfl := Host.Outcome.next.inj h
  · obtain ⟨hp, hc, he, hn⟩ := rxEdges_sameConfiguration s port
    exact ⟨hp, hc, he, hn⟩
  · exact ⟨rfl, rfl, rfl, rfl⟩

/-- SER writes the queue and its time stamp only (R310). -/
theorem execSer_sameConfiguration {b : Byte} {s t : State} (h : execSer b s = .next t) : SameConfiguration s t := by
  unfold execSer at h
  split at h <;> obtain rfl := Host.Outcome.next.inj h <;> exact ⟨rfl, rfl, rfl, rfl⟩

/-- Loss reset or fade, the conditioner writes receiver state only (R226). -/
theorem condition_sameConfiguration (s : State) : SameConfiguration s s.condition := by
  rcases condition_cases s with ⟨-, h⟩ | ⟨-, h⟩ <;> rw [h] <;> exact ⟨rfl, rfl, rfl, rfl⟩

/-- SVC.RX writes receiver state and targets only (R285). -/
theorem execSvcRx_sameConfiguration {s t : State} (h : execSvcRx s = .next t) : SameConfiguration s t := by
  obtain ⟨-, rfl⟩ := execSvcRx_next h
  obtain ⟨hp, hc, he, hn⟩ := condition_sameConfiguration { s with rxDue := false }.rxDrain
  exact ⟨hp, hc, he, hn⟩

/-- A READ only answers (R314). -/
theorem runRead_sameConfiguration (s : State) (id : BitVec 4) (v : List Byte) :
    SameConfiguration s (s.runRead id v) := by
  rcases runRead_cases s id v with ⟨-, h⟩ | ⟨a, f, -, -, h⟩ | ⟨a, f, -, -, h⟩ <;> rw [h] <;>
    exact ⟨rfl, rfl, rfl, rfl⟩

/-! ## Operations that write one of them, or two -/

/-- The handshake check writes CFG_EDIT only (R283). -/
theorem handshakeCheck_configuration (s : State) :
    s.handshakeCheck.params = s.params ∧ s.handshakeCheck.cfg = s.cfg ∧ s.handshakeCheck.nv = s.nv := by
  rcases handshakeCheck_cases s with ⟨-, h⟩ | ⟨rest, -, h⟩ | ⟨b, rest, -, -, h⟩ <;> rw [h] <;> exact ⟨rfl, rfl, rfl⟩

/-- A WRITE writes CFG_EDIT only (R315). -/
theorem runWrite_configuration (s : State) (id : BitVec 4) (v : List Byte) :
    (s.runWrite id v).params = s.params ∧ (s.runWrite id v).cfg = s.cfg ∧ (s.runWrite id v).nv = s.nv := by
  rcases runWrite_cases s id v with ⟨-, h⟩ | ⟨a, f, -, ⟨-, -, h⟩ | ⟨-, -, h⟩ | ⟨-, h⟩⟩ <;> rw [h] <;>
    exact ⟨rfl, rfl, rfl⟩

/-- A FINISH writes NV_COPY only (R316, R323). -/
theorem runFinish_configuration (s : State) (v : List Byte) :
    (s.runFinish v).params = s.params ∧ (s.runFinish v).cfg = s.cfg ∧ (s.runFinish v).cfgEdit = s.cfgEdit := by
  rcases runFinish_cases s v with ⟨-, h⟩ | ⟨-, h⟩ <;> rw [h] <;> exact ⟨rfl, rfl, rfl⟩

/-- No request writes CFG. -/
theorem runRequest_configuration (s : State) (r : Request) :
    (s.runRequest r).params = s.params ∧ (s.runRequest r).cfg = s.cfg := by
  cases r with
  | read id v => exact ⟨(runRead_sameConfiguration s id v).params, (runRead_sameConfiguration s id v).cfg⟩
  | write id v =>
    obtain ⟨hp, hc, -⟩ := runWrite_configuration s id v
    exact ⟨hp, hc⟩
  | finish v =>
    obtain ⟨hp, hc, -⟩ := runFinish_configuration s v
    exact ⟨hp, hc⟩

/-- SVC.CFG does not write CFG, whether it finds a framing error or runs a request (R313). -/
theorem serveRequest_configuration (s : State) (l : Byte) (rest : List Byte) :
    (s.serveRequest l rest).params = s.params ∧ (s.serveRequest l rest).cfg = s.cfg := by
  rcases serveRequest_cases s l rest with ⟨q, code, -, h⟩ | ⟨op, v, r, -, -, -, -, -, h⟩ <;> rw [h]
  · exact ⟨rfl, rfl⟩
  · exact runRequest_configuration (s.withRxq (rest.drop l.toNat)) r

/-! ## The obligation -/

/-- Where nothing changed, any set of writers accounts for the changes. -/
theorem SameConfiguration.onlyWriters {s t : State} {cfgWriter editWriter nvWriter : Prop}
    (h : SameConfiguration s t) :
    t.params = s.params ∧ (t.cfg ≠ s.cfg → cfgWriter) ∧ (t.cfgEdit ≠ s.cfgEdit → editWriter) ∧
      (t.nv ≠ s.nv → nvWriter) :=
  ⟨h.params, absurd h.cfg, absurd h.cfgEdit, absurd h.nv⟩

/-- Settles O54, operation by operation: what its frame lemma says it keeps did not change, and for the rest it is
itself one of the writers. -/
theorem configurationHasItsWriters : Obligations.ConfigurationHasItsWriters := by
  intro s t i h
  cases i with
  | tick k =>
    obtain rfl := Host.Outcome.next.inj h
    exact (tickTimes_sameConfiguration _ s).onlyWriters
  | enc axis ab =>
    obtain ⟨-, rfl⟩ := execEnc_next h
    exact SameConfiguration.onlyWriters ⟨rfl, rfl, rfl, rfl⟩
  | rx port => exact (execRx_sameConfiguration h).onlyWriters
  | ser b => exact (execSer_sameConfiguration h).onlyWriters
  | nvfault copy =>
    obtain ⟨-, rfl⟩ := execNvfault_next h
    exact ⟨rfl, absurd rfl, absurd rfl, fun _ => .inr (.inr ⟨copy, rfl⟩)⟩
  | rdreg addr =>
    obtain rfl := Host.Outcome.next.inj h
    exact SameConfiguration.onlyWriters ⟨rfl, rfl, rfl, rfl⟩
  | svcEnc =>
    obtain ⟨-, rfl⟩ := execSvcEnc_next h
    obtain ⟨hp, hc, hn⟩ := handshakeCheck_configuration { s with encDue := false }.encFrame.dispatchMotors
    exact ⟨hp, absurd hc, fun _ => .inr (.inr (.inl rfl)), absurd hn⟩
  | svcRx => exact (execSvcRx_sameConfiguration h).onlyWriters
  | svcCfg =>
    obtain ⟨-, l, rest, -, rfl⟩ := execSvcCfg_next h
    obtain ⟨hp, hc⟩ := serveRequest_configuration s l rest
    exact ⟨hp, absurd hc, fun _ => .inr (.inr (.inr (.inl rfl))), fun _ => .inl rfl⟩
  | reset =>
    obtain rfl := Host.Outcome.next.inj h
    exact ⟨rfl, fun _ => rfl, fun _ => .inl rfl, absurd rfl⟩
  | reqRead id v =>
    obtain ⟨-, rfl⟩ := execReqRead_next h
    exact (runRead_sameConfiguration s id v).onlyWriters
  | reqWrite id v =>
    obtain ⟨-, rfl⟩ := execReqWrite_next h
    obtain ⟨hp, hc, hn⟩ := runWrite_configuration s id v
    exact ⟨hp, absurd hc, fun _ => .inr (.inr (.inr (.inr ⟨id, v, rfl⟩))), absurd hn⟩
  | reqFinish v =>
    obtain ⟨-, rfl⟩ := execReqFinish_next h
    obtain ⟨hp, hc, he⟩ := runFinish_configuration s v
    exact ⟨hp, absurd hc, absurd he, fun _ => .inr (.inl ⟨v, rfl⟩)⟩
  | handshake =>
    obtain ⟨-, rfl⟩ := execHandshake_next h
    exact ⟨rfl, absurd rfl, fun _ => .inr (.inl rfl), absurd rfl⟩

end Sys2Proof.Machine
end

section
/-! What each operation may write (R15, R33, R55, R410), said once for all fields together: the writers of the timer,
the flags and the output histories follow. -/

namespace Sys2Proof.Machine

/-! ## The frame of every operation -/

/-- `s` with the fields that the operation may write taken from `t`; RESET instead keeps the fields it may not write. -/
def writtenFrom (s t : State) : Instr → State
  | .tick _ => { s with cnt := t.cnt, ovf := t.ovf, encPre := t.encPre, rxPre := t.rxPre, encDue := t.encDue,
                        rxDue := t.rxDue }
  | .enc _ _ => { s with axes := t.axes }
  | .rx _ => { s with rxPrev := t.rxPrev, rxPv := t.rxPv, rxMux := t.rxMux, lastPair := t.lastPair, lost := t.lost,
                      rxDue := t.rxDue, chans := t.chans }
  | .ser _ => { s with serRxq := t.serRxq, serLast := t.serLast }
  | .nvfault _ => { s with nv := t.nv }
  | .rdreg _ => { s with hostOut := t.hostOut }
  | .svcEnc => { s with encDue := t.encDue, axes := t.axes, motorOut := t.motorOut, serRxq := t.serRxq,
                        mode := t.mode, cfgEdit := t.cfgEdit }
  | .svcRx => { s with rxDue := t.rxDue, chans := t.chans, rxMux := t.rxMux, lost := t.lost, axes := t.axes }
  | .svcCfg => { s with serRxq := t.serRxq, serTx := t.serTx, cfgEdit := t.cfgEdit, nv := t.nv, mode := t.mode }
  | .reset => { t with params := s.params, nv := s.nv, serTx := s.serTx, hostOut := s.hostOut, pending := s.pending }
  | .reqRead _ _ => { s with serTx := t.serTx }
  | .reqWrite _ _ => { s with serTx := t.serTx, cfgEdit := t.cfgEdit }
  | .reqFinish _ => { s with serTx := t.serTx, nv := t.nv, mode := t.mode }
  | .handshake => { s with mode := t.mode, cfgEdit := t.cfgEdit }

/-- RX loads the sample and, after the first, sees its edges (R180). -/
theorem execRx_next {port : Byte} {s t : State} (h : execRx port s = .next t) :
    (s.rxPv = true ∧ { s.rxEdges port with rxPrev := port } = t) ∨
      (s.rxPv = false ∧ { s with rxPrev := port, rxPv := true } = t) := by
  unfold execRx at h
  split at h
  · exact .inl ⟨‹_›, Host.Outcome.next.inj h⟩
  · exact .inr ⟨Bool.not_eq_true _ ▸ ‹_›, Host.Outcome.next.inj h⟩

/-- SER queues the byte where there is room, else drops it (R310). -/
theorem execSer_next {b : Byte} {s t : State} (h : execSer b s = .next t) :
    (s.serRxq.length < s.params.serFifoCap ∧ { s with serRxq := s.serRxq ++ [b], serLast := s.now } = t) ∨ s = t := by
  unfold execSer at h
  split at h
  · exact .inl ⟨‹_›, Host.Outcome.next.inj h⟩
  · exact .inr (Host.Outcome.next.inj h)

/-- A READ emits, and does nothing else (R314). -/
theorem runRead_frame (s : State) (id : BitVec 4) (v : List Byte) :
    ∃ bs, s.runRead id v = s.emit bs := by
  rcases runRead_cases s id v with ⟨-, h⟩ | ⟨a, f, -, -, h⟩ | ⟨a, f, -, -, h⟩ <;> exact ⟨_, h⟩

/-- A WRITE emits and, where the value is legal, sets a field of CFG_EDIT (R315, R318). -/
theorem runWrite_frame (s : State) (id : BitVec 4) (v : List Byte) :
    ∃ r bs, s.runWrite id v = { s with cfgEdit := r }.emit bs ∧
      (r = s.cfgEdit ∨ ∃ a f w, f.legal s.params.wCap w = true ∧ r = s.cfgEdit.setField a f w) := by
  rcases runWrite_cases s id v with ⟨-, h⟩ | ⟨a, f, -, ⟨-, hl, h⟩ | ⟨-, -, h⟩ | ⟨-, h⟩⟩
  · exact ⟨s.cfgEdit, _, h, .inl rfl⟩
  · exact ⟨_, _, h, .inr ⟨a, f, _, hl, rfl⟩⟩
  · exact ⟨s.cfgEdit, _, h, .inl rfl⟩
  · exact ⟨s.cfgEdit, _, h, .inl rfl⟩

/-- A FINISH emits and may write NV_COPY and MODE (R316). -/
theorem runFinish_frame (s : State) (v : List Byte) :
    ∃ bs nv m, s.runFinish v = { s.emit bs with nv := nv, mode := m } := by
  rcases runFinish_cases s v with ⟨-, h⟩ | ⟨-, h⟩
  · exact ⟨_, _, _, h⟩
  · exact ⟨_, s.nv, s.mode, h⟩

/-- What SVC.CFG may write: it takes bytes off SER_RXQ, emits, and writes CFG_EDIT, by one legal WRITE, NV_COPY and
MODE (R313). -/
theorem serveRequest_frame (s : State) (l : Byte) (rest : List Byte) :
    ∃ q bs r nv m, s.serveRequest l rest = { (s.withRxq q).emit bs with cfgEdit := r, nv := nv, mode := m } ∧
      q.length ≤ rest.length ∧
      (r = s.cfgEdit ∨ ∃ a f w, f.legal s.params.wCap w = true ∧ r = s.cfgEdit.setField a f w) := by
  rcases serveRequest_cases s l rest with ⟨q, code, hq, h⟩ | ⟨op, v, r, -, -, -, -, -, h⟩
  · exact ⟨q, [code], s.cfgEdit, s.nv, s.mode, h, hq.length_le, .inl rfl⟩
  · have hq : (rest.drop l.toNat).length ≤ rest.length := (List.drop_suffix _ _).length_le
    cases r with
    | read id v =>
      obtain ⟨bs, hr⟩ := runRead_frame (s.withRxq (rest.drop l.toNat)) id v
      exact ⟨rest.drop l.toNat, bs, s.cfgEdit, s.nv, s.mode, h.trans hr, hq, .inl rfl⟩
    | write id v =>
      obtain ⟨r, bs, hr, hw⟩ := runWrite_frame (s.withRxq (rest.drop l.toNat)) id v
      exact ⟨_, bs, r, s.nv, s.mode, h.trans hr, hq, hw⟩
    | finish v =>
      obtain ⟨bs, nv, m, hr⟩ := runFinish_frame (s.withRxq (rest.drop l.toNat)) v
      exact ⟨_, bs, s.cfgEdit, nv, m, h.trans hr, hq, .inl rfl⟩

/-- The handshake check takes bytes off SER_RXQ and may enter CONFIG mode, where CFG_EDIT becomes CFG (R283). -/
theorem handshakeCheck_frame (s : State) :
    ∃ q m r, s.handshakeCheck = { s with serRxq := q, mode := m, cfgEdit := r } ∧
      q.length ≤ s.serRxq.length ∧ (r = s.cfgEdit ∨ r = s.cfg) := by
  rcases handshakeCheck_cases s with ⟨-, h⟩ | ⟨rest, hq, h⟩ | ⟨b, rest, hq, -, h⟩
  · exact ⟨s.serRxq, s.mode, s.cfgEdit, h, Nat.le_refl _, .inl rfl⟩
  · exact ⟨rest, .config, s.cfg, h, by simp [hq], .inr rfl⟩
  · exact ⟨rest, s.mode, s.cfgEdit, h, by simp [hq], .inl rfl⟩

/-- The conditioner writes the channels, RX_MUX and LOST only (R226, R227). -/
theorem condition_frame (s : State) : ∃ cs m l, s.condition = { s with chans := cs, rxMux := m, lost := l } := by
  rcases condition_cases s with ⟨-, h⟩ | ⟨-, h⟩
  · exact ⟨_, _, _, h⟩
  · exact ⟨_, s.rxMux, s.lost, h⟩

/-- An operation that completes writes no other fields than `writtenFrom` names. -/
theorem exec_frame {i : Instr} {s t : State} (h : exec i s = .next t) : t = writtenFrom s t i := by
  cases i with
  | tick k =>
    obtain rfl := Host.Outcome.next.inj h
    exact (tickTimes_frame _ s).1
  | enc axis ab => obtain ⟨-, rfl⟩ := execEnc_next h; rfl
  | rx port =>
    rcases execRx_next h with ⟨-, rfl⟩ | ⟨-, rfl⟩
    · have hf := (rxEdges_frame s port).1
      generalize s.rxEdges port = u at hf ⊢
      rw [hf]
      rfl
    · rfl
  | ser b => rcases execSer_next h with ⟨-, rfl⟩ | rfl <;> rfl
  | nvfault copy => obtain ⟨-, rfl⟩ := execNvfault_next h; rfl
  | rdreg addr => obtain rfl := Host.Outcome.next.inj h; rfl
  | svcEnc =>
    obtain ⟨-, rfl⟩ := execSvcEnc_next h
    obtain ⟨q, m, r, hc, -⟩ := handshakeCheck_frame { s with encDue := false }.encFrame.dispatchMotors
    rw [hc]
    rfl
  | svcRx =>
    obtain ⟨-, rfl⟩ := execSvcRx_next h
    obtain ⟨cs, m, l, hc⟩ := condition_frame { s with rxDue := false }.rxDrain
    rw [hc]
    rfl
  | svcCfg =>
    obtain ⟨-, l, rest, -, rfl⟩ := execSvcCfg_next h
    obtain ⟨q, bs, r, nv, m, hc, -⟩ := serveRequest_frame s l rest
    rw [hc]
    rfl
  | reset => obtain rfl := Host.Outcome.next.inj h; rfl
  | reqRead id v =>
    obtain ⟨-, rfl⟩ := execReqRead_next h
    obtain ⟨bs, hc⟩ := runRead_frame s id v
    rw [hc]
    rfl
  | reqWrite id v =>
    obtain ⟨-, rfl⟩ := execReqWrite_next h
    obtain ⟨r, bs, hc, -⟩ := runWrite_frame s id v
    rw [hc]
    rfl
  | reqFinish v =>
    obtain ⟨-, rfl⟩ := execReqFinish_next h
    obtain ⟨bs, nv, m, hc⟩ := runFinish_frame s v
    rw [hc]
    rfl
  | handshake => obtain ⟨-, rfl⟩ := execHandshake_next h; rfl

/-! ## The timer and the frame flags -/

/-- CNT, OVF and the prescalers change by TICK and RESET only (R410). -/
theorem exec_timer {i : Instr} {s t : State} (h : exec i s = .next t) :
    (t.cnt = s.cnt ∧ t.ovf = s.ovf ∧ t.encPre = s.encPre ∧ t.rxPre = s.rxPre) ∨ (∃ k, i = .tick k) ∨ i = .reset := by
  have hf := exec_frame h
  cases i with
  | tick k => exact .inr (.inl ⟨k, rfl⟩)
  | reset => exact .inr (.inr rfl)
  | _ =>
    exact .inl ⟨(congrArg State.cnt hf :), (congrArg State.ovf hf :), (congrArg State.encPre hf :),
      (congrArg State.rxPre hf :)⟩

/-- ENC_DUE stays, or TICK writes it and does not clear it, or SVC.ENC or RESET clears it (R33, R410). -/
theorem exec_encDue {i : Instr} {s t : State} (h : exec i s = .next t) :
    t.encDue = s.encDue ∨ ((∃ k, i = .tick k) ∧ (s.encDue = true → t.encDue = true)) ∨
      (t.encDue = false ∧ (i = .svcEnc ∨ i = .reset)) := by
  have hf := exec_frame h
  cases i with
  | tick k =>
    obtain rfl := Host.Outcome.next.inj h
    exact .inr (.inl ⟨⟨k, rfl⟩, (tickTimes_frame _ s).2.1⟩)
  | svcEnc =>
    obtain ⟨-, rfl⟩ := execSvcEnc_next h
    obtain ⟨q, m, r, hc, -⟩ := handshakeCheck_frame { s with encDue := false }.encFrame.dispatchMotors
    exact .inr (.inr ⟨(congrArg State.encDue hc :), .inl rfl⟩)
  | reset => obtain rfl := Host.Outcome.next.inj h; exact .inr (.inr ⟨rfl, .inr rfl⟩)
  | _ => exact .inl (congrArg State.encDue hf :)

/-- RX_DUE stays, or TICK or RX writes it and does not clear it, or SVC.RX or RESET clears it (R33, R410). -/
theorem exec_rxDue {i : Instr} {s t : State} (h : exec i s = .next t) :
    t.rxDue = s.rxDue ∨ (((∃ k, i = .tick k) ∨ ∃ p, i = .rx p) ∧ (s.rxDue = true → t.rxDue = true)) ∨
      (t.rxDue = false ∧ (i = .svcRx ∨ i = .reset)) := by
  have hf := exec_frame h
  cases i with
  | tick k =>
    obtain rfl := Host.Outcome.next.inj h
    exact .inr (.inl ⟨.inl ⟨k, rfl⟩, (tickTimes_frame _ s).2.2⟩)
  | rx port =>
    rcases execRx_next h with ⟨-, rfl⟩ | ⟨-, rfl⟩
    · exact .inr (.inl ⟨.inr ⟨port, rfl⟩, (rxEdges_frame s port).2⟩)
    · exact .inl rfl
  | svcRx =>
    obtain ⟨-, rfl⟩ := execSvcRx_next h
    obtain ⟨cs, m, l, hc⟩ := condition_frame { s with rxDue := false }.rxDrain
    exact .inr (.inr ⟨(congrArg (fun u => u.targets.rxDue) hc :), .inl rfl⟩)
  | reset => obtain rfl := Host.Outcome.next.inj h; exact .inr (.inr ⟨rfl, .inr rfl⟩)
  | _ => exact .inl (congrArg State.rxDue hf :)

/-- Settles O53: a change of the timer is TICK's or RESET's, and each flag rises and falls only as its own lemma
says. -/
theorem timerAndFlagsHaveTheirWriters : Obligations.TimerAndFlagsHaveTheirWriters := by
  intro s t i h
  have he := exec_encDue h
  have hr := exec_rxDue h
  refine ⟨fun hne => ?_, fun h0 h1 => ?_, fun h1 h0 => ?_, fun h0 h1 => ?_, fun h1 h0 => ?_⟩
  · rcases exec_timer h with ⟨hc, ho, hp, hq⟩ | hk | rfl
    · simp [hc, ho, hp, hq] at hne
    · exact .inl hk
    · obtain rfl := Host.Outcome.next.inj h
      exact .inr ⟨rfl, by simp [State.now], rfl, rfl⟩
  · rcases he with he | ⟨hk, -⟩ | ⟨he, -⟩
    · simp [he, h0] at h1
    · exact hk
    · simp [he] at h1
  · rcases he with he | ⟨-, hk⟩ | ⟨-, hw⟩
    · simp [he, h1] at h0
    · simp [hk h1] at h0
    · exact hw
  · rcases hr with hr | ⟨hk, -⟩ | ⟨hr, -⟩
    · simp [hr, h0] at h1
    · exact hk
    · simp [hr] at h1
  · rcases hr with hr | ⟨-, hk⟩ | ⟨-, hw⟩
    · simp [hr, h1] at h0
    · simp [hk h1] at h0
    · exact hw

/-! ## The output histories -/

/-- SER_TX stays, or SVC.CFG or a serial request appends to it (R15, R55). -/
theorem exec_serTx {i : Instr} {s t : State} (h : exec i s = .next t) :
    t.serTx = s.serTx ∨ ((∃ bs, t.serTx = s.serTx ++ bs) ∧
      (i = .svcCfg ∨ (∃ id v, i = .reqRead id v) ∨ (∃ id v, i = .reqWrite id v) ∨ ∃ v, i = .reqFinish v)) := by
  have hf := exec_frame h
  cases i with
  | svcCfg =>
    obtain ⟨-, l, rest, -, rfl⟩ := execSvcCfg_next h
    obtain ⟨q, bs, r, nv, m, hc, -⟩ := serveRequest_frame s l rest
    exact .inr ⟨⟨bs, congrArg State.serTx hc⟩, .inl rfl⟩
  | reqRead id v =>
    obtain ⟨-, rfl⟩ := execReqRead_next h
    obtain ⟨bs, hc⟩ := runRead_frame s id v
    exact .inr ⟨⟨bs, congrArg State.serTx hc⟩, .inr (.inl ⟨id, v, rfl⟩)⟩
  | reqWrite id v =>
    obtain ⟨-, rfl⟩ := execReqWrite_next h
    obtain ⟨r, bs, hc, -⟩ := runWrite_frame s id v
    exact .inr ⟨⟨bs, congrArg State.serTx hc⟩, .inr (.inr (.inl ⟨id, v, rfl⟩))⟩
  | reqFinish v =>
    obtain ⟨-, rfl⟩ := execReqFinish_next h
    obtain ⟨bs, nv, m, hc⟩ := runFinish_frame s v
    exact .inr ⟨⟨bs, congrArg State.serTx hc⟩, .inr (.inr (.inr ⟨v, rfl⟩))⟩
  | _ => exact .inl (congrArg State.serTx hf :)

/-- The history of motor commands stays, or SVC.ENC or RESET appends to it (R468, log 23). -/
theorem exec_motorOut {i : Instr} {s t : State} (h : exec i s = .next t) :
    t.motorOut = s.motorOut ∨ ((∃ ms, t.motorOut = s.motorOut ++ ms) ∧ (i = .svcEnc ∨ i = .reset)) := by
  have hf := exec_frame h
  cases i with
  | svcEnc =>
    obtain ⟨-, rfl⟩ := execSvcEnc_next h
    obtain ⟨q, m, r, hc, -⟩ := handshakeCheck_frame { s with encDue := false }.encFrame.dispatchMotors
    exact .inr ⟨⟨_, (congrArg State.motorOut hc :)⟩, .inl rfl⟩
  | reset => obtain rfl := Host.Outcome.next.inj h; exact .inr ⟨⟨_, rfl⟩, .inr rfl⟩
  | _ => exact .inl (congrArg State.motorOut hf :)

/-- No operation shortens or changes what was emitted (R55). -/
theorem exec_serTx_prefix {i : Instr} {s t : State} (h : exec i s = .next t) : s.serTx <+: t.serTx := by
  rcases exec_serTx h with he | ⟨⟨bs, he⟩, -⟩
  · rw [he]
  · exact ⟨bs, he.symm⟩

/-- Nor the motor commands written (R468). -/
theorem exec_motorOut_prefix {i : Instr} {s t : State} (h : exec i s = .next t) : s.motorOut <+: t.motorOut := by
  rcases exec_motorOut h with he | ⟨⟨ms, he⟩, -⟩
  · rw [he]
  · exact ⟨ms, he.symm⟩

/-- Nor does a sequence of operations. -/
theorem performAll_histories {is : List Instr} {s t : State} (h : performAll is s = .next t) :
    s.serTx <+: t.serTx ∧ s.motorOut <+: t.motorOut := by
  induction is generalizing s with
  | nil =>
    obtain rfl := Host.Outcome.next.inj h
    exact ⟨List.prefix_rfl, List.prefix_rfl⟩
  | cons i is ih =>
    cases hi : exec i s with
    | next u =>
      obtain ⟨hb, hm⟩ := ih ((performAll_cons is hi).symm.trans h)
      exact ⟨(exec_serTx_prefix hi).trans hb, (exec_motorOut_prefix hi).trans hm⟩
    | fault f => simp [performAll, hi] at h
    | refused r => simp [performAll, hi] at h

/-- Settles O56: the histories grow operation by operation, so along a sequence, and the result is what was added. -/
theorem transmitHistoryOnlyGrows : Obligations.TransmitHistoryOnlyGrows := by
  refine ⟨fun s t i h => ⟨exec_serTx_prefix h, fun hne => ?_, exec_motorOut_prefix h, fun hne => ?_⟩,
    fun s t is h => ?_⟩
  · exact (exec_serTx h).elim (absurd · hne) And.right
  · exact (exec_motorOut h).elim (absurd · hne) And.right
  · obtain ⟨⟨bs, hb⟩, ⟨ms, hm⟩⟩ := performAll_histories h
    refine ⟨_, run_next h, ?_⟩
    rw [resultSince_append bs ms hb.symm hm.symm]
    exact ⟨rfl, hb.symm, hm.symm⟩

end Sys2Proof.Machine
end

section
/-! The ring buffer (R44-R46, R187-R189): an insertion keeps the ring ordered, and replaces the oldest reading. -/

namespace Sys2Proof.Machine

/-! ## The readings along an order -/

/-- A swap of two neighbours swaps their readings. -/
theorem readingAt_swapNext (val : List Tick) {ord : List Nat} {k : Nat} (h : k + 1 < ord.length) (i : Nat) :
    readingAt val (swapNext ord k) i =
      if i = k then readingAt val ord (k + 1) else if i = k + 1 then readingAt val ord k else readingAt val ord i := by
  have hk : k < ord.length := by omega
  rcases eq_or_ne i k with rfl | h1
  · simp [readingAt, swapNext, List.getD_eq_getElem?_getD, hk]
  · rcases eq_or_ne i (k + 1) with rfl | h2
    · simp [readingAt, swapNext, List.getD_eq_getElem?_getD, h]
    · simp [readingAt, swapNext, List.getD_eq_getElem?_getD, h1, h2, h1.symm, h2.symm]

/-- The readings do not decrease along the order, position `p` left out: all that an insertion can disturb. -/
def SortedOff (val : List Tick) (ord : List Nat) (p : Nat) : Prop :=
  ∀ i j, i < j → j < ord.length → i ≠ p → j ≠ p → readingAt val ord i ≤ readingAt val ord j

/-- Where the reading at `p`, too, is above all before it and below the next, all are in order. -/
theorem pairwise_of_sortedOff {val : List Tick} {ord : List Nat} {p : Nat} (h : SortedOff val ord p)
    (hl : ∀ i < p, readingAt val ord i ≤ readingAt val ord p)
    (hr : p + 1 < ord.length → readingAt val ord p ≤ readingAt val ord (p + 1)) :
    (ord.map fun k => val.getD k 0).Pairwise (· ≤ ·) := by
  have hat : ∀ i (hi : i < ord.length), val.getD ord[i] 0 = readingAt val ord i := fun i hi => by
    simp [readingAt, List.getD_eq_getElem?_getD, hi]
  rw [List.pairwise_iff_getElem]
  intro i j hi hj hij
  rw [List.length_map] at hi hj
  rw [List.getElem_map, List.getElem_map, hat i hi, hat j hj]
  rcases eq_or_ne j p with rfl | hjp
  · exact hl i hij
  · rcases eq_or_ne i p with rfl | hip
    · have hnext := hr (by omega)
      rcases Nat.lt_or_eq_of_le hij with hlt | rfl
      · exact hnext.trans (h _ _ hlt hj (by omega) hjp)
      · exact hnext
    · exact h i j hij hj hip hjp

/-- A move to the left leaves the other readings in order, the swapped neighbour among them. -/
theorem sortedOff_swap_left {val : List Tick} {ord : List Nat} {p : Nat} (hp : p + 1 < ord.length)
    (h : SortedOff val ord (p + 1)) : SortedOff val (swapNext ord p) p := by
  intro i j hij hj hi hj'
  rw [swapNext_length] at hj
  rw [readingAt_swapNext val hp, readingAt_swapNext val hp, if_neg hi, if_neg hj']
  split <;> split
  · omega
  · exact h p j (by omega) hj (by omega) ‹_›
  · exact h i p (by omega) (by omega) ‹_› (by omega)
  · exact h i j hij hj ‹_› ‹_›

/-- So does a move to the right. -/
theorem sortedOff_swap_right {val : List Tick} {ord : List Nat} {p : Nat} (hp : p + 1 < ord.length)
    (h : SortedOff val ord p) : SortedOff val (swapNext ord p) (p + 1) := by
  intro i j hij hj hi hj'
  rw [swapNext_length] at hj
  rw [readingAt_swapNext val hp, readingAt_swapNext val hp, if_neg hi, if_neg hj']
  split <;> split
  · omega
  · exact h (p + 1) j (by omega) hj (by omega) ‹_›
  · exact h i (p + 1) (by omega) hp ‹_› (by omega)
  · exact h i j hij hj ‹_› ‹_›

/-! ## The two loops of the insertion -/

/-- The first loop stops where no reading before the slot's is greater (R187). -/
theorem bubbleLeft_sorted (val : List Tick) (p : Nat) (ord : List Nat) (hp : p < ord.length)
    (h : SortedOff val ord p) :
    SortedOff val (bubbleLeft val p ord).1 (bubbleLeft val p ord).2 ∧
      ∀ i < (bubbleLeft val p ord).2,
        readingAt val (bubbleLeft val p ord).1 i ≤ readingAt val (bubbleLeft val p ord).1 (bubbleLeft val p ord).2 := by
  induction p generalizing ord with
  | zero => exact ⟨h, fun i hi => absurd hi (Nat.not_lt_zero i)⟩
  | succ p ih =>
    rw [bubbleLeft]
    split
    · exact ih (swapNext ord p) (by rw [swapNext_length]; omega) (sortedOff_swap_left hp h)
    · have hle : readingAt val ord p ≤ readingAt val ord (p + 1) := Nat.not_lt.mp ‹_›
      refine ⟨h, fun i hi => ?_⟩
      rcases Nat.lt_or_eq_of_le (Nat.le_of_lt_succ hi) with hlt | rfl
      · exact (h i p hlt (by omega) (by omega) (by omega)).trans hle
      · exact hle

/-- The second loop, given the moves to the end, stops with all readings in order (R187, R188). -/
theorem bubbleRight_sorted (val : List Tick) (fuel p : Nat) (ord : List Nat) (hp : p + fuel + 1 = ord.length)
    (h : SortedOff val ord p) (hl : ∀ i < p, readingAt val ord i ≤ readingAt val ord p) :
    ((bubbleRight val fuel p ord).map fun k => val.getD k 0).Pairwise (· ≤ ·) := by
  induction fuel generalizing p ord with
  | zero => exact pairwise_of_sortedOff (ord := ord) h hl (by omega)
  | succ fuel ih =>
    have hp1 : p + 1 < ord.length := by omega
    rw [bubbleRight]
    split
    · have hlt : readingAt val ord (p + 1) < readingAt val ord p := ‹_›
      refine ih (p + 1) (swapNext ord p) (by rw [swapNext_length]; omega) (sortedOff_swap_right hp1 h) fun i hi => ?_
      rw [readingAt_swapNext val hp1, readingAt_swapNext val hp1, if_neg (show p + 1 ≠ p by omega), if_pos rfl]
      rcases Nat.lt_or_eq_of_le (Nat.le_of_lt_succ hi) with hip | rfl
      · rw [if_neg (by omega), if_neg (by omega)]
        exact hl i hip
      · rw [if_pos rfl]
        exact hlt.le
    · exact pairwise_of_sortedOff h hl fun _ => Nat.not_lt.mp ‹_›

/-! ## Rings -/

/-- A ring reset to 0 in identity order is ordered (R191). -/
theorem ringOk_of_cleared {x : Channel} {n : Nat} (hn : 0 < n) (hv : x.ringVal = List.replicate n 0)
    (ho : x.ringOrd = List.range n) (hh : x.ringHead = 0) : x.RingOk n := by
  refine ⟨by simp [hv], by omega, by rw [ho], ?_⟩
  have hz : ∀ k, x.ringVal.getD k 0 = 0 := fun k => by
    rw [hv, List.getD_eq_getElem?_getD, List.getElem?_replicate]
    split <;> rfl
  simp only [hz, List.map_const', List.pairwise_replicate, le_refl, or_true]

/-- A new reading in a slot disturbs the order at that slot's position only. -/
theorem sortedOff_set {val : List Tick} {ord : List Nat} (s : Nat) (v : Tick) (hnd : ord.Nodup)
    (hs : s ∈ ord) (h : (ord.map fun k => val.getD k 0).Pairwise (· ≤ ·)) :
    SortedOff (val.set s v) ord (ord.idxOf s) := by
  have hp : ord.idxOf s < ord.length := List.idxOf_lt_length_iff.mpr hs
  have hold : ∀ i (hi : i < ord.length), i ≠ ord.idxOf s → readingAt (val.set s v) ord i = val.getD ord[i] 0 := by
    intro i hi hne
    have hslot : s ≠ ord[i] := fun he => hne <| by
      rw [← hnd.getElem_inj_iff (hi := hi) (hj := hp), List.getElem_idxOf, he]
    simp [readingAt, List.getD_eq_getElem?_getD, hi, List.getElem?_set_ne hslot]
  intro i j hij hj hi hj'
  rw [hold i (by omega) hi, hold j hj hj']
  simpa using List.pairwise_iff_getElem.mp h i j (by simp; omega) (by simpa using hj) hij

/-- An insertion keeps a ring ordered (R187, R189). -/
theorem insert_ringOk {x : Channel} {n : Nat} (v : Tick) (h : x.RingOk n) : (x.insert n v).RingOk n := by
  obtain ⟨hlen, hhead, hperm, hsort⟩ := h
  have hol : x.ringOrd.length = n := by simpa using hperm.length_eq
  have hs : x.ringHead ∈ x.ringOrd := hperm.mem_iff.mpr (List.mem_range.mpr hhead)
  have hp : x.ringOrd.idxOf x.ringHead < x.ringOrd.length := List.idxOf_lt_length_iff.mpr hs
  refine ⟨by simpa using hlen, Nat.mod_lt _ (by omega), (repairOrder_perm _ hol hs).trans hperm, ?_⟩
  have hoff := sortedOff_set x.ringHead v (hperm.nodup_iff.mpr List.nodup_range) hs hsort
  obtain ⟨hloop, hbefore⟩ := bubbleLeft_sorted _ _ _ hp hoff
  obtain ⟨hlp, hle⟩ := bubbleLeft_perm (x.ringVal.set x.ringHead v) _ _ hp
  exact bubbleRight_sorted _ _ _ _ (by rw [hlp.length_eq]; omega) hloop hbefore

/-- The readings of a ring, oldest first (R46). -/
def Channel.readings (x : Channel) : List Tick := x.ringVal.rotate x.ringHead

/-- An insertion drops the oldest reading and adds the new one (R187). -/
theorem readings_insert {x : Channel} {n : Nat} (v : Tick) (hlen : x.ringVal.length = n) (hhead : x.ringHead < n) :
    (x.insert n v).readings = x.readings.tail ++ [v] := by
  have hl : (x.ringVal.set x.ringHead v).length = n := by simpa using hlen
  have hh : x.ringHead < x.ringVal.length := by omega
  unfold Channel.readings
  rw [Channel.insert_ringHead, Channel.insert_ringVal]
  conv_lhs => rw [← hl, List.rotate_mod]
  rw [List.rotate_eq_drop_append_take (by omega), List.rotate_eq_drop_append_take (by omega),
    List.drop_set_of_lt (Nat.lt_succ_self _), ← List.take_append_getElem (by simpa using hh),
    List.take_set_of_le le_rfl, List.getElem_set_self, List.drop_eq_getElem_cons hh, List.cons_append,
    List.tail_cons, List.append_assoc]

/-- Insertions drop as many of the oldest readings as they add (R44, R46). -/
theorem readings_insertAll (vs : List Tick) {x : Channel} {n : Nat} (hlen : x.ringVal.length = n)
    (hhead : x.ringHead < n) :
    (vs.foldl (fun y v => y.insert n v) x).readings = (x.readings ++ vs).drop vs.length := by
  induction vs generalizing x with
  | nil => simp
  | cons v vs ih =>
    have hne : x.readings ≠ [] := by simp [Channel.readings, ← List.length_pos_iff]; omega
    obtain ⟨old, rest, hr⟩ := List.exists_cons_of_ne_nil hne
    rw [List.foldl_cons, ih (by simpa using hlen) (Nat.mod_lt _ (by omega)), readings_insert v hlen hhead]
    simp [hr]

/-- Settles O26: the RX_N readings dropped are all that the ring held. -/
theorem ringHoldsTheLastReadings : Obligations.RingHoldsTheLastReadings := by
  rintro x n vs ⟨hlen, hhead, -, -⟩ hvs
  have hr := readings_insertAll vs hlen hhead
  have hx : x.readings.length = vs.length := by simp [Channel.readings, hlen, hvs]
  rw [List.drop_left' hx] at hr
  exact (List.rotate_perm _ _).symm.trans (.of_eq hr)

end Sys2Proof.Machine
end

section
/-! Legal records (R50): what legality says of one axis, a WRITE's legal value, and the record that reset loads. -/

namespace Sys2Proof

/-! ## The bounds of R8 that the invariants need -/

/-- A window has 5 to 32 slots. -/
theorem Params.wCap_bounds {p : Params} (h : p.legal = true) : 5 ≤ p.wCap ∧ p.wCap ≤ 32 := by
  simp only [Params.legal, Params.legalEncoder, Bool.and_eq_true, decide_eq_true_eq] at h
  omega

/-- No frame limit is 0. -/
theorem Params.frameOvf_pos {p : Params} (h : p.legal = true) : 0 < p.encFrameOvf ∧ 0 < p.rxFrameOvf := by
  simp only [Params.legal, Params.legalEncoder, Bool.and_eq_true, decide_eq_true_eq] at h
  omega

/-- There is a channel, and a ring has a slot. -/
theorem Params.receiver_pos {p : Params} (h : p.legal = true) : 0 < p.nch ∧ 0 < p.rxN := by
  simp only [Params.legal, Params.legalReceiver, Bool.and_eq_true, decide_eq_true_eq] at h
  omega

/-- A conditioned command is at most 250 in size. -/
theorem Params.range_le {p : Params} (h : p.legal = true) : p.range ≤ 250 := by
  simp only [Params.legal, Params.legalReceiver, Bool.and_eq_true, Bool.or_eq_true, decide_eq_true_eq] at h
  omega

/-- DEFAULT_CFG is a legal record. -/
theorem Params.defaultCfg_legal {p : Params} (h : p.legal = true) : Record.legal p.nax p.wCap p.defaultCfg = true := by
  simp only [Params.legal, Params.legalControl, Bool.and_eq_true] at h
  exact h.2.2

/-! ## Fields -/

/-- The fields of an axis are legal when each is; every value of KP, KI and KD is (R50). -/
theorem AxisCfg.legal_iff {wCap : Nat} {g : AxisCfg} :
    g.legal wCap = true ↔ ∀ f : Field, f.legal wCap (g.get f) = true := by
  simp only [AxisCfg.legal, Bool.and_eq_true]
  constructor
  · rintro ⟨⟨⟨hb, he⟩, hr⟩, hc⟩ f
    cases f with
    | kp | ki | kd => rfl
    | blend => exact hb
    | ewin => exact he
    | rev => exact hr
    | calm => exact hc
  · exact fun h => ⟨⟨⟨h _, h _⟩, h _⟩, h _⟩

/-- A legal value fits its field's bytes (R50, R111). -/
theorem Field.lt_of_legal {f : Field} {wCap : Nat} {v : Word} (hw : wCap ≤ 32) (h : f.legal wCap v = true) :
    v.toNat < 2 ^ (8 * f.size) := by
  cases f with
  | kp | ki | kd => exact v.isLt
  | blend | ewin | rev | calm =>
    simp only [Field.legal, decide_eq_true_eq] at h
    simp only [Field.size]
    omega

/-- A value that fits its field's width is read back from a record built field by field. -/
theorem AxisCfg.get_ofFields_of_lt (v : Field → Word) (f : Field) (h : (v f).toNat < 2 ^ (8 * f.size)) :
    (AxisCfg.ofFields v).get f = v f := by
  rw [← AxisCfg.get_set_self AxisCfg.zero f (v f) h]
  cases f <;> rfl

/-- The window length of a legal record is 5 to W_CAP (R50). -/
theorem AxisCfg.ewin_of_legal {wCap : Nat} {g : AxisCfg} (h : g.legal wCap = true) :
    5 ≤ g.ewin.toNat ∧ g.ewin.toNat ≤ wCap := by
  have he := AxisCfg.legal_iff.mp h .ewin
  simp only [Field.legal, AxisCfg.get, BitVec.toNat_setWidth, decide_eq_true_eq] at he
  have := g.ewin.isLt
  omega

/-- Setting a field to a legal value keeps an axis legal (R315, R318). -/
theorem AxisCfg.legal_set {wCap : Nat} {g : AxisCfg} {f : Field} {v : Word} (hw : wCap ≤ 32)
    (hg : g.legal wCap = true) (hv : f.legal wCap v = true) : (g.set f v).legal wCap = true := by
  refine AxisCfg.legal_iff.mpr fun f' => ?_
  rcases eq_or_ne f' f with rfl | hne
  · rwa [AxisCfg.get_set_self g f' v (Field.lt_of_legal hw hv)]
  · rw [AxisCfg.get_set_ne g v hne]
    exact AxisCfg.legal_iff.mp hg f'

/-! ## Records -/

/-- A legal record has every axis, each legal (R50). -/
theorem Record.legal_iff {nax wCap : Nat} {r : Record} :
    Record.legal nax wCap r = true ↔ r.length = nax ∧ ∀ g ∈ r, g.legal wCap = true := by
  simp [Record.legal]

/-- An axis of a legal record is legal. -/
theorem Record.axis_legal {nax wCap a : Nat} {r : Record} (h : Record.legal nax wCap r = true) (ha : a < nax) :
    (r.axis a).legal wCap = true := by
  obtain ⟨hl, hg⟩ := Record.legal_iff.mp h
  have har : a < r.length := by omega
  rw [Record.axis, List.getD_eq_getElem?_getD, List.getElem?_eq_getElem har]
  exact hg _ (List.getElem_mem har)

/-- A legal WRITE keeps a record legal (R315, R318). -/
theorem Record.legal_setField {nax wCap a : Nat} {r : Record} {f : Field} {v : Word} (hw : wCap ≤ 32)
    (hr : Record.legal nax wCap r = true) (hv : f.legal wCap v = true) :
    Record.legal nax wCap (r.setField a f v) = true := by
  obtain ⟨hl, hg⟩ := Record.legal_iff.mp hr
  refine Record.legal_iff.mpr ⟨by simpa using hl, fun g hmem => ?_⟩
  obtain ⟨k, hk⟩ := List.mem_iff_getElem?.mp hmem
  rw [Record.setField, List.getElem?_modify, Option.map_eq_map, Option.map_eq_some_iff] at hk
  obtain ⟨g', hg', rfl⟩ := hk
  have hl' := hg g' (List.mem_of_getElem? hg')
  split
  · exact AxisCfg.legal_set hw hl' hv
  · exact hl'

/-- Every field that reset loads is legal: the vote where it is, DEFAULT_CFG elsewhere (R317, R322). -/
theorem loadField_legal {p : Params} (hp : p.legal = true) (nv : NvStore) {a : Nat} (ha : a < p.nax) (f : Field) :
    f.legal p.wCap (loadField p nv a f) = true := by
  have hd : f.legal p.wCap (p.defaultCfg.field a f) = true :=
    AxisCfg.legal_iff.mp (Record.axis_legal (Params.defaultCfg_legal hp) ha) f
  unfold loadField votedField
  split
  · exact hd
  · simp only
    split
    · assumption
    · exact hd

/-- So the record that reset loads is legal (R322). -/
theorem loadConfig_legal {p : Params} (hp : p.legal = true) (nv : NvStore) :
    Record.legal p.nax p.wCap (loadConfig p nv) = true := by
  refine Record.legal_iff.mpr ⟨by simp [loadConfig], fun g hg => ?_⟩
  obtain ⟨a, ha, rfl⟩ := List.mem_map.mp hg
  refine AxisCfg.legal_iff.mpr fun f => ?_
  have hf := loadField_legal hp nv (List.mem_range.mp ha) f
  rwa [AxisCfg.get_ofFields_of_lt _ _ (Field.lt_of_legal (Params.wCap_bounds hp).2 hf)]

end Sys2Proof
end

section
/-! The windows of the axes (R36-R38, R148, R151): a drain keeps the running sum exact, and no other operation
touches a window. -/

namespace Sys2Proof.Machine

/-! ## The running sum -/

/-- A list of 16-bit counts sums to less than its length in full counts. -/
theorem sum_toInt_bounds (l : List (BitVec 16)) :
    -(32768 * (l.length : Int)) ≤ (l.map BitVec.toInt).sum ∧ (l.map BitVec.toInt).sum ≤ 32767 * (l.length : Int) := by
  induction l with
  | nil => simp
  | cons b l ih =>
    have := b.toInt_lt
    have := b.le_toInt
    rw [List.map_cons, List.sum_cons, List.length_cons]
    push_cast
    omega

/-- Replacing a slot changes the sum by the difference. -/
theorem sum_toInt_set {l : List (BitVec 16)} {k : Nat} (v : BitVec 16) (h : k < l.length) :
    ((l.set k v).map BitVec.toInt).sum = (l.map BitVec.toInt).sum - l[k].toInt + v.toInt := by
  rw [List.map_set, List.sum_set', dif_pos (by simpa using h), List.getElem_map]
  ring

/-- A drain keeps the window: the slot's old count leaves the sum, the new one enters, and 32 counts of 16 bits do
not overflow it (R37, R148, R151). -/
theorem drain_windowOk {x : Axis} {wCap w : Nat} (hw : w ≤ wCap) (hc : wCap ≤ 32) (h : x.WindowOk wCap w) :
    (x.drain w).WindowOk wCap w := by
  obtain ⟨hlen, hidx, hrest, hsum⟩ := h
  have hk : x.encIdx < (x.encWin.take w).length := by simp; omega
  have hold : (x.encWin.take w)[x.encIdx] = x.encWin.getD x.encIdx 0 := by
    rw [List.getElem_take, List.getD_eq_getElem?_getD, List.getElem?_eq_getElem (by omega), Option.getD_some]
  have hset := sum_toInt_set x.encCount hk
  have hbounds := sum_toInt_bounds ((x.encWin.take w).set x.encIdx x.encCount)
  rw [List.length_set, List.length_take, hset, hold, ← hsum] at hbounds
  refine ⟨by simpa using hlen, Nat.mod_lt _ (by omega), ?_, ?_⟩
  · rw [Axis.drain_encWin, List.drop_set_of_lt hidx, hrest]
  · rw [Axis.drain_encSum, Axis.drain_encWin, List.take_set, hset, hold, ← hsum, wrap32,
      BitVec.toInt_ofInt_eq_self (by decide) (by omega) (by omega)]

/-! ## What an operation does to an axis -/

/-- The axis `y` after an operation other than RESET on axis `x` with configuration `g`: window and motor command
stay, or SVC.ENC did the axis's frame. -/
inductive Axis.StepTo (p : Params) (g : AxisCfg) (x y : Axis) : Prop
  | keeps (hwin : y.encWin = x.encWin) (hidx : y.encIdx = x.encIdx) (hsum : y.encSum = x.encSum)
      (hcmd : y.motorCmd = x.motorCmd)
  | frame (h : y = x.frame p g)

/-- An encoder frame leaves the window as the drain does, and commands the motor (R282). -/
theorem frame_window (x : Axis) (p : Params) (g : AxisCfg) :
    (x.frame p g).encWin = (x.drain g.ewin.toNat).encWin ∧ (x.frame p g).encIdx = (x.drain g.ewin.toNat).encIdx ∧
      (x.frame p g).encSum = (x.drain g.ewin.toNat).encSum ∧ ∃ v, (x.frame p g).motorCmd = motorOf p g.rev v := by
  unfold Axis.frame
  simp only
  generalize Axis.measured _ _ = m
  rcases pidStep_cases ((x.drain g.ewin.toNat).updateSpeed p g.ewin.toNat) p g m with ⟨-, h⟩ | ⟨-, h⟩ <;> rw [h]
  · exact ⟨rfl, rfl, rfl, _, rfl⟩
  · exact ⟨rfl, rfl, rfl, _, rfl⟩

/-- A sample counts, and leaves window and motor command (R143). -/
theorem sample_stepTo (x : Axis) (policy : EncPolicy) (cur : BitVec 2) (p : Params) (g : AxisCfg) :
    x.StepTo p g (x.sample policy cur) := by
  unfold Axis.sample
  split <;> exact .keeps rfl rfl rfl rfl

/-- Besides RESET, every operation keeps the axes and takes each to the next as `Axis.StepTo` says. -/
theorem exec_axes {i : Instr} {s t : State} (h : exec i s = .next t) (hi : i ≠ .reset) :
    t.axes.length = s.axes.length ∧
      ∀ (a : Nat) (y : Axis), t.axes[a]? = some y →
        ∃ x : Axis, s.axes[a]? = some x ∧ x.StepTo s.params (s.axisCfg a) y := by
  have hf := exec_frame h
  cases i with
  | enc axis ab =>
    obtain ⟨-, rfl⟩ := execEnc_next h
    refine ⟨by simp, fun a y hy => ?_⟩
    rw [State.modifyAxis_axes, List.getElem?_modify, Option.map_eq_map, Option.map_eq_some_iff] at hy
    obtain ⟨x, hx, rfl⟩ := hy
    refine ⟨x, hx, ?_⟩
    split
    · exact sample_stepTo _ _ _ _ _
    · exact .keeps rfl rfl rfl rfl
  | svcEnc =>
    obtain ⟨-, rfl⟩ := execSvcEnc_next h
    obtain ⟨q, m, r, hc, -⟩ := handshakeCheck_frame { s with encDue := false }.encFrame.dispatchMotors
    have ha : State.axes _ = s.axes.mapIdx fun a x => x.frame s.params (s.axisCfg a) := congrArg State.axes hc
    rw [ha]
    refine ⟨List.length_mapIdx, fun a y hy => ?_⟩
    rw [List.getElem?_mapIdx, Option.map_eq_some_iff] at hy
    obtain ⟨x, hx, rfl⟩ := hy
    exact ⟨x, hx, .frame rfl⟩
  | svcRx =>
    obtain ⟨-, rfl⟩ := execSvcRx_next h
    obtain ⟨cs, m, l, hc⟩ := condition_frame { s with rxDue := false }.rxDrain
    rw [hc]
    refine ⟨List.length_mapIdx, fun a y hy => ?_⟩
    rw [State.targets_axes, List.getElem?_mapIdx, Option.map_eq_some_iff] at hy
    obtain ⟨x, hx, rfl⟩ := hy
    exact ⟨x, hx, .keeps rfl rfl rfl rfl⟩
  | reset => exact absurd rfl hi
  | _ =>
    have ha : t.axes = s.axes := (congrArg State.axes hf :)
    exact ⟨congrArg List.length ha, fun a y hy => ⟨y, ha ▸ hy, .keeps rfl rfl rfl rfl⟩⟩

end Sys2Proof.Machine
end

section
/-! The state after the first reset meets every invariant of the block (R59, R451), and no operation breaks those of
the configuration, the timer and the windows (R31, R32, R36-R38, R50). -/

namespace Sys2Proof.Machine

/-! ## The state after the first reset (R59, R451) -/

/-- The timer starts at 0 (R31, R32). -/
theorem initial_timer {p : Params} (hp : p.legal = true) (nv : NvStore) : TimerInv (State.initial p nv) := by
  obtain ⟨he, hr⟩ := Params.frameOvf_pos hp
  exact ⟨Nat.two_pow_pos _, Nat.two_pow_pos _, he, hr⟩

/-- The configuration starts as the loaded record (R322). -/
theorem initial_config {p : Params} (hp : p.legal = true) (nv : NvStore) : ConfigInv (State.initial p nv) :=
  ⟨loadConfig_legal hp nv, loadConfig_legal hp nv⟩

/-- A window of zeros has sum 0 (R36-R38). -/
theorem initial_windowOk (p : Params) {w : Nat} (hw : 0 < w) : (Axis.initial p).WindowOk p.wCap w :=
  ⟨List.length_replicate, hw, List.drop_replicate, by simp [Axis.initial]⟩

/-- Every window starts so (R36-R38). -/
theorem initial_window {p : Params} (hp : p.legal = true) (nv : NvStore) : WindowInv (State.initial p nv) := by
  refine ⟨List.length_replicate, fun a ha => ?_⟩
  have hax : a < p.nax := by simpa [State.initial] using ha
  have hw := AxisCfg.ewin_of_legal (Record.axis_legal (initial_config hp nv).1 hax)
  rw [show (State.initial p nv).axes[a] = Axis.initial p from List.getElem_replicate _]
  exact initial_windowOk p (Nat.lt_of_lt_of_le (by decide) hw.1)

/-- A channel after reset has an ordered ring (R191). -/
theorem initial_ringOk {p : Params} (hp : p.legal = true) : (Channel.initial p).RingOk p.rxN :=
  ringOk_of_cleared (Params.receiver_pos hp).2 rfl rfl rfl

/-- Every ring starts so (R44-R46). -/
theorem initial_ring {p : Params} (hp : p.legal = true) (nv : NvStore) : RingInv (State.initial p nv) := by
  refine ⟨List.length_replicate, fun x hx => ?_⟩
  obtain rfl := List.eq_of_mem_replicate hx
  exact initial_ringOk hp

/-- The ticks that a channel stores are below 2^TB (R42, R44). -/
def Channel.TicksOk (x : Channel) (p : Params) : Prop :=
  x.rxStart < 2 ^ p.tb ∧ x.rxEnd < 2 ^ p.tb ∧ ∀ v ∈ x.ringVal, v < 2 ^ p.tb

/-- A channel after reset stores ticks of 0 only. -/
theorem initial_ticksOk (p : Params) : (Channel.initial p).TicksOk p := by
  refine ⟨Nat.two_pow_pos _, Nat.two_pow_pos _, fun v hv => ?_⟩
  rw [List.eq_of_mem_replicate hv]
  exact Nat.two_pow_pos _

/-- The stored ticks and RX_MUX start at 0 (R41-R44, R54). -/
theorem initial_tick {p : Params} (hp : p.legal = true) (nv : NvStore) : TickInv (State.initial p nv) := by
  refine ⟨Nat.two_pow_pos _, Nat.two_pow_pos _, fun x hx => ?_, (Params.receiver_pos hp).1, fun _ => rfl⟩
  obtain rfl := List.eq_of_mem_replicate hx
  exact initial_ticksOk p

/-- Motor commands and conditioned commands start at 0 (R47, R49). -/
theorem initial_output (p : Params) (nv : NvStore) : OutputInv (State.initial p nv) := by
  refine ⟨fun x hx => ?_, fun x hx => ?_⟩ <;> obtain rfl := List.eq_of_mem_replicate hx
  · simp [Axis.initial]
  · simp [Channel.initial, State.initial]

/-- SER_RXQ starts empty (R54). -/
theorem initial_fifo (p : Params) (nv : NvStore) : FifoInv (State.initial p nv) := Nat.zero_le _

/-- Settles O60: each invariant holds of the state after the first reset. -/
theorem initialStateHasBlockInv : Obligations.InitialStateHasBlockInv := fun p nv hp =>
  ⟨initial_timer hp nv, initial_config hp nv, initial_window hp nv, initial_ring hp nv, initial_tick hp nv,
    initial_output p nv, initial_fifo p nv⟩

/-! ## The parameters and the configuration -/

/-- No operation changes the parameters (R8, log 1). -/
theorem exec_params {i : Instr} {s t : State} (h : exec i s = .next t) : t.params = s.params :=
  (configurationHasItsWriters s t i h).1

/-- CFG changes by RESET only (R51). -/
theorem exec_cfg {i : Instr} {s t : State} (h : exec i s = .next t) (hi : i ≠ .reset) : t.cfg = s.cfg :=
  not_not.mp fun hne => hi ((configurationHasItsWriters s t i h).2.1 hne)

/-- Besides RESET, CFG_EDIT stays, takes CFG, or takes one legal value (R52, R283, R315). -/
theorem exec_cfgEdit {i : Instr} {s t : State} (h : exec i s = .next t) (hi : i ≠ .reset) :
    t.cfgEdit = s.cfgEdit ∨ t.cfgEdit = s.cfg ∨
      ∃ a f w, Field.legal f s.params.wCap w = true ∧ t.cfgEdit = s.cfgEdit.setField a f w := by
  have hf := exec_frame h
  cases i with
  | svcEnc =>
    obtain ⟨-, rfl⟩ := execSvcEnc_next h
    obtain ⟨q, m, r, hc, -, hr⟩ := handshakeCheck_frame { s with encDue := false }.encFrame.dispatchMotors
    rw [hc]
    exact hr.imp_right .inl
  | svcCfg =>
    obtain ⟨-, l, rest, -, rfl⟩ := execSvcCfg_next h
    obtain ⟨q, bs, r, nv, m, hc, -, hr⟩ := serveRequest_frame s l rest
    rw [hc]
    exact hr.imp_right .inr
  | reset => exact absurd rfl hi
  | reqWrite id v =>
    obtain ⟨-, rfl⟩ := execReqWrite_next h
    obtain ⟨r, bs, hc, hr⟩ := runWrite_frame s id v
    rw [hc]
    exact hr.imp_right .inr
  | handshake => obtain ⟨-, rfl⟩ := execHandshake_next h; exact .inr (.inl rfl)
  | _ => exact .inl (congrArg State.cfgEdit hf :)

/-- Every operation keeps both records legal (R50). -/
theorem exec_keeps_config {i : Instr} {s t : State} (hp : s.params.legal = true) (hs : ConfigInv s)
    (h : exec i s = .next t) : ConfigInv t := by
  rcases eq_or_ne i .reset with rfl | hi
  · obtain rfl := Host.Outcome.next.inj h
    exact initial_config hp s.nv
  · obtain ⟨hcfg, hedit⟩ := hs
    unfold ConfigInv
    rw [exec_params h, exec_cfg h hi]
    refine ⟨hcfg, ?_⟩
    rcases exec_cfgEdit h hi with he | he | ⟨a, f, w, hw, he⟩ <;> rw [he]
    · exact hedit
    · exact hcfg
    · exact Record.legal_setField (Params.wCap_bounds hp).2 hedit hw

/-! ## The timer -/

/-- Ticks keep the timer in range (R31, R32). -/
theorem tickTimes_timer (n : Nat) {s : State} (hs : TimerInv s) : TimerInv (s.tickTimes n) := by
  induction n generalizing s with
  | zero => exact hs
  | succ n ih =>
    rw [tickTimes_succ]
    exact ih (tickOnce_timer hs)

/-- Every operation keeps the timer in range (R31, R32). -/
theorem exec_keeps_timer {i : Instr} {s t : State} (hp : s.params.legal = true) (hs : TimerInv s)
    (h : exec i s = .next t) : TimerInv t := by
  rcases exec_timer h with ⟨hc, ho, he, hr⟩ | ⟨k, rfl⟩ | rfl
  · unfold TimerInv
    rwa [exec_params h, hc, ho, he, hr]
  · obtain rfl := Host.Outcome.next.inj h
    exact tickTimes_timer _ hs
  · obtain rfl := Host.Outcome.next.inj h
    exact initial_timer hp s.nv

/-- With the timer in range NOW is a tick (R16, R31). -/
theorem now_lt {s : State} (hs : TimerInv s) : s.now < 2 ^ s.params.tb := by
  obtain ⟨hc, ho, -, -⟩ := hs
  rw [State.now, Params.tb, Nat.add_comm s.params.cb, Nat.pow_add]
  calc s.ovf * 2 ^ s.params.cb + s.cnt < (s.ovf + 1) * 2 ^ s.params.cb := by rw [Nat.succ_mul]; omega
    _ ≤ 2 ^ s.params.ob * 2 ^ s.params.cb := Nat.mul_le_mul_right _ ho

/-! ## The windows -/

/-- Every operation keeps every window's running sum exact (R36-R38, R151). -/
theorem exec_keeps_window {i : Instr} {s t : State} (hp : s.params.legal = true) (hc : ConfigInv s)
    (hs : WindowInv s) (h : exec i s = .next t) : WindowInv t := by
  rcases eq_or_ne i .reset with rfl | hi
  · obtain rfl := Host.Outcome.next.inj h
    exact initial_window hp s.nv
  · obtain ⟨hn, hs⟩ := hs
    obtain ⟨hlen, haxes⟩ := exec_axes h hi
    unfold WindowInv State.axisCfg
    rw [exec_params h, exec_cfg h hi]
    refine ⟨hlen.trans hn, fun a ha => ?_⟩
    obtain ⟨x, hx, hstep⟩ := haxes a _ (List.getElem?_eq_getElem ha)
    obtain ⟨hal, rfl⟩ := List.getElem?_eq_some_iff.mp hx
    have hok := hs a hal
    cases hstep with
    | keeps hwin hidx hsum _ => rwa [Axis.WindowOk, hwin, hidx, hsum]
    | frame hy =>
      obtain ⟨hwin, hidx, hsum, -⟩ := frame_window s.axes[a] s.params (s.axisCfg a)
      have hw := AxisCfg.ewin_of_legal (Record.axis_legal hc.1 (hn ▸ hal))
      rw [hy, Axis.WindowOk, hwin, hidx, hsum]
      exact drain_windowOk hw.2 (Params.wCap_bounds hp).2 hok

/-- Settles O57: the step runs one operation, on the state without the presented word. -/
theorem stepKeepsWindowInv : Obligations.StepKeepsWindowInv := by
  intro s t hc hw h
  obtain ⟨hp, word, rest, i, -, -, hi⟩ := step_next h
  exact exec_keeps_window (s := { s with pending := rest }) hp hc hw hi

end Sys2Proof.Machine
end

section
/-! The channels (R41-R46): what an edge, a receiver frame and a loss make of a channel, and that every operation keeps
the rings ordered and the stored ticks below 2^TB. -/

namespace Sys2Proof.Machine

/-! ## Edges -/

/-- The channel `y` is `x` after edges at the tick `now`: its ring and command are those of `x`, and an edge tick is
that of `x` or `now` (R181-R184). -/
structure Channel.EdgeOf (now : Tick) (x y : Channel) : Prop where
  ringVal : y.ringVal = x.ringVal
  ringOrd : y.ringOrd = x.ringOrd
  ringHead : y.ringHead = x.ringHead
  rxCond : y.rxCond = x.rxCond
  rxStart : y.rxStart = x.rxStart ∨ y.rxStart = now
  rxEnd : y.rxEnd = x.rxEnd ∨ y.rxEnd = now

/-- The state `t` came from `s` by edges at one NOW. -/
structure EdgesOf (s t : State) : Prop where
  now : t.now = s.now
  lastPair : t.lastPair = s.lastPair ∨ t.lastPair = s.now
  length : t.chans.length = s.chans.length
  chans : ∀ y ∈ t.chans, ∃ x ∈ s.chans, x.EdgeOf s.now y

/-- A channel without an edge. -/
theorem Channel.EdgeOf.refl (now : Tick) (x : Channel) : x.EdgeOf now x :=
  ⟨rfl, rfl, rfl, rfl, .inl rfl, .inl rfl⟩

/-- Edges one after the other. -/
theorem Channel.EdgeOf.trans {now : Tick} {x y z : Channel} (hxy : x.EdgeOf now y) (hyz : y.EdgeOf now z) :
    x.EdgeOf now z where
  ringVal := hyz.ringVal.trans hxy.ringVal
  ringOrd := hyz.ringOrd.trans hxy.ringOrd
  ringHead := hyz.ringHead.trans hxy.ringHead
  rxCond := hyz.rxCond.trans hxy.rxCond
  rxStart := hyz.rxStart.elim (fun he => he ▸ hxy.rxStart) .inr
  rxEnd := hyz.rxEnd.elim (fun he => he ▸ hxy.rxEnd) .inr

/-- A state without an edge. -/
theorem EdgesOf.refl (s : State) : EdgesOf s s :=
  ⟨rfl, .inl rfl, rfl, fun y hy => ⟨y, hy, .refl _ _⟩⟩

/-- Edges of several channels, one after the other. -/
theorem EdgesOf.trans {s t u : State} (hst : EdgesOf s t) (htu : EdgesOf t u) : EdgesOf s u where
  now := htu.now.trans hst.now
  lastPair := htu.lastPair.elim (fun he => he ▸ hst.lastPair) (fun he => .inr (he.trans hst.now))
  length := htu.length.trans hst.length
  chans z hz := by
    obtain ⟨y, hy, hyz⟩ := htu.chans z hz
    obtain ⟨x, hx, hxy⟩ := hst.chans y hy
    exact ⟨x, hx, hxy.trans (hst.now ▸ hyz)⟩

/-- A channel of the list with one channel modified is an old one, modified or not. -/
theorem exists_of_mem_modify {cs : List Channel} {c : Nat} {f : Channel → Channel} {y : Channel}
    (h : y ∈ cs.modify c f) : ∃ x ∈ cs, y = x ∨ y = f x := by
  obtain ⟨k, hk⟩ := List.mem_iff_getElem?.mp h
  rw [List.getElem?_modify, Option.map_eq_map, Option.map_eq_some_iff] at hk
  obtain ⟨x, hx, rfl⟩ := hk
  refine ⟨x, List.mem_of_getElem? hx, ?_⟩
  split
  · exact .inr rfl
  · exact .inl rfl

/-- A rising edge (R181, R183). -/
theorem rxRise_edgesOf (s : State) (c : Nat) : EdgesOf s (s.rxRise c) := by
  refine ⟨rfl, .inl rfl, by simp, fun y hy => ?_⟩
  obtain ⟨x, hx, rfl | rfl⟩ := exists_of_mem_modify hy
  · exact ⟨_, hx, .refl _ _⟩
  · exact ⟨x, hx, rfl, rfl, rfl, rfl, .inr rfl, .inl rfl⟩

/-- A falling edge (R184). -/
theorem rxFall_edgesOf (s : State) (c : Nat) : EdgesOf s (s.rxFall c) := by
  refine ⟨rfl, .inr rfl, by simp, fun y hy => ?_⟩
  obtain ⟨x, hx, rfl | rfl⟩ := exists_of_mem_modify hy
  · exact ⟨_, hx, .refl _ _⟩
  · exact ⟨x, hx, rfl, rfl, rfl, rfl, .inl rfl, .inr rfl⟩

/-- SEQ mode (R181, R182). -/
theorem rxSeq_edgesOf (s : State) (old new : Byte) : EdgesOf s (s.rxSeq old new) := by
  rcases rxSeq_cases s old new with h | h | ⟨t, ht, h⟩
  · rw [h]
    exact .refl s
  · rw [h]
    exact rxRise_edgesOf s _
  · have hfall : EdgesOf s t := by
      obtain ⟨hn, hl, hlen, hcs⟩ := rxFall_edgesOf s s.rxMux
      exact ht ▸ ⟨hn, hl, hlen, hcs⟩
    rcases h with h | h <;> rw [h]
    · exact hfall
    · exact hfall.trans (rxRise_edgesOf t _)

/-- PAR mode, channel after channel (R183). -/
theorem rxParFold_edgesOf (old new : Byte) (cs : List Nat) (s : State) :
    EdgesOf s (cs.foldl (fun t c => t.rxParChan old new c) s) := by
  induction cs generalizing s with
  | nil => exact .refl s
  | cons c cs ih =>
    have hc : EdgesOf s (s.rxParChan old new c) := by
      unfold State.rxParChan
      simp only
      split
      · exact rxRise_edgesOf s c
      · split
        · exact rxFall_edgesOf s c
        · exact .refl s
    exact hc.trans (ih _)

/-- Either wiring (R180). -/
theorem rxEdges_edgesOf (s : State) (new : Byte) : EdgesOf s (s.rxEdges new) := by
  unfold State.rxEdges
  split
  · exact rxSeq_edgesOf s s.rxPrev new
  · exact rxParFold_edgesOf s.rxPrev new _ s

/-- Edges leave RX_MUX, or in SEQ mode advance it cyclically (R41, R181). -/
theorem rxEdges_rxMux (s : State) (new : Byte) :
    (s.rxEdges new).rxMux = s.rxMux ∨
      (s.params.rxMode ≠ .par ∧ (s.rxEdges new).rxMux = (s.rxMux + 1) % s.params.nch) := by
  unfold State.rxEdges
  cases s.params.rxMode with
  | seq =>
    rcases rxSeq_cases s s.rxPrev new with h | h | ⟨t, rfl, h | h⟩
    · exact .inl (congrArg State.rxMux h :)
    · exact .inl (congrArg State.rxMux h :)
    · exact .inr ⟨nofun, (congrArg State.rxMux h :)⟩
    · exact .inr ⟨nofun, (congrArg State.rxMux h :)⟩
  | par => exact .inl (congrArg State.rxMux (rxParFold_frame s.rxPrev new (List.range s.params.nch) s).1 :)

/-! ## What an operation does to a channel -/

/-- A channel after an operation at the tick `now` on a block with the channels `cs`: cleared by a reset or a loss,
or one of `cs` with edges, or one of `cs` as a receiver frame `e` ticks after the last pair leaves it (R185, R226). -/
inductive ChanAfter (p : Params) (now : Tick) (cs : List Channel) : Channel → Prop
  | cleared : ChanAfter p now cs (Channel.initial p)
  | edges {x y : Channel} (hx : x ∈ cs) (h : x.EdgeOf now y) : ChanAfter p now cs y
  | conditioned {x : Channel} (hx : x ∈ cs) (c : Nat) {e : Tick} (he : e ≤ p.lossT + p.fadeF) :
      ChanAfter p now cs { x.drain p with rxCond := wrap16 (fadeValue p e ((x.drain p).condValue p c)) }

/-- A receiver frame conditions every channel, or clears them all (R226, R227). -/
theorem rxFrame_chans (s : State) :
    s.rxDrain.condition.chans.length = s.chans.length ∧
      ∀ y ∈ s.rxDrain.condition.chans, ChanAfter s.params s.now s.chans y := by
  rcases condition_cases s.rxDrain with ⟨-, h⟩ | ⟨he, h⟩ <;> rw [h]
  · refine ⟨by simp, fun y hy => ?_⟩
    obtain ⟨z, hz, rfl⟩ := List.mem_map.mp hy
    obtain ⟨x, -, rfl⟩ := List.mem_map.mp hz
    exact .cleared
  · refine ⟨by simp, fun y hy => ?_⟩
    obtain ⟨c, hc, rfl⟩ := List.mem_mapIdx.mp hy
    obtain ⟨x, hx, hxc⟩ := List.mem_map.mp (List.getElem_mem hc)
    rw [← hxc]
    exact .conditioned hx c he

/-- Every operation keeps the number of channels and makes of each what `ChanAfter` says. -/
theorem exec_chans {i : Instr} {s t : State} (h : exec i s = .next t) (hn : s.chans.length = s.params.nch) :
    t.chans.length = s.params.nch ∧ ∀ y ∈ t.chans, ChanAfter s.params s.now s.chans y := by
  have hf := exec_frame h
  cases i with
  | rx port =>
    rcases execRx_next h with ⟨-, rfl⟩ | ⟨-, rfl⟩
    · have hedges := rxEdges_edgesOf s port
      refine ⟨hedges.length.trans hn, fun y hy => ?_⟩
      obtain ⟨x, hx, hxy⟩ := hedges.chans y hy
      exact .edges hx hxy
    · exact ⟨hn, fun y hy => .edges hy (.refl _ y)⟩
  | svcRx =>
    obtain ⟨-, rfl⟩ := execSvcRx_next h
    obtain ⟨hlen, hcs⟩ := rxFrame_chans { s with rxDue := false }
    exact ⟨hlen.trans hn, hcs⟩
  | reset =>
    obtain rfl := Host.Outcome.next.inj h
    refine ⟨List.length_replicate, fun y hy => ?_⟩
    obtain rfl := List.eq_of_mem_replicate hy
    exact .cleared
  | _ =>
    have hc : t.chans = s.chans := (congrArg State.chans hf :)
    rw [hc]
    exact ⟨hn, fun y hy => .edges hy (.refl _ y)⟩

/-! ## Rings -/

/-- A drain keeps the ring ordered (R185, R189). -/
theorem drain_ringOk {x : Channel} {p : Params} (h : x.RingOk p.rxN) : (x.drain p).RingOk p.rxN := by
  unfold Channel.drain
  split
  · exact insert_ringOk _ h
  · exact h

/-- Every operation keeps every ring ordered (R45, R189). -/
theorem exec_keeps_ring {i : Instr} {s t : State} (hp : s.params.legal = true) (hs : RingInv s)
    (h : exec i s = .next t) : RingInv t := by
  obtain ⟨hn, hs⟩ := hs
  obtain ⟨hlen, hcs⟩ := exec_chans h hn
  unfold RingInv
  rw [exec_params h]
  refine ⟨hlen, fun y hy => ?_⟩
  cases hcs y hy with
  | cleared => exact initial_ringOk hp
  | edges hx hxy =>
    rw [Channel.RingOk, hxy.ringVal, hxy.ringHead, hxy.ringOrd]
    exact hs _ hx
  | conditioned hx c he => exact drain_ringOk (hs _ hx)

/-- Settles O58: the step runs one operation, on the state without the presented word. -/
theorem stepKeepsRingInv : Obligations.StepKeepsRingInv := by
  intro s t hr h
  obtain ⟨hp, word, rest, i, -, -, hi⟩ := step_next h
  exact exec_keeps_ring (s := { s with pending := rest }) hp hr hi

/-! ## Stored ticks -/

/-- A difference of ticks is a tick (R11). -/
theorem modTB_lt (p : Params) (v : Int) : modTB p v < 2 ^ p.tb := by
  have hpos : (0 : Int) < 2 ^ p.tb := by positivity
  have hlt := Int.emod_lt_of_pos v hpos
  have hnn := Int.emod_nonneg v hpos.ne'
  rw [modTB, ← Int.ofNat_lt, Int.toNat_of_nonneg hnn]
  exact_mod_cast hlt

/-- A drain stores a pulse width and clears the end of the pair (R185). -/
theorem drain_ticksOk {x : Channel} {p : Params} (h : x.TicksOk p) : (x.drain p).TicksOk p := by
  unfold Channel.drain
  split
  · obtain ⟨hst, -, hval⟩ := h
    refine ⟨hst, Nat.two_pow_pos _, fun v hv => ?_⟩
    rcases List.mem_or_eq_of_mem_set hv with hmem | rfl
    · exact hval v hmem
    · exact modTB_lt p _
  · exact h

/-- LAST_PAIR stays, or becomes NOW, or RESET zeroes it (R43). -/
theorem exec_lastPair {i : Instr} {s t : State} (h : exec i s = .next t) :
    t.lastPair = s.lastPair ∨ t.lastPair = s.now ∨ t.lastPair = 0 := by
  have hf := exec_frame h
  cases i with
  | rx port =>
    rcases execRx_next h with ⟨-, rfl⟩ | ⟨-, rfl⟩
    · exact (rxEdges_edgesOf s port).lastPair.imp_right .inl
    · exact .inl rfl
  | reset => obtain rfl := Host.Outcome.next.inj h; exact .inr (.inr rfl)
  | _ => exact .inl (congrArg State.lastPair hf :)

/-- SER_LAST stays, or becomes NOW, or RESET zeroes it (R54, R310). -/
theorem exec_serLast {i : Instr} {s t : State} (h : exec i s = .next t) :
    t.serLast = s.serLast ∨ t.serLast = s.now ∨ t.serLast = 0 := by
  have hf := exec_frame h
  cases i with
  | ser b =>
    rcases execSer_next h with ⟨-, rfl⟩ | rfl
    · exact .inr (.inl rfl)
    · exact .inl rfl
  | reset => obtain rfl := Host.Outcome.next.inj h; exact .inr (.inr rfl)
  | _ => exact .inl (congrArg State.serLast hf :)

/-- RX_MUX stays, or becomes 0, or in SEQ mode advances cyclically (R41, R181, R227). -/
theorem exec_rxMux {i : Instr} {s t : State} (h : exec i s = .next t) :
    t.rxMux = s.rxMux ∨ t.rxMux = 0 ∨ (s.params.rxMode ≠ .par ∧ t.rxMux = (s.rxMux + 1) % s.params.nch) := by
  have hf := exec_frame h
  cases i with
  | rx port =>
    rcases execRx_next h with ⟨-, rfl⟩ | ⟨-, rfl⟩
    · exact (rxEdges_rxMux s port).imp_right .inr
    · exact .inl rfl
  | svcRx =>
    obtain ⟨-, rfl⟩ := execSvcRx_next h
    rcases condition_cases { s with rxDue := false }.rxDrain with ⟨-, hc⟩ | ⟨-, hc⟩ <;> rw [hc]
    · exact .inr (.inl rfl)
    · exact .inl rfl
  | reset => obtain rfl := Host.Outcome.next.inj h; exact .inr (.inl rfl)
  | _ => exact .inl (congrArg State.rxMux hf :)

/-- Every operation keeps every stored tick below 2^TB, and RX_MUX a channel (R41-R44, R54). -/
theorem exec_keeps_tick {i : Instr} {s t : State} (hp : s.params.legal = true) (hn : s.chans.length = s.params.nch)
    (ht : TimerInv s) (hs : TickInv s) (h : exec i s = .next t) : TickInv t := by
  obtain ⟨hlast, hser, hcs, hmux, hpar⟩ := hs
  have hnow := now_lt ht
  have hzero := Nat.two_pow_pos s.params.tb
  unfold TickInv
  rw [exec_params h]
  refine ⟨?_, ?_, fun y hy => ?_, ?_, fun hm => ?_⟩
  · rcases exec_lastPair h with he | he | he <;> rw [he] <;> assumption
  · rcases exec_serLast h with he | he | he <;> rw [he] <;> assumption
  · cases (exec_chans h hn).2 y hy with
    | cleared => exact initial_ticksOk s.params
    | edges hx hxy =>
      obtain ⟨hst, hen, hval⟩ := hcs _ hx
      exact ⟨hxy.rxStart.elim (· ▸ hst) (· ▸ hnow), hxy.rxEnd.elim (· ▸ hen) (· ▸ hnow), hxy.ringVal ▸ hval⟩
    | conditioned hx c he => exact drain_ticksOk (hcs _ hx)
  · have hnch := (Params.receiver_pos hp).1
    rcases exec_rxMux h with he | he | ⟨-, he⟩ <;> rw [he]
    · exact hmux
    · exact hnch
    · exact Nat.mod_lt _ hnch
  · rcases exec_rxMux h with he | he | ⟨hne, -⟩
    · exact he.trans (hpar hm)
    · exact he
    · exact absurd hm hne

end Sys2Proof.Machine
end

section
/-! The outputs stay in range and SER_RXQ within its capacity (R47, R49, R54), and so every step keeps all the
invariants of the block. -/

namespace Sys2Proof.Machine

/-! ## Motor commands and conditioned commands -/

/-- The map's value is clamped to the range (R220, R222). -/
theorem condValue_natAbs_le (x : Channel) (p : Params) (c : Nat) : (x.condValue p c).natAbs ≤ p.range := by
  unfold Channel.condValue
  simp only
  split
  · simp
  · split
    · simp
    · rw [clamp_eq (by omega)]
      omega

/-- The fade brings a value nearer to 0 (R226). -/
theorem fadeValue_natAbs_le {p : Params} {e : Nat} (he : e ≤ p.lossT + p.fadeF) (v : Int) :
    (fadeValue p e v).natAbs ≤ v.natAbs := by
  unfold fadeValue
  split
  · exact le_rfl
  · have hlt : p.lossT < e := Nat.not_le.mp ‹_›
    have hk : ((p.lossT : Int) + p.fadeF - e).natAbs ≤ p.fadeF := by omega
    rw [tdiv, Int.natAbs_tdiv, Int.natAbs_mul]
    exact Nat.div_le_of_le_mul (by rw [Nat.mul_comm]; exact Nat.mul_le_mul_right _ hk)

/-- A value within a range of at most 250 is stored in 16 bits unchanged. -/
theorem wrap16_toInt_range {v : Int} {r : Nat} (hr : r ≤ 250) (hv : v.natAbs ≤ r) :
    -(r : Int) ≤ (wrap16 v).toInt ∧ (wrap16 v).toInt ≤ r := by
  rw [wrap16, BitVec.toInt_ofInt_eq_self (by decide) (by omega) (by omega)]
  omega

/-- Every operation keeps motor commands and conditioned commands in range (R47, R49). -/
theorem exec_keeps_output {i : Instr} {s t : State} (hp : s.params.legal = true)
    (hn : s.chans.length = s.params.nch) (hs : OutputInv s) (h : exec i s = .next t) : OutputInv t := by
  rcases eq_or_ne i .reset with rfl | hi
  · obtain rfl := Host.Outcome.next.inj h
    exact initial_output s.params s.nv
  obtain ⟨hmotor, hcond⟩ := hs
  refine ⟨fun y hy => ?_, fun y hy => ?_⟩
  · obtain ⟨a, ha⟩ := List.mem_iff_getElem?.mp hy
    obtain ⟨x, hx, hstep⟩ := (exec_axes h hi).2 a y ha
    cases hstep with
    | keeps _ _ _ hcmd => exact hcmd ▸ hmotor x (List.mem_of_getElem? hx)
    | frame hy =>
      obtain ⟨-, -, -, v, hcmd⟩ := frame_window x s.params (s.axisCfg a)
      rw [hy, hcmd]
      exact motorOf_range _ _ v
  · rw [exec_params h]
    cases (exec_chans h hn).2 y hy with
    | cleared =>
      have hmem : Channel.initial s.params ∈ (State.initial s.params s.nv).chans :=
        List.mem_replicate.mpr ⟨(Params.receiver_pos hp).1.ne', rfl⟩
      exact (initial_output s.params s.nv).2 _ hmem
    | edges hx hxy => exact hxy.rxCond ▸ hcond _ hx
    | conditioned hx c he =>
      exact wrap16_toInt_range (Params.range_le hp) ((fadeValue_natAbs_le he _).trans (condValue_natAbs_le _ _ _))

/-! ## The serial queue -/

/-- SER_RXQ gets longer only within its capacity (R54, R310). -/
theorem exec_serRxq {i : Instr} {s t : State} (h : exec i s = .next t) :
    t.serRxq.length ≤ s.serRxq.length ∨ t.serRxq.length ≤ s.params.serFifoCap := by
  have hf := exec_frame h
  cases i with
  | ser b =>
    rcases execSer_next h with ⟨hcap, rfl⟩ | rfl
    · exact .inr (by simpa using hcap)
    · exact .inl le_rfl
  | svcEnc =>
    obtain ⟨-, rfl⟩ := execSvcEnc_next h
    obtain ⟨q, m, r, hc, hq, -⟩ := handshakeCheck_frame { s with encDue := false }.encFrame.dispatchMotors
    rw [hc]
    exact .inl hq
  | svcCfg =>
    obtain ⟨-, l, rest, hrx, rfl⟩ := execSvcCfg_next h
    obtain ⟨q, bs, r, nv, m, hc, hq, -⟩ := serveRequest_frame s l rest
    rw [hc, hrx]
    exact .inl (Nat.le_succ_of_le hq)
  | reset => obtain rfl := Host.Outcome.next.inj h; exact .inr (Nat.zero_le _)
  | _ => exact .inl (congrArg (·.serRxq.length) hf :).le

/-- Every operation keeps SER_RXQ within its capacity (R54). -/
theorem exec_keeps_fifo {i : Instr} {s t : State} (hs : FifoInv s) (h : exec i s = .next t) : FifoInv t := by
  unfold FifoInv
  rw [exec_params h]
  exact (exec_serRxq h).elim (·.trans hs) id

/-! ## All the invariants -/

/-- Every operation keeps the invariants of the block, each by its own lemma. -/
theorem exec_keeps_block {i : Instr} {s t : State} (hp : s.params.legal = true) (hs : BlockInv s)
    (h : exec i s = .next t) : BlockInv t := by
  obtain ⟨htimer, hconfig, hwindow, hring, htick, houtput, hfifo⟩ := hs
  exact ⟨exec_keeps_timer hp htimer h, exec_keeps_config hp hconfig h, exec_keeps_window hp hconfig hwindow h,
    exec_keeps_ring hp hring h, exec_keeps_tick hp hring.1 htimer htick h, exec_keeps_output hp hring.1 houtput h,
    exec_keeps_fifo hfifo h⟩

/-- Settles O59: the step runs one operation, on the state without the presented word. -/
theorem stepKeepsBlockInv : Obligations.StepKeepsBlockInv := by
  intro s t hs h
  obtain ⟨hp, word, rest, i, -, -, hi⟩ := step_next h
  exact exec_keeps_block (s := { s with pending := rest }) hp hs hi

end Sys2Proof.Machine
end

section
/-! The register map (R80-R86): the register an address names, what it reads where its index names an axis, a channel
or a field, and 0 where it names none. -/

namespace Sys2Proof.Machine

/-! ## The register an address names -/

/-- The registers of an axis, one word for each axis (R83). -/
theorem regOf_axis : ∀ a < 4,
    regOf (BitVec.ofNat 12 (0x010 + a)) = .encCount a ∧ regOf (BitVec.ofNat 12 (0x014 + a)) = .encSum a ∧
    regOf (BitVec.ofNat 12 (0x018 + a)) = .encSpeed a ∧ regOf (BitVec.ofNat 12 (0x01C + a)) = .encIdx a ∧
    regOf (BitVec.ofNat 12 (0x040 + a)) = .pidOut a ∧ regOf (BitVec.ofNat 12 (0x044 + a)) = .pidInt a ∧
    regOf (BitVec.ofNat 12 (0x048 + a)) = .pidLast a ∧ regOf (BitVec.ofNat 12 (0x04C + a)) = .pidTgt a ∧
    regOf (BitVec.ofNat 12 (0x050 + a)) = .motorCmd a := by decide

/-- The registers of a channel, one word for each channel (R84). -/
theorem regOf_chan : ∀ c < 8,
    regOf (BitVec.ofNat 12 (0x020 + c)) = .rxStart c ∧ regOf (BitVec.ofNat 12 (0x028 + c)) = .rxEnd c ∧
    regOf (BitVec.ofNat 12 (0x030 + c)) = .median c ∧ regOf (BitVec.ofNat 12 (0x038 + c)) = .rxCond c ∧
    regOf (BitVec.ofNat 12 (0x0A0 + c)) = .ringHead c := by decide

/-- A window slot: 0x20 words for each axis (R83). -/
theorem regOf_encWin {a k : Nat} (ha : a < 4) (hk : k < 0x20) :
    regOf (BitVec.ofNat 12 (0x100 + 0x20 * a + k)) = .encWin a k := by
  simp (disch := omega) only [regOf, BitVec.toNat_ofNat, Nat.mod_eq_of_lt, if_neg, if_pos, Reg.encWin.injEq]
  omega

/-- A reading of a ring: 0x40 words for each channel, the readings first (R84). -/
theorem regOf_ringVal {c k : Nat} (hc : c < 8) (hk : k < 0x20) :
    regOf (BitVec.ofNat 12 (0x200 + 0x40 * c + k)) = .ringVal c k := by
  simp (disch := omega) only [regOf, ringReg, BitVec.toNat_ofNat, Nat.mod_eq_of_lt, if_neg, if_pos, Reg.ringVal.injEq]
  omega

/-- An entry of a ring's order, after the readings (R84). -/
theorem regOf_ringOrd {c k : Nat} (hc : c < 8) (hk : k < 0x20) :
    regOf (BitVec.ofNat 12 (0x220 + 0x40 * c + k)) = .ringOrd c k := by
  simp (disch := omega) only [regOf, ringReg, BitVec.toNat_ofNat, Nat.mod_eq_of_lt, if_neg, if_pos, Reg.ringOrd.injEq]
  omega

/-- A field of CFG: eight words for each axis (R85). -/
theorem regOf_cfg {a f : Nat} (ha : a < 4) (hf : f < 8) :
    regOf (BitVec.ofNat 12 (0x060 + 8 * a + f)) = .cfg a f := by
  simp (disch := omega) only [regOf, BitVec.toNat_ofNat, Nat.mod_eq_of_lt, if_neg, if_pos, Reg.cfg.injEq]
  omega

/-- A field of CFG_EDIT: eight words for each axis (R85). -/
theorem regOf_cfgEdit {a f : Nat} (ha : a < 4) (hf : f < 8) :
    regOf (BitVec.ofNat 12 (0x080 + 8 * a + f)) = .cfgEdit a f := by
  simp (disch := omega) only [regOf, BitVec.toNat_ofNat, Nat.mod_eq_of_lt, if_neg, if_pos, Reg.cfgEdit.injEq]
  omega

/-- Word `j` of a persisted copy before the last: eight words for each axis (R85). -/
theorem regOf_nvField {k j : Nat} (hk : k < 3) (hj : j < 0x3F) :
    regOf (BitVec.ofNat 12 (0x400 + 0x40 * k + j)) = .nvField k (j / 8) (j % 8) := by
  simp (disch := omega) only [regOf, nvReg, BitVec.toNat_ofNat, Nat.mod_eq_of_lt, if_neg, if_pos, Reg.nvField.injEq]
  omega

/-- Field `f` of axis `a` of a persisted copy (R85). -/
theorem regOf_nvField_axis {k a f : Nat} (hk : k < 3) (ha : a < 4) (hf : f < 8) :
    regOf (BitVec.ofNat 12 (0x400 + 0x40 * k + 8 * a + f)) = .nvField k a f := by
  rw [Nat.add_assoc, regOf_nvField hk (by omega), Reg.nvField.injEq]
  omega

/-- The last word of a persisted copy (R85). -/
theorem regOf_nvValid {k : Nat} (hk : k < 3) : regOf (BitVec.ofNat 12 (0x43F + 0x40 * k)) = .nvValid k := by
  simp (disch := omega) only [regOf, nvReg, BitVec.toNat_ofNat, Nat.mod_eq_of_lt, if_neg, if_pos, Reg.nvValid.injEq]
  omega

/-- The gaps of the map (R86). -/
theorem regOf_gap {n : Nat} (hn : n < 0x1000)
    (h : (0x004 ≤ n ∧ n < 0x010) ∨ (0x054 ≤ n ∧ n < 0x060) ∨ (0x0A8 ≤ n ∧ n < 0x100) ∨ (0x180 ≤ n ∧ n < 0x200) ∨
      0x4C0 ≤ n) :
    regOf (BitVec.ofNat 12 n) = .unmapped := by
  rcases h with h | h | h | h | h <;>
    simp (disch := omega) only [regOf, lowReg, BitVec.toNat_ofNat, Nat.mod_eq_of_lt, if_neg, if_pos]

/-! ## What an indexed register reads -/

/-- The register of an axis that the block has. -/
theorem onAxis_of_some {s : State} {a : Nat} {x : Axis} (h : s.axes[a]? = some x) (f : Axis → Word) :
    s.onAxis a f = f x := by
  simp only [State.onAxis, h]

/-- The register of an axis that the block has not (R86). -/
theorem onAxis_of_length_le {s : State} {a : Nat} (h : s.axes.length ≤ a) (f : Axis → Word) : s.onAxis a f = 0 := by
  simp only [State.onAxis, List.getElem?_eq_none h]

/-- The register of a channel that the block has. -/
theorem onChan_of_some {s : State} {c : Nat} {x : Channel} (h : s.chans[c]? = some x) (f : Channel → Word) :
    s.onChan c f = f x := by
  simp only [State.onChan, h]

/-- The register of a channel that the block has not (R86). -/
theorem onChan_of_length_le {s : State} {c : Nat} (h : s.chans.length ≤ c) (f : Channel → Word) :
    s.onChan c f = 0 := by
  simp only [State.onChan, List.getElem?_eq_none h]

/-- A slot that a window or a ring has. -/
theorem getD_of_some {α : Type} {l : List α} {k : Nat} {v d : α} (h : l[k]? = some v) : l.getD k d = v := by
  rw [List.getD_eq_getElem?_getD, h, Option.getD_some]

/-- Field numbers are below 7 (R110). -/
theorem fieldNum_lt {n : Nat} {f : Field} (h : Field.ofNum n = some f) : n < 7 := by
  by_contra hn
  obtain ⟨m, rfl⟩ := Nat.exists_eq_add_of_le' (Nat.not_lt.mp hn)
  cases h

/-- A numbered field of an axis that the block has. -/
theorem fieldReg_of_ofNum {p : Params} {a n : Nat} {f : Field} (ha : a < p.nax) (h : Field.ofNum n = some f)
    (r : Record) : fieldReg p r a n = r.field a f := by
  simp only [fieldReg, h, if_pos ha]

/-- Field number 7 (R85), and any field of an axis that the block has not (R86). -/
theorem fieldReg_eq_zero {p : Params} {a n : Nat} (h : p.nax ≤ a ∨ n = 7) (r : Record) : fieldReg p r a n = 0 := by
  rcases h with ha | rfl
  · unfold fieldReg
    split
    · exact if_neg (Nat.not_lt.mpr ha)
    · rfl
  · rfl

/-- The same registers of a persisted copy. -/
theorem readReg_nvField_eq_zero {s : State} {a n : Nat} (h : s.params.nax ≤ a ∨ n = 7) (k : Nat) :
    s.readReg (.nvField k a n) = 0 := by
  simp only [State.readReg]
  split
  · exact fieldReg_eq_zero h _
  · rfl

/-! ## STATUS -/

/-- RX_UPD of a channel that the block has. -/
theorem updBit_of_some {s : State} {c : Nat} {x : Channel} (h : s.chans[c]? = some x) :
    s.updBit c = BitVec.ofBool x.rxUpd := by
  simp only [State.updBit, h]

/-- The bit of a channel that the block has not. -/
theorem updBit_of_length_le {s : State} {c : Nat} (h : s.chans.length ≤ c) : s.updBit c = 0#1 := by
  simp only [State.updBit, List.getElem?_eq_none h]

/-- RX_UPD channel by channel. -/
theorem updBits_getLsbD (s : State) {c : Nat} (hc : c < 8) : s.updBits.getLsbD c = (s.updBit c).getLsbD 0 := by
  have hbits : s.updBits.getLsbD c = (s.updBit 7 ++ s.updBit 6 ++ s.updBit 5 ++ s.updBit 4 ++ s.updBit 3 ++
      s.updBit 2 ++ s.updBit 1 ++ s.updBit 0).getLsbD c := rfl
  rw [hbits]
  interval_cases c <;> simp only [BitVec.getLsbD_append] <;> rfl

/-- STATUS bit by bit, from bit 0 up (R82). -/
theorem statusWord_getLsbD (s : State) (j : Nat) :
    s.statusWord.getLsbD j =
      if j < 1 then s.encDue
      else if j < 2 then s.rxDue
      else if j < 4 then s.mode.code.getLsbD (j - 2)
      else if j < 5 then s.lost
      else if j < 8 then false
      else if j < 11 then (BitVec.ofNat 3 s.rxMux).getLsbD (j - 8)
      else if j < 16 then false
      else if j < 24 then s.updBits.getLsbD (j - 16)
      else false := by
  have hword : s.statusWord.getLsbD j = (0#8 ++ s.updBits ++ 0#5 ++ BitVec.ofNat 3 s.rxMux ++ 0#3 ++
      BitVec.ofBool s.lost ++ s.mode.code ++ BitVec.ofBool s.rxDue ++ BitVec.ofBool s.encDue).getLsbD j := rfl
  rw [hword]
  simp only [BitVec.getLsbD_append, BitVec.getLsbD_zero, BitVec.getLsbD_ofBool]
  grind

/-- MODE's field of STATUS. -/
theorem statusWord_mode (s : State) : s.statusWord.extractLsb' 2 2 = s.mode.code := by
  refine BitVec.eq_of_getLsbD_eq fun i hi => ?_
  simp (disch := omega) only [BitVec.getLsbD_extractLsb', hi, statusWord_getLsbD, if_neg, if_pos, decide_true,
    Bool.true_and, Nat.add_sub_cancel_left]

/-- RX_MUX's field of STATUS. -/
theorem statusWord_rxMux (s : State) : s.statusWord.extractLsb' 8 3 = BitVec.ofNat 3 s.rxMux := by
  refine BitVec.eq_of_getLsbD_eq fun i hi => ?_
  simp (disch := omega) only [BitVec.getLsbD_extractLsb', hi, statusWord_getLsbD, if_neg, if_pos, decide_true,
    Bool.true_and, Nat.add_sub_cancel_left]

/-- RX_UPD's field of STATUS, channel by channel. -/
theorem statusWord_rxUpd (s : State) {c : Nat} (hc : c < 8) :
    s.statusWord.getLsbD (16 + c) = (s.updBit c).getLsbD 0 := by
  simp (disch := omega) only [statusWord_getLsbD, if_neg, if_pos, Nat.add_sub_cancel_left, updBits_getLsbD]

/-! ## What an address reads -/

/-- The global registers (R82). -/
theorem memRead_global (s : State) :
    s.memRead 0x000 = s.statusWord ∧ s.memRead 0x001 = BitVec.ofNat 32 s.now ∧
    s.memRead 0x002 = BitVec.ofNat 32 s.lastPair ∧ s.memRead 0x003 = BitVec.ofNat 32 s.serRxq.length :=
  ⟨rfl, rfl, rfl, rfl⟩

/-- The registers of an axis (R83). -/
theorem memRead_axis (s : State) {a : Nat} (ha : a < 4) :
    s.memRead (BitVec.ofNat 12 (0x010 + a)) = s.onAxis a (fun x => x.encCount.signExtend 32) ∧
    s.memRead (BitVec.ofNat 12 (0x014 + a)) = s.onAxis a (fun x => x.encSum) ∧
    s.memRead (BitVec.ofNat 12 (0x018 + a)) = s.onAxis a (fun x => x.encSpeed) ∧
    s.memRead (BitVec.ofNat 12 (0x01C + a)) = s.onAxis a (fun x => BitVec.ofNat 32 x.encIdx) ∧
    s.memRead (BitVec.ofNat 12 (0x040 + a)) = s.onAxis a (fun x => x.pidOut) ∧
    s.memRead (BitVec.ofNat 12 (0x044 + a)) = s.onAxis a (fun x => x.pidInt) ∧
    s.memRead (BitVec.ofNat 12 (0x048 + a)) = s.onAxis a (fun x => x.pidLast) ∧
    s.memRead (BitVec.ofNat 12 (0x04C + a)) = s.onAxis a (fun x => x.pidTgt) ∧
    s.memRead (BitVec.ofNat 12 (0x050 + a)) = s.onAxis a (fun x => x.motorCmd.signExtend 32) := by
  obtain ⟨hcount, hsum, hspeed, hidx, hout, hint, hlast, htgt, hmotor⟩ := regOf_axis a ha
  exact ⟨congrArg s.readReg hcount, congrArg s.readReg hsum, congrArg s.readReg hspeed, congrArg s.readReg hidx,
    congrArg s.readReg hout, congrArg s.readReg hint, congrArg s.readReg hlast, congrArg s.readReg htgt,
    congrArg s.readReg hmotor⟩

/-- A window slot (R83). -/
theorem memRead_encWin (s : State) {a k : Nat} (ha : a < 4) (hk : k < 0x20) :
    s.memRead (BitVec.ofNat 12 (0x100 + 0x20 * a + k)) = s.onAxis a (fun x => (x.encWin.getD k 0).signExtend 32) :=
  congrArg s.readReg (regOf_encWin ha hk)

/-- The registers of a channel (R84). -/
theorem memRead_chan (s : State) {c : Nat} (hc : c < 8) :
    s.memRead (BitVec.ofNat 12 (0x020 + c)) = s.onChan c (fun x => BitVec.ofNat 32 x.rxStart) ∧
    s.memRead (BitVec.ofNat 12 (0x028 + c)) = s.onChan c (fun x => BitVec.ofNat 32 x.rxEnd) ∧
    s.memRead (BitVec.ofNat 12 (0x030 + c)) = s.onChan c (fun x => BitVec.ofNat 32 (x.median s.params.rxN)) ∧
    s.memRead (BitVec.ofNat 12 (0x038 + c)) = s.onChan c (fun x => x.rxCond.signExtend 32) ∧
    s.memRead (BitVec.ofNat 12 (0x0A0 + c)) = s.onChan c (fun x => BitVec.ofNat 32 x.ringHead) := by
  obtain ⟨hstart, hend, hmedian, hcond, hhead⟩ := regOf_chan c hc
  exact ⟨congrArg s.readReg hstart, congrArg s.readReg hend, congrArg s.readReg hmedian, congrArg s.readReg hcond,
    congrArg s.readReg hhead⟩

/-- A reading of a ring (R84). -/
theorem memRead_ringVal (s : State) {c k : Nat} (hc : c < 8) (hk : k < 0x20) :
    s.memRead (BitVec.ofNat 12 (0x200 + 0x40 * c + k)) = s.onChan c (fun x => BitVec.ofNat 32 (x.ringVal.getD k 0)) :=
  congrArg s.readReg (regOf_ringVal hc hk)

/-- An entry of a ring's order (R84). -/
theorem memRead_ringOrd (s : State) {c k : Nat} (hc : c < 8) (hk : k < 0x20) :
    s.memRead (BitVec.ofNat 12 (0x220 + 0x40 * c + k)) = s.onChan c (fun x => BitVec.ofNat 32 (x.ringOrd.getD k 0)) :=
  congrArg s.readReg (regOf_ringOrd hc hk)

/-- A field of CFG (R85). -/
theorem memRead_cfg (s : State) {a f : Nat} (ha : a < 4) (hf : f < 8) :
    s.memRead (BitVec.ofNat 12 (0x060 + 8 * a + f)) = fieldReg s.params s.cfg a f :=
  congrArg s.readReg (regOf_cfg ha hf)

/-- A field of CFG_EDIT (R85). -/
theorem memRead_cfgEdit (s : State) {a f : Nat} (ha : a < 4) (hf : f < 8) :
    s.memRead (BitVec.ofNat 12 (0x080 + 8 * a + f)) = fieldReg s.params s.cfgEdit a f :=
  congrArg s.readReg (regOf_cfgEdit ha hf)

/-- A field of each persisted copy (R85). -/
theorem memRead_nvField (s : State) {a f : Nat} (ha : a < 4) (hf : f < 8) :
    s.memRead (BitVec.ofNat 12 (0x400 + 8 * a + f)) = fieldReg s.params s.nv.copy0.record a f ∧
    s.memRead (BitVec.ofNat 12 (0x440 + 8 * a + f)) = fieldReg s.params s.nv.copy1.record a f ∧
    s.memRead (BitVec.ofNat 12 (0x480 + 8 * a + f)) = fieldReg s.params s.nv.copy2.record a f :=
  ⟨congrArg s.readReg (regOf_nvField_axis (k := 0) (by decide) ha hf),
    congrArg s.readReg (regOf_nvField_axis (k := 1) (by decide) ha hf),
    congrArg s.readReg (regOf_nvField_axis (k := 2) (by decide) ha hf)⟩

/-- A valid bit as a register shows it (R85). -/
theorem ofBool_setWidth (b : Bool) : (BitVec.ofBool b).setWidth 32 = if b then 1 else 0 := by
  cases b <;> rfl

/-- The valid bit of each persisted copy (R85). -/
theorem memRead_nvValid (s : State) :
    s.memRead 0x43F = (if s.nv.copy0.valid then 1 else 0) ∧ s.memRead 0x47F = (if s.nv.copy1.valid then 1 else 0) ∧
    s.memRead 0x4BF = (if s.nv.copy2.valid then 1 else 0) :=
  ⟨(congrArg s.readReg (regOf_nvValid (k := 0) (by decide))).trans (ofBool_setWidth _),
    (congrArg s.readReg (regOf_nvValid (k := 1) (by decide))).trans (ofBool_setWidth _),
    (congrArg s.readReg (regOf_nvValid (k := 2) (by decide))).trans (ofBool_setWidth _)⟩

/-! ## Registers whose index is out of range (R86) -/

/-- Every register of an axis that the block has not reads 0. -/
theorem memRead_missing_axis {s : State} {a n : Nat} (hle : s.axes.length ≤ a) (ha : a < 4)
    (h : n = 0x010 + a ∨ n = 0x014 + a ∨ n = 0x018 + a ∨ n = 0x01C + a ∨ n = 0x040 + a ∨ n = 0x044 + a ∨
      n = 0x048 + a ∨ n = 0x04C + a ∨ n = 0x050 + a ∨ ∃ k < 32, n = 0x100 + 0x20 * a + k) :
    s.memRead (BitVec.ofNat 12 n) = 0 := by
  obtain ⟨hcount, hsum, hspeed, hidx, hout, hint, hlast, htgt, hmotor⟩ := memRead_axis s ha
  have hzero := onAxis_of_length_le hle
  rcases h with rfl | rfl | rfl | rfl | rfl | rfl | rfl | rfl | rfl | ⟨k, hk, rfl⟩
  · exact hcount.trans (hzero _)
  · exact hsum.trans (hzero _)
  · exact hspeed.trans (hzero _)
  · exact hidx.trans (hzero _)
  · exact hout.trans (hzero _)
  · exact hint.trans (hzero _)
  · exact hlast.trans (hzero _)
  · exact htgt.trans (hzero _)
  · exact hmotor.trans (hzero _)
  · exact (memRead_encWin s ha hk).trans (hzero _)

/-- Every register of a channel that the block has not reads 0. -/
theorem memRead_missing_chan {s : State} {c n : Nat} (hle : s.chans.length ≤ c) (hc : c < 8)
    (h : n = 0x020 + c ∨ n = 0x028 + c ∨ n = 0x030 + c ∨ n = 0x038 + c ∨ n = 0x0A0 + c ∨
      ∃ k < 0x40, n = 0x200 + 0x40 * c + k) :
    s.memRead (BitVec.ofNat 12 n) = 0 := by
  obtain ⟨hstart, hend, hmedian, hcond, hhead⟩ := memRead_chan s hc
  have hzero := onChan_of_length_le hle
  rcases h with rfl | rfl | rfl | rfl | rfl | ⟨k, hk, rfl⟩
  · exact hstart.trans (hzero _)
  · exact hend.trans (hzero _)
  · exact hmedian.trans (hzero _)
  · exact hcond.trans (hzero _)
  · exact hhead.trans (hzero _)
  · rcases Nat.lt_or_ge k 0x20 with hlt | hge
    · exact (memRead_ringVal s hc hlt).trans (hzero _)
    · obtain ⟨j, rfl⟩ := Nat.exists_eq_add_of_le hge
      have haddr : 0x200 + 0x40 * c + (0x20 + j) = 0x220 + 0x40 * c + j := by omega
      rw [haddr]
      exact (memRead_ringOrd s hc (by omega)).trans (hzero _)

/-! ## The obligations -/

/-- Settles O43: STATUS bit by bit, the other three by their definition. -/
theorem globalRegistersRead : Obligations.GlobalRegistersRead := by
  intro s hmux hchans
  obtain ⟨hstatus, htime, hlast, hlevel⟩ := memRead_global s
  rw [hstatus, hlevel]
  refine ⟨?encDue, ?rxDue, ?mode, ?lost, ?mux, fun c x hx => ?upd, fun c hc hc8 => ?noChannel, ?zeros, htime, hlast,
    fun hlen => ?level⟩
  case encDue => exact statusWord_getLsbD s 0
  case rxDue => exact statusWord_getLsbD s 1
  case mode =>
    rw [statusWord_mode]
    cases s.mode <;> rfl
  case lost => exact statusWord_getLsbD s 4
  case mux => rw [statusWord_rxMux, BitVec.toNat_ofNat, Nat.mod_eq_of_lt hmux]
  case upd =>
    have hc : c < s.chans.length := (List.getElem?_eq_some_iff.mp hx).1
    rw [statusWord_rxUpd s (hc.trans_le hchans), updBit_of_some hx, BitVec.getLsbD_ofBool, decide_eq_true rfl,
      Bool.true_and]
  case noChannel => rw [statusWord_rxUpd s hc8, updBit_of_length_le hc, BitVec.getLsbD_zero]
  case zeros => simp [statusWord_getLsbD]
  case level => rw [BitVec.toNat_ofNat, Nat.mod_eq_of_lt hlen]

/-- Settles O44: each address names its register, and the block has the axis. -/
theorem axisRegistersRead : Obligations.AxisRegistersRead := by
  intro s a x ha hx
  obtain ⟨hcount, hsum, hspeed, hidx, hout, hint, hlast, htgt, hmotor⟩ := memRead_axis s ha
  have hread := onAxis_of_some hx
  refine ⟨hcount.trans (hread _), hsum.trans (hread _), hspeed.trans (hread _), hidx.trans (hread _),
    hout.trans (hread _), hint.trans (hread _), hlast.trans (hread _), htgt.trans (hread _), hmotor.trans (hread _),
    fun k v hk hv => ?_⟩
  rw [memRead_encWin s ha hk, hread, getD_of_some hv]

/-- Settles O45: each address names its register, and the block has the channel. -/
theorem channelRegistersRead : Obligations.ChannelRegistersRead := by
  intro s c x hc hx
  obtain ⟨hstart, hend, hmedian, hcond, hhead⟩ := memRead_chan s hc
  have hread := onChan_of_some hx
  refine ⟨hstart.trans (hread _), hend.trans (hread _), hmedian.trans (hread _), hcond.trans (hread _),
    hhead.trans (hread _), fun k v hk hv => ?_, fun k v hk hv => ?_⟩
  · rw [memRead_ringVal s hc hk, hread, getD_of_some hv]
  · rw [memRead_ringOrd s hc hk, hread, getD_of_some hv]

/-- Settles O46: each address names its field, and the block has the axis. -/
theorem configRegistersRead : Obligations.ConfigRegistersRead := by
  intro s a ha hnax
  refine ⟨fun n f hf => ?fields, ?cfgNone, ?editNone, fun k hk => ?copyNone, memRead_nvValid s⟩
  case fields =>
    have hn : n < 8 := (fieldNum_lt hf).trans (by decide)
    have hread := fieldReg_of_ofNum hnax hf
    obtain ⟨hcopy0, hcopy1, hcopy2⟩ := memRead_nvField s ha hn
    exact ⟨(memRead_cfg s ha hn).trans (hread _), (memRead_cfgEdit s ha hn).trans (hread _),
      hcopy0.trans (hread _), hcopy1.trans (hread _), hcopy2.trans (hread _)⟩
  case cfgNone => exact (memRead_cfg s ha (by decide)).trans (fieldReg_eq_zero (.inr rfl) _)
  case editNone => exact (memRead_cfgEdit s ha (by decide)).trans (fieldReg_eq_zero (.inr rfl) _)
  case copyNone =>
    exact (congrArg s.readReg (regOf_nvField_axis hk ha (by decide))).trans (readReg_nvField_eq_zero (.inr rfl) k)

/-- Settles O47: a gap names no register, and the registers named by an index out of range read 0, clause by
clause. -/
theorem unnamedAddressesReadZero : Obligations.UnnamedAddressesReadZero := by
  intro s n hn h
  have hgap := fun hg => congrArg s.readReg (regOf_gap hn hg)
  rcases h with h | h | h | h | h | ⟨a, hle, ha, h⟩ | ⟨a, hle, ha, f, hf, h⟩ | ⟨k, hk, j, hj, h, rfl⟩ |
    ⟨c, hle, hc, h⟩ | ⟨a, x, k, ha, hx, hle, hk, rfl⟩ | ⟨c, x, k, hc, hx, hk, h⟩
  · exact hgap (.inl h)
  · exact hgap (.inr (.inl h))
  · exact hgap (.inr (.inr (.inl h)))
  · exact hgap (.inr (.inr (.inr (.inl h))))
  · exact hgap (.inr (.inr (.inr (.inr h))))
  · exact memRead_missing_axis hle ha h
  · rcases h with rfl | rfl
    · exact (memRead_cfg s ha hf).trans (fieldReg_eq_zero (.inl hle) _)
    · exact (memRead_cfgEdit s ha hf).trans (fieldReg_eq_zero (.inl hle) _)
  · exact (congrArg s.readReg (regOf_nvField hk hj)).trans (readReg_nvField_eq_zero h k)
  · exact memRead_missing_chan hle hc h
  · rw [memRead_encWin s ha hk, onAxis_of_some hx, List.getD_eq_default _ _ hle]
    rfl
  · rcases h with ⟨hle, rfl⟩ | ⟨hle, rfl⟩
    · rw [memRead_ringVal s hc hk, onChan_of_some hx, List.getD_eq_default _ _ hle]
      rfl
    · rw [memRead_ringOrd s hc hk, onChan_of_some hx, List.getD_eq_default _ _ hle]
      rfl

/-! ## A step -/

/-- A step with a word presented is the operation the word spells, on the state without the word (R90, R468). -/
theorem step_of_decoded {s : State} {w : OpWord} {rest : List OpWord} {i : Instr} (hp : s.params.legal = true)
    (hw : s.pending = w :: rest) (hi : decodeWord s.params w = .ok i) :
    step s = exec i { s with pending := rest } := by
  have hfetch : s.fetch = some (w, { s with pending := rest }) := by simp only [State.fetch, hw]
  simp only [step, if_pos hp, hfetch, decode, hi]

/-- Settles O6: a word that decodes is performed; the operation it spells is well-formed already. -/
theorem stepRunsTheDecodedOperation : Obligations.StepRunsTheDecodedOperation :=
  fun _ _ _ _ hp hw hi _ => step_of_decoded hp hw hi

end Sys2Proof.Machine
end

section
/-! The decoder of operation words (R100-R106), KIND by KIND: it accepts the encodings of the well-formed operations and
nothing else, and a word it accepts matches a row of R105. -/

namespace Sys2Proof

/-! ## Fields of a word -/

/-- A field of the high part of two. -/
theorem extractLsb'_append_skip {n m : Nat} (x : BitVec n) (y : BitVec m) (start len : Nat) :
    (x ++ y).extractLsb' (m + start) len = x.extractLsb' start len := by
  rw [BitVec.extractLsb'_append_eq_of_le (Nat.le_add_right _ _), Nat.add_sub_cancel_left]

/-- The fields of three put together. -/
theorem fields_append_three {a b c : Nat} (x : BitVec a) (y : BitVec b) (z : BitVec c) :
    (x ++ y ++ z).extractLsb' (c + b) a = x ∧ (x ++ y ++ z).extractLsb' c b = y ∧
      (x ++ y ++ z).extractLsb' 0 c = z :=
  ⟨(extractLsb'_append_skip _ z b a).trans (extractLsb'_append_high x y),
    (extractLsb'_append_skip _ z 0 b).trans (extractLsb'_append_low x y), extractLsb'_append_low _ z⟩

/-- The fields of four put together. -/
theorem fields_append_four {a b c d : Nat} (x : BitVec a) (y : BitVec b) (z : BitVec c) (u : BitVec d) :
    (x ++ y ++ z ++ u).extractLsb' (d + (c + b)) a = x ∧ (x ++ y ++ z ++ u).extractLsb' (d + c) b = y ∧
      (x ++ y ++ z ++ u).extractLsb' d c = z ∧ (x ++ y ++ z ++ u).extractLsb' 0 d = u := by
  obtain ⟨hx, hy, hz⟩ := fields_append_three x y z
  exact ⟨(extractLsb'_append_skip _ u (c + b) a).trans hx, (extractLsb'_append_skip _ u c b).trans hy,
    (extractLsb'_append_skip _ u 0 c).trans hz, extractLsb'_append_low _ u⟩

/-- A word is its three fields put together. -/
theorem append_three_eq {a b c : Nat} {w : BitVec (a + b + c)} {x : BitVec a} {y : BitVec b} {z : BitVec c}
    (hx : w.extractLsb' (c + b) a = x) (hy : w.extractLsb' c b = y) (hz : w.extractLsb' 0 c = z) :
    x ++ y ++ z = w := by
  rw [← hx, ← hy, ← hz, BitVec.extractLsb'_append_extractLsb'_eq_extractLsb' rfl,
    BitVec.extractLsb'_append_extractLsb'_eq_extractLsb' (Nat.zero_add c).symm, BitVec.extractLsb'_eq_self]

/-- A word is its four fields put together. -/
theorem append_four_eq {a b c d : Nat} {w : BitVec (a + b + c + d)} {x : BitVec a} {y : BitVec b} {z : BitVec c}
    {u : BitVec d} (hx : w.extractLsb' (d + c + b) a = x) (hy : w.extractLsb' (d + c) b = y)
    (hz : w.extractLsb' d c = z) (hu : w.extractLsb' 0 d = u) : x ++ y ++ z ++ u = w := by
  rw [← hx, ← hy, ← hz, ← hu, BitVec.extractLsb'_append_extractLsb'_eq_extractLsb' rfl,
    BitVec.extractLsb'_append_extractLsb'_eq_extractLsb' rfl,
    BitVec.extractLsb'_append_extractLsb'_eq_extractLsb' (Nat.zero_add d).symm, BitVec.extractLsb'_eq_self]

/-- A field that a mask keeps whole is the match's (R105). -/
theorem extractLsb'_of_masked {n start len : Nat} {w m v : BitVec n} (h : w &&& m = v)
    (hm : m.extractLsb' start len = BitVec.allOnes len) : w.extractLsb' start len = v.extractLsb' start len := by
  rw [← h, BitVec.extractLsb'_and, hm, BitVec.and_allOnes]

/-! ## The decoder, KIND by KIND (R102) -/

/-- TICK takes the twelve operand bits (R101). -/
theorem decodeWord_tick {p : Params} {w : OpWord} (h : kindOf w = 0x1#4) :
    decodeWord p w = .ok (.tick (w.extractLsb' 0 12)) := by
  rw [decodeWord, h]; rfl

/-- ENC asks for zero bits 7:2, then for an axis of the block (R101, R104). -/
theorem decodeWord_enc {p : Params} {w : OpWord} (h : kindOf w = 0x2#4) :
    decodeWord p w = requireZero (w.extractLsb' 2 6)
      (if (nibbleOf w).toNat < p.nax then .ok (.enc (nibbleOf w) (w.extractLsb' 0 2)) else .error .axisOutOfRange) := by
  rw [decodeWord, h]; rfl

/-- RX asks for zero bits 11:8 (R101). -/
theorem decodeWord_rx {p : Params} {w : OpWord} (h : kindOf w = 0x3#4) :
    decodeWord p w = requireZero (nibbleOf w) (.ok (.rx (w.extractLsb' 0 8))) := by
  rw [decodeWord, h]; rfl

/-- SER asks for zero bits 11:8 (R101). -/
theorem decodeWord_ser {p : Params} {w : OpWord} (h : kindOf w = 0x4#4) :
    decodeWord p w = requireZero (nibbleOf w) (.ok (.ser (w.extractLsb' 0 8))) := by
  rw [decodeWord, h]; rfl

/-- NVFAULT asks for zero bits 11:2, then for one of the three copies (R101, R104). -/
theorem decodeWord_nvfault {p : Params} {w : OpWord} (h : kindOf w = 0x5#4) :
    decodeWord p w = requireZero (w.extractLsb' 2 10)
      (if w.extractLsb' 0 2 = 3#2 then .error .noSuchCopy else .ok (.nvfault (w.extractLsb' 0 2))) := by
  rw [decodeWord, h]; rfl

/-- RDREG takes the twelve operand bits (R101). -/
theorem decodeWord_rdreg {p : Params} {w : OpWord} (h : kindOf w = 0x6#4) :
    decodeWord p w = .ok (.rdreg (w.extractLsb' 0 12)) := by
  rw [decodeWord, h]; rfl

/-- The operations of format S, whose twelve operand bits are zero (R101), by their KIND (R102). -/
inductive IsPlainKind : BitVec 4 → Instr → Prop
  | svcEnc : IsPlainKind 0x8#4 .svcEnc
  | svcRx : IsPlainKind 0x9#4 .svcRx
  | svcCfg : IsPlainKind 0xA#4 .svcCfg
  | reset : IsPlainKind 0xF#4 .reset

/-- An operation without operands asks for twelve zero bits (R101). -/
theorem decodeWord_plain {p : Params} {w : OpWord} {i : Instr} (h : IsPlainKind (kindOf w) i) :
    decodeWord p w = requireZero (w.extractLsb' 0 12) (.ok i) := by
  generalize hk : kindOf w = k at h
  cases h <;> (rw [decodeWord, hk]; rfl)

/-- The other KINDs are reserved (R102, R106). -/
theorem decodeWord_reserved {p : Params} {w : OpWord}
    (h : kindOf w ∈ [0x0#4, 0x7#4, 0xB#4, 0xC#4, 0xD#4, 0xE#4]) : decodeWord p w = .error .reservedKind := by
  simp only [List.mem_cons, List.not_mem_nil, or_false] at h
  rcases h with h | h | h | h | h | h <;> (rw [decodeWord, h]; rfl)

/-- The KINDs of format S (R102). -/
theorem isPlainKind_of_mem {k : BitVec 4} (h : k ∈ [0x8#4, 0x9#4, 0xA#4, 0xF#4]) : ∃ i, IsPlainKind k i := by
  simp only [List.mem_cons, List.not_mem_nil, or_false] at h
  rcases h with rfl | rfl | rfl | rfl
  exacts [⟨_, .svcEnc⟩, ⟨_, .svcRx⟩, ⟨_, .svcCfg⟩, ⟨_, .reset⟩]

/-- `requireZero` refuses where the bits are not zero or the inner check refuses. -/
theorem requireZero_error {n : Nat} {z : BitVec n} {x : Except DecodeError Instr}
    (h : z ≠ 0 ∨ ∃ e, x = .error e) : ∃ e, requireZero z x = .error e := by
  by_cases hz : z = 0
  · obtain ⟨e, he⟩ := h.resolve_left (not_not.mpr hz)
    exact ⟨e, (if_pos hz).trans he⟩
  · exact ⟨_, requireZero_ne hz⟩

/-- An ENC for an axis that the block has not is refused (R104, R106). -/
theorem decodeWord_missing_axis {p : Params} {w : OpWord} (hk : kindOf w = 0x2#4) (hax : p.nax ≤ (nibbleOf w).toNat) :
    ∃ e, decodeWord p w = .error e := by
  rw [decodeWord_enc hk]
  exact requireZero_error (.inr ⟨_, if_neg (Nat.not_lt.mpr hax)⟩)

/-- Every KIND is one of those (R102). -/
theorem kind_cases : ∀ k : BitVec 4, k = 0x1#4 ∨ k = 0x2#4 ∨ k = 0x3#4 ∨ k = 0x4#4 ∨ k = 0x5#4 ∨ k = 0x6#4 ∨
    k ∈ [0x8#4, 0x9#4, 0xA#4, 0xF#4] ∨ k ∈ [0x0#4, 0x7#4, 0xB#4, 0xC#4, 0xD#4, 0xE#4] := by decide

/-! ## A word spells an operation exactly where it is its encoding -/

/-- Encoding what a word spells gives the word back: the fields taken and those found zero are all its bits (R101). -/
theorem encode_of_decodeWord {p : Params} {w : OpWord} {i : Instr} (h : decodeWord p w = .ok i) :
    i.wellFormed p = true ∧ encode i = .word w := by
  rcases kind_cases (kindOf w) with hk | hk | hk | hk | hk | hk | hk | hk
  · rw [decodeWord_tick hk] at h
    cases h
    exact ⟨rfl, congrArg Encoded.word (hk ▸ kindOf_append w)⟩
  · rw [decodeWord_enc hk, requireZero_ok] at h
    obtain ⟨hz, h⟩ := h
    split at h
    · cases h
      exact ⟨decide_eq_true ‹_›, congrArg Encoded.word
        (append_four_eq (a := 4) (b := 4) (c := 6) (d := 2) hk rfl hz rfl)⟩
    · cases h
  · rw [decodeWord_rx hk, requireZero_ok] at h
    obtain ⟨hz, h⟩ := h
    cases h
    exact ⟨rfl, congrArg Encoded.word (append_three_eq (a := 4) (b := 4) (c := 8) hk hz rfl)⟩
  · rw [decodeWord_ser hk, requireZero_ok] at h
    obtain ⟨hz, h⟩ := h
    cases h
    exact ⟨rfl, congrArg Encoded.word (append_three_eq (a := 4) (b := 4) (c := 8) hk hz rfl)⟩
  · rw [decodeWord_nvfault hk, requireZero_ok] at h
    obtain ⟨hz, h⟩ := h
    split at h
    · cases h
    · cases h
      exact ⟨bne_iff_ne.mpr ‹_›, congrArg Encoded.word (append_three_eq (a := 4) (b := 10) (c := 2) hk hz rfl)⟩
  · rw [decodeWord_rdreg hk] at h
    cases h
    exact ⟨rfl, congrArg Encoded.word (hk ▸ kindOf_append w)⟩
  · obtain ⟨j, hk⟩ := isPlainKind_of_mem hk
    rw [decodeWord_plain hk, requireZero_ok] at h
    obtain ⟨hz, h⟩ := h
    cases h
    have hw := hz ▸ kindOf_append w
    generalize kindOf w = k at hk hw
    cases hk <;> exact ⟨rfl, congrArg Encoded.word hw⟩
  · rw [decodeWord_reserved hk] at h
    cases h

/-- The word of a well-formed operation spells it. -/
theorem decodeWord_of_encode {p : Params} {w : OpWord} {i : Instr} (hi : i.wellFormed p = true)
    (h : encode i = .word w) : decodeWord p w = .ok i := by
  cases i with
  | tick k =>
    obtain rfl := Encoded.word.inj h
    rw [decodeWord_tick (extractLsb'_append_high 0x1#4 k), extractLsb'_append_low]
  | enc axis ab =>
    obtain rfl := Encoded.word.inj h
    obtain ⟨hk, ha, hz, hb⟩ := fields_append_four 0x2#4 axis 0#6 ab
    rw [decodeWord_enc hk, requireZero_ok]
    refine ⟨hz, ?_⟩
    rw [show nibbleOf _ = axis from ha, show BitVec.extractLsb' 0 2 _ = ab from hb, if_pos (of_decide_eq_true hi)]
  | rx port =>
    obtain rfl := Encoded.word.inj h
    obtain ⟨hk, hz, hb⟩ := fields_append_three 0x3#4 0#4 port
    rw [decodeWord_rx hk, requireZero_ok]
    exact ⟨hz, congrArg (Except.ok ∘ Instr.rx) hb⟩
  | ser b =>
    obtain rfl := Encoded.word.inj h
    obtain ⟨hk, hz, hb⟩ := fields_append_three 0x4#4 0#4 b
    rw [decodeWord_ser hk, requireZero_ok]
    exact ⟨hz, congrArg (Except.ok ∘ Instr.ser) hb⟩
  | nvfault copy =>
    obtain rfl := Encoded.word.inj h
    obtain ⟨hk, hz, hc⟩ := fields_append_three 0x5#4 0#10 copy
    rw [decodeWord_nvfault hk, requireZero_ok]
    refine ⟨hz, ?_⟩
    rw [show BitVec.extractLsb' 0 2 _ = copy from hc, if_neg (bne_iff_ne.mp hi)]
  | rdreg addr =>
    obtain rfl := Encoded.word.inj h
    rw [decodeWord_rdreg (extractLsb'_append_high 0x6#4 addr), extractLsb'_append_low]
  | svcEnc | svcRx | svcCfg | reset =>
    obtain rfl := Encoded.word.inj h
    rfl
  | reqRead | reqWrite | reqFinish | handshake => cases h

/-! ## Encodings of either interface -/

/-- A request decodes exactly to the command that its frame holds (R108, R109). -/
theorem decode_request {p : Params} {bs : List Byte} {r : Request} (h : decodeRequest bs = .ok r) :
    decode p (.request bs) = .ok r.toInstr := by
  rw [decode, h]; rfl

/-- Settles O1: a word by its fields, a request by its frame and opcode byte, the handshake by its byte. -/
theorem decodeEncodeRoundTrip : Obligations.DecodeEncodeRoundTrip := by
  intro p i hi
  cases i with
  | reqRead id v =>
    exact decode_request (decodeRequest_frameRequest (of_decide_eq_true hi) (decodeCommand_read id v))
  | reqWrite id v =>
    exact decode_request (decodeRequest_frameRequest (of_decide_eq_true hi) (decodeCommand_write id v))
  | reqFinish v => exact decode_request (decodeRequest_frameRequest (of_decide_eq_true hi) (decodeCommand_finish v))
  | handshake => rfl
  | _ => exact decodeWord_of_encode hi rfl

/-- The opcode byte of a command is the one it was read from (R109). -/
theorem encode_toInstr {op : Byte} {v : List Byte} {r : Request} (h : decodeCommand op v = some r) :
    encode r.toInstr = .request (frameRequest op v) := by
  have read : ∀ op : Byte, op.toNat < 0x10 → 0x0#4 ++ op.extractLsb' 0 4 = op := by decide
  have write : ∀ op : Byte, 0x30 ≤ op.toNat ∧ op.toNat < 0x40 → 0x3#4 ++ op.extractLsb' 0 4 = op := by decide
  rcases decodeCommand_some h with ⟨rfl, rfl⟩ | ⟨hop, rfl⟩ | ⟨hlo, hhi, rfl⟩
  · rfl
  · exact congrArg (fun b => Encoded.request (frameRequest b v)) (read op hop)
  · exact congrArg (fun b => Encoded.request (frameRequest b v)) (write op ⟨hlo, hhi⟩)

/-- A command with at most four value bytes is a well-formed operation (R108). -/
theorem wellFormed_toInstr {op : Byte} {v : List Byte} {r : Request} (p : Params)
    (h : decodeCommand op v = some r) (hv : v.length ≤ 4) : r.toInstr.wellFormed p = true := by
  rcases decodeCommand_some h with ⟨-, rfl⟩ | ⟨-, rfl⟩ | ⟨-, -, rfl⟩ <;> exact decide_eq_true hv

/-- Settles O2: a word is all its fields, a request all the bytes of its frame. -/
theorem encodingsHaveOneMeaning : Obligations.EncodingsHaveOneMeaning := by
  intro p e i h
  cases e with
  | word w => exact encode_of_decodeWord h
  | request bs =>
    rw [decode] at h
    cases hr : decodeRequest bs with
    | error e => rw [hr] at h; cases h
    | ok r =>
      rw [hr] at h
      cases h
      obtain ⟨l, op, v, rfl, hl, hl5, hc⟩ := decodeRequest_ok hr
      exact ⟨wellFormed_toInstr p hc (by omega), (encode_toInstr hc).trans (congrArg _ (frameRequest_eq hl))⟩
  | byte b =>
    rw [decode] at h
    split at h
    · rename_i hb
      cases h
      exact ⟨rfl, congrArg Encoded.byte hb.symm⟩
    · cases h

/-! ## The rows of R105 -/

/-- Every operation's encoding matches the row that stands for it. -/
theorem encoding_matches_row (i : Instr) : Laws.EncodingMatchesRow.Statement i := by
  cases i with
  | tick k => exact Laws.EncodingMatchesRow.tick k
  | enc axis ab => exact Laws.EncodingMatchesRow.enc axis ab
  | rx port => exact Laws.EncodingMatchesRow.rx port
  | ser b => exact Laws.EncodingMatchesRow.ser b
  | nvfault copy => exact Laws.EncodingMatchesRow.nvfault copy
  | rdreg addr => exact Laws.EncodingMatchesRow.rdreg addr
  | svcEnc => exact Laws.EncodingMatchesRow.svcEnc
  | svcRx => exact Laws.EncodingMatchesRow.svcRx
  | svcCfg => exact Laws.EncodingMatchesRow.svcCfg
  | reset => exact Laws.EncodingMatchesRow.reset
  | reqRead id v => exact Laws.EncodingMatchesRow.reqRead id v
  | reqWrite id v => exact Laws.EncodingMatchesRow.reqWrite id v
  | reqFinish v => exact Laws.EncodingMatchesRow.reqFinish v
  | handshake => exact Laws.EncodingMatchesRow.handshake

/-- A word that spells an operation matches that operation's row (R105). -/
theorem row_of_decodeWord {p : Params} {w : OpWord} {i : Instr} (h : decodeWord p w = .ok i) :
    ∃ r ∈ opcodeRows, matchMask i = some r ∧ w &&& r.2 = r.1 := by
  have hrow := encoding_matches_row i
  rwa [Laws.EncodingMatchesRow.Statement, (encode_of_decodeWord h).2] at hrow

/-- A word that matches an ENC row names its KIND and has bits 7:2 zero (R101, R105). -/
theorem enc_fields_of_row {w : OpWord} (h : w &&& 0xF0FC = 0x2000) : kindOf w = 0x2#4 ∧ w.extractLsb' 2 6 = 0 :=
  ⟨extractLsb'_of_masked h rfl, extractLsb'_of_masked h rfl⟩

/-- A word that matches a row and meets R104 spells an operation. -/
theorem decodeWord_of_row {p : Params} {w : OpWord} {r : OpWord × OpWord} (hr : r ∈ opcodeRows)
    (h : w &&& r.2 = r.1) (haxis : w &&& 0xF0FC = 0x2000 → (nibbleOf w).toNat < p.nax) (hcopy : w ≠ 0x5003) :
    ∃ i, decodeWord p w = .ok i := by
  simp only [opcodeRows, List.mem_cons, List.not_mem_nil, or_false] at hr
  rcases hr with rfl | rfl | rfl | rfl | rfl | rfl | rfl | rfl | rfl | rfl
  · exact ⟨_, decodeWord_tick (extractLsb'_of_masked h rfl)⟩
  · obtain ⟨hk, hz⟩ := enc_fields_of_row h
    exact ⟨_, (decodeWord_enc hk).trans (requireZero_ok.mpr ⟨hz, if_pos (haxis h)⟩)⟩
  · exact ⟨_, (decodeWord_rx (extractLsb'_of_masked h rfl)).trans
      (requireZero_ok.mpr ⟨extractLsb'_of_masked h rfl, rfl⟩)⟩
  · exact ⟨_, (decodeWord_ser (extractLsb'_of_masked h rfl)).trans
      (requireZero_ok.mpr ⟨extractLsb'_of_masked h rfl, rfl⟩)⟩
  · have hk : kindOf w = 0x5#4 := extractLsb'_of_masked h rfl
    have hz : w.extractLsb' 2 10 = 0 := extractLsb'_of_masked h rfl
    have hc : w.extractLsb' 0 2 ≠ 3#2 := fun hc => hcopy (append_three_eq (a := 4) (b := 10) (c := 2) hk hz hc).symm
    exact ⟨_, (decodeWord_nvfault hk).trans (requireZero_ok.mpr ⟨hz, if_neg hc⟩)⟩
  · exact ⟨_, decodeWord_rdreg (extractLsb'_of_masked h rfl)⟩
  all_goals
    obtain rfl := (BitVec.and_allOnes (x := w)).symm.trans h
    exact ⟨_, rfl⟩

/-- Settles O3: the rows by their masks, R104's constraints by the decoder's checks after them. -/
theorem wordSelectsItsRow : Obligations.WordSelectsItsRow := by
  refine fun p w => ⟨⟨?spells, ?fromRow⟩, fun i h => ?row⟩
  case spells =>
    rintro ⟨i, h⟩
    obtain ⟨r, hr, -, hw⟩ := row_of_decodeWord h
    refine ⟨⟨r, hr, hw⟩, fun ⟨henc, hax⟩ => ?_, ?_⟩
    · obtain ⟨e, he⟩ := decodeWord_missing_axis (enc_fields_of_row henc).1 hax
      cases he.symm.trans h
    · rintro rfl
      cases h
  case fromRow =>
    rintro ⟨⟨r, hr, hw⟩, haxis, hcopy⟩
    exact decodeWord_of_row hr hw (fun henc => Nat.not_le.mp fun hax => haxis ⟨henc, hax⟩) hcopy
  case row =>
    obtain ⟨r, -, hm, hw⟩ := row_of_decodeWord h
    exact ⟨r, hm, hw⟩

/-! ## Illegal words (R106) -/

/-- A presented word that the decoder refuses has no step (R106). -/
theorem step_of_rejected {s : Machine.State} {w : OpWord} {rest : List OpWord} {e : DecodeError}
    (hp : s.params.legal = true) (hw : s.pending = w :: rest) (he : decodeWord s.params w = .error e) :
    Machine.step s = .refused (.illegalWord e) := by
  have hfetch : s.fetch = some (w, { s with pending := rest }) := by simp only [Machine.State.fetch, hw]
  simp only [Machine.step, if_pos hp, hfetch, decode, he]

/-- Settles O4: each clause is refused by the decoder's check for it. -/
theorem illegalWordHasNoStep : Obligations.IllegalWordHasNoStep := by
  intro s w rest hp hw h
  suffices hdec : ∃ e, decodeWord s.params w = .error e by
    obtain ⟨e, he⟩ := hdec
    exact ⟨e, step_of_rejected hp hw he⟩
  rcases h with hk | ⟨hk, hz⟩ | ⟨hk, hz⟩ | ⟨hk, hz⟩ | ⟨hk, hz⟩ | ⟨hk, hax⟩ | rfl
  · exact ⟨_, decodeWord_reserved hk⟩
  · rw [decodeWord_enc hk]
    exact requireZero_error (.inl hz)
  · simp only [List.mem_cons, List.not_mem_nil, or_false] at hk
    rcases hk with hk | hk
    · rw [decodeWord_rx hk]
      exact requireZero_error (.inl hz)
    · rw [decodeWord_ser hk]
      exact requireZero_error (.inl hz)
  · rw [decodeWord_nvfault hk]
    exact requireZero_error (.inl hz)
  · obtain ⟨i, hi⟩ := isPlainKind_of_mem hk
    rw [decodeWord_plain hi]
    exact requireZero_error (.inl hz)
  · exact decodeWord_missing_axis hk hax
  · exact ⟨_, rfl⟩

/-- Settles O5: the decoder evaluates each. -/
theorem writtenWordsDecode : Obligations.WrittenWordsDecode :=
  ⟨rfl, rfl, rfl, rfl, rfl, rfl, rfl, rfl, rfl, rfl, rfl, rfl, rfl, rfl⟩

end Sys2Proof
end

section
/-! Where an operation is enabled (R107, R281, R284, R312): there it completes, elsewhere it is stuck, and none is
refused. -/

namespace Sys2Proof.Machine

/-! ## The guards -/

/-- SVC.ENC's guard (R281). -/
theorem svcEncEnabled_iff {s : State} : s.svcEncEnabled = true ↔ s.encDue = true ∧ s.mode = .normal := by
  rw [State.svcEncEnabled, Bool.and_eq_true, decide_eq_true_eq]

/-- SVC.RX's guard (R284). -/
theorem svcRxEnabled_iff {s : State} : s.svcRxEnabled = true ↔ s.rxDue = true ∧ s.mode = .normal := by
  rw [State.svcRxEnabled, Bool.and_eq_true, decide_eq_true_eq]

/-- `elapsed` as an integer: NOW less the start, modulo 2^TB (R11, R16, R17). -/
theorem elapsed_cast (s : State) (start : Tick) :
    (s.elapsed start : Int) =
      ((s.ovf * 2 ^ s.params.cb + s.cnt : Int) - start) % 2 ^ (s.params.cb + s.params.ob) := by
  have hpos : (0 : Int) < 2 ^ (s.params.cb + s.params.ob) := by positivity
  rw [State.elapsed, modTB, Params.tb, Int.toNat_of_nonneg (Int.emod_nonneg _ hpos.ne'), State.now]
  push_cast
  rfl

/-- The request timeout (R312, R320). -/
theorem requestTimedOut_iff {s : State} :
    s.requestTimedOut = true ↔ (s.params.serTimeout : Int) ≤
      ((s.ovf * 2 ^ s.params.cb + s.cnt : Int) - s.serLast) % 2 ^ (s.params.cb + s.params.ob) := by
  rw [State.requestTimedOut, decide_eq_true_eq, ← elapsed_cast, Int.ofNat_le]

/-- SVC.CFG's guard (R312). -/
theorem svcCfgEnabled_iff {s : State} :
    s.svcCfgEnabled = true ↔ s.mode = .config ∧ ∃ l rest, s.serRxq = l :: rest ∧
      (l.toNat = 0 ∨ 5 < l.toNat ∨ 1 + l.toNat ≤ s.serRxq.length ∨ s.requestTimedOut = true) := by
  unfold State.svcCfgEnabled
  cases hq : s.serRxq with
  | nil => simp
  | cons l rest => simp [or_assoc]

/-! ## What an operation does where it is enabled, and where it is not -/

/-- RX always completes (R180, R407). -/
theorem execRx_completes (port : Byte) (s : State) : ∃ t, execRx port s = .next t := by
  unfold execRx
  split <;> exact ⟨_, rfl⟩

/-- SER always completes (R310, R407). -/
theorem execSer_completes (b : Byte) (s : State) : ∃ t, execSer b s = .next t := by
  unfold execSer
  split <;> exact ⟨_, rfl⟩

/-- SVC.CFG completes where it is enabled: there is a front byte (R312, R313). -/
theorem execSvcCfg_completes {s : State} (h : s.svcCfgEnabled = true) : ∃ t, execSvcCfg s = .next t := by
  obtain ⟨-, l, rest, hq, -⟩ := svcCfgEnabled_iff.mp h
  simp only [execSvcCfg, if_pos h, hq]
  exact ⟨_, rfl⟩

/-- A well-formed operation completes where it is enabled (R107, R400). -/
theorem exec_of_enabled {s : State} {i : Instr} (hi : i.wellFormed s.params = true) (h : opEnabled s i = true) :
    ∃ t, exec i s = .next t := by
  cases i with
  | tick | rdreg | reset => exact ⟨_, rfl⟩
  | enc axis ab => exact ⟨_, if_pos (of_decide_eq_true hi)⟩
  | rx port => exact execRx_completes port s
  | ser b => exact execSer_completes b s
  | nvfault copy => exact ⟨_, if_neg (bne_iff_ne.mp hi)⟩
  | svcEnc | svcRx => exact ⟨_, if_pos h⟩
  | svcCfg => exact execSvcCfg_completes h
  | reqRead | reqWrite | reqFinish | handshake => exact ⟨_, if_pos (of_decide_eq_true h)⟩

/-- An operation is stuck where it is not enabled (R107, R403). -/
theorem exec_of_not_enabled {s : State} {i : Instr} (h : opEnabled s i = false) : ∃ f, exec i s = .fault f := by
  cases i with
  | tick | enc | rx | ser | nvfault | rdreg | reset => cases h
  | svcEnc | svcRx | svcCfg => exact ⟨_, if_neg (Bool.eq_false_iff.mp h)⟩
  | reqRead | reqWrite | reqFinish | handshake => exact ⟨_, if_neg (of_decide_eq_false h)⟩

/-- Settles O8: `opEnabled` is the condition written out, guard by guard. -/
theorem enabledOperationsComplete : Obligations.EnabledOperationsComplete := by
  intro s i hi enabled
  have henabled : opEnabled s i = true ↔ enabled := by
    cases i with
    | svcEnc => exact svcEncEnabled_iff
    | svcRx => exact svcRxEnabled_iff
    | svcCfg =>
      have hcfg := svcCfgEnabled_iff (s := s)
      simp only [requestTimedOut_iff] at hcfg
      exact hcfg
    | reqRead | reqWrite | reqFinish | handshake => exact decide_eq_true_iff
    | tick | enc | rx | ser | nvfault | rdreg | reset => exact iff_of_true rfl trivial
  exact ⟨fun h => exec_of_enabled hi (henabled.mpr h),
    fun h => exec_of_not_enabled (Bool.eq_false_iff.mpr (mt henabled.mp h)), henabled⟩

end Sys2Proof.Machine
end

section
/-! A WRITE and the READ after it (R110-R112, R313-R315): a record gives back the field set, and the bytes of a
little-endian value are the bytes it came from. -/

namespace Sys2Proof.Machine

/-! ## Little-endian values -/

/-- Byte `k` of a little-endian value (R111). -/
theorem leNat_byte {v : List Byte} {k : Nat} (h : k < v.length) : leNat v / 2 ^ (8 * k) % 256 = v[k].toNat := by
  induction v generalizing k with
  | nil => cases h
  | cons b bs ih =>
    have hb := b.isLt
    rw [leNat]
    cases k with
    | zero => simp; omega
    | succ k =>
      have hshift : (b.toNat + 256 * leNat bs) / 2 ^ (8 * (k + 1)) = leNat bs / 2 ^ (8 * k) := by
        rw [Nat.mul_succ, Nat.add_comm (8 * k), Nat.pow_add, ← Nat.div_div_eq_div_mul]
        congr 1
        omega
      rw [hshift, List.getElem_cons_succ]
      exact ih (Nat.lt_of_succ_lt_succ h)

/-- The bytes of a value of at most four bytes are those it came from (R111, R112). -/
theorem leBytes_leValue {v : List Byte} (h : v.length ≤ 4) : leBytes v.length (leValue v) = v := by
  refine List.ext_getElem (leBytes_length _ _) fun k hk hkv => BitVec.eq_of_toNat_eq ?_
  rw [← leNat_byte hkv, ← leValue_toNat h, ← Nat.shiftRight_eq_div_pow]
  simp [leBytes]

/-! ## One field of a record -/

/-- A value that fits its field is read back from the record it was written to (R315). -/
theorem field_setField_self {r : Record} {a : Nat} {f : Field} {v : Word} (ha : a < r.length)
    (hv : v.toNat < 2 ^ (8 * f.size)) : (r.setField a f v).field a f = v := by
  rw [Record.field, Record.axis_setField_self r f v ha, AxisCfg.get_set_self _ f v hv]

/-! ## Requests -/

/-- The parameter that a valid id names (R110). -/
theorem paramOf_of_valid {p : Params} {id : BitVec 4} {f : Field} (hf : idField id = some f) (ha : idAxis id < p.nax) :
    paramOf p id = some (idAxis id, f) := by
  simp only [paramOf, hf, if_pos ha]

/-- A READ of a parameter, in CONFIG mode (R314). -/
theorem execReqRead_of_param {s : State} {id : BitVec 4} {a : Nat} {f : Field} (hm : s.mode = .config)
    (hp : paramOf s.params id = some (a, f)) : execReqRead id [] s = .next (s.readParam a f) := by
  simp only [execReqRead, if_pos hm, State.runRead, hp, List.length_nil, if_true]

/-- A WRITE of a legal value, in CONFIG mode (R315). -/
theorem execReqWrite_of_param {s : State} {id : BitVec 4} {v : List Byte} {a : Nat} {f : Field}
    (hm : s.mode = .config) (hp : paramOf s.params id = some (a, f)) (hv : v.length = f.size)
    (hl : f.legal s.params.wCap (leValue v) = true) :
    execReqWrite id v s = .next (s.writeParam a f (leValue v)) := by
  simp only [execReqWrite, if_pos hm, State.runWrite, hp, if_pos hv, if_pos hl]

/-- A value has at most four bytes (R111). -/
theorem fieldSize_le (f : Field) : f.size ≤ 4 := by
  cases f <;> decide

/-- Settles O39: the WRITE sets the field of CFG_EDIT that the READ reads. -/
theorem writeThenReadReturnsTheValue : Obligations.WriteThenReadReturnsTheValue := by
  intro s id v f hm hc hf ha hv hl
  have hp : paramOf s.params id = some (idAxis id, f) := paramOf_of_valid hf ha
  have hv4 : v.length ≤ 4 := hv.trans_le (fieldSize_le f)
  have hfits : (leValue v).toNat < 2 ^ (8 * f.size) := by
    rw [leValue_toNat hv4, ← hv]
    exact leNat_lt v
  have hlen : idAxis id < s.cfgEdit.length := (Record.legal_iff.mp hc.2).1.symm ▸ ha
  refine ⟨(s.writeParam (idAxis id) f (leValue v)).readParam (idAxis id) f, ?_, ?_⟩
  · rw [performAll_cons (i := .reqWrite id v) _ (execReqWrite_of_param hm hp hv hl)]
    exact performAll_cons (i := .reqRead id []) [] (execReqRead_of_param hm hp)
  · rw [State.readParam_serTx, State.writeParam_serTx, State.writeParam_cfgEdit, field_setField_self hlen hfits, ← hv,
      leBytes_leValue hv4, List.append_assoc]
    rfl

end Sys2Proof.Machine
end

section
/-! A PULSE (R116): `TICKS n` is n ticks, NOW counts them modulo 2^TB, and in SEQ mode the pair of edges around them
leaves their number in the monitored channel (R181-R186). -/

namespace Sys2Proof.Machine

/-! ## TICKS -/

/-- TICK operations add up (R141). -/
theorem performAll_replicate_tick (n : Nat) (k : BitVec 12) (s : State) :
    performAll (List.replicate n (.tick k)) s = .next (s.tickTimes (n * tickCount k)) := by
  induction n generalizing s with
  | zero => rw [Nat.zero_mul]; rfl
  | succ n ih =>
    have htick : exec (.tick k) s = .next (s.tickTimes (tickCount k)) := rfl
    rw [List.replicate_succ, performAll_cons _ htick, ih, ← tickTimes_add, Nat.succ_mul, Nat.add_comm]

/-- `TICKS n` is n ticks (R116). -/
theorem performAll_ticksOps {n : Nat} (hn : 1 ≤ n) (s : State) : performAll (ticksOps n) s = .next (s.tickTimes n) := by
  have hlast (t : State) : performAll [.tick (BitVec.ofNat 12 ((n - 1) % 4096))] t =
      .next (t.tickTimes ((n - 1) % 4096 + 1)) := by
    have hcount : tickCount (BitVec.ofNat 12 ((n - 1) % 4096)) = (n - 1) % 4096 + 1 := by
      rw [tickCount, BitVec.toNat_ofNat, Nat.mod_mod]
    rw [← hcount]
    rfl
  have hall : (n - 1) / 4096 * tickCount 0xFFF#12 + ((n - 1) % 4096 + 1) = n := by
    rw [show tickCount 0xFFF#12 = 4096 from rfl]
    omega
  rw [ticksOps, performAll_append, performAll_replicate_tick]
  exact (hlast _).trans (by rw [← tickTimes_add, hall])

/-! ## NOW -/

/-- A tick advances NOW modulo 2^TB (R16, R140). -/
theorem tickOnce_now {s : State} (h : TimerInv s) : s.tickOnce.now = (s.now + 1) % 2 ^ s.params.tb := by
  have hinv := tickOnce_timer h
  rw [State.tickOnce, counterWraps_eq h.1] at hinv ⊢
  split at hinv <;> rename_i hw
  · have hcnt := of_decide_eq_true hw
    rw [if_pos hw, State.now, State.now, Nat.add_assoc, hcnt, ← Nat.succ_mul, Params.tb, Nat.add_comm s.params.cb,
      Nat.pow_add, Nat.mul_mod_mul_right]
    rfl
  · rw [if_neg hw]
    have hlt : (s.cnt + 1) % 2 ^ s.params.cb = s.cnt + 1 :=
      Nat.mod_eq_of_lt (lt_of_le_of_ne h.1 (fun he => hw (decide_eq_true he)))
    have hnow : s.countTick.now = s.now + 1 := by
      rw [State.now, State.now, State.countTick_cnt, hlt]
      rfl
    rw [hnow, Nat.mod_eq_of_lt (hnow ▸ now_lt hinv)]

/-- Ticks leave the receiver (R410). -/
theorem tickTimes_receiver (n : Nat) (s : State) :
    (s.tickTimes n).params = s.params ∧ (s.tickTimes n).chans = s.chans ∧ (s.tickTimes n).rxPrev = s.rxPrev ∧
      (s.tickTimes n).rxPv = s.rxPv ∧ (s.tickTimes n).rxMux = s.rxMux := by
  have hf := (tickTimes_frame n s).1
  exact ⟨(congrArg State.params hf :), (congrArg State.chans hf :), (congrArg State.rxPrev hf :),
    (congrArg State.rxPv hf :), (congrArg State.rxMux hf :)⟩

/-- Ticks advance NOW by their number modulo 2^TB. -/
theorem tickTimes_now (n : Nat) {s : State} (h : TimerInv s) :
    (s.tickTimes n).now = (s.now + n) % 2 ^ s.params.tb := by
  induction n generalizing s with
  | zero => exact (Nat.mod_eq_of_lt (now_lt h)).symm
  | succ n ih =>
    have hp : s.tickOnce.params = s.params := (tickTimes_receiver 1 s).1
    rw [tickTimes_succ, ih (tickOnce_timer h), hp, tickOnce_now h, Nat.mod_add_mod, Nat.add_right_comm, Nat.add_assoc]

/-- The ticks between a start and NOW are counted modulo 2^TB (R11, R186). -/
theorem modTB_sub (p : Params) (start d : Nat) :
    modTB p (((start + d) % 2 ^ p.tb : Nat) - (start : Int)) = d % 2 ^ p.tb := by
  have hmod : (((start + d) % 2 ^ p.tb : Nat) - (start : Int)) % 2 ^ p.tb = (d % 2 ^ p.tb : Nat) := by
    push_cast
    rw [Int.emod_sub_emod, add_sub_cancel_left]
  rw [modTB, hmod, Int.toNat_natCast]

/-! ## Edges of a pulse -/

/-- The bits of a port value with one more set. -/
theorem getLsbD_or_bit (port : Byte) {b : Nat} (hb : b < 8) (j : Nat) :
    (port ||| 1#8 <<< b).getLsbD j = (port.getLsbD j || decide (j = b)) := by
  rw [BitVec.getLsbD_or, BitVec.getLsbD_shiftLeft, BitVec.getLsbD_one]
  congr 1
  grind

/-- Setting a clear bit is a rising edge of it, clearing it again a falling edge, with which no bit rises. -/
theorem pulse_edges {port : Byte} {b : Nat} (hb : b < 8) (hlow : port.getLsbD b = false) :
    rises port (port ||| 1#8 <<< b) b = true ∧ falls (port ||| 1#8 <<< b) port b = true ∧
      ∀ j, rises (port ||| 1#8 <<< b) port j = false := by
  refine ⟨?_, ?_, fun j => ?_⟩
  · rw [rises, getLsbD_or_bit port hb, hlow, decide_eq_true rfl]
    rfl
  · rw [falls, getLsbD_or_bit port hb, hlow, decide_eq_true rfl]
    rfl
  · rw [rises, getLsbD_or_bit port hb]
    cases port.getLsbD j with
    | false => exact Bool.and_false _
    | true => rfl

/-- No channel bit is above 7 (R8). -/
theorem chBitOf_lt {p : Params} (h : p.legal = true) (c : Nat) : p.chBitOf c < 8 := by
  simp only [Params.legal, Params.legalReceiver, Bool.and_eq_true, List.all_eq_true, decide_eq_true_eq] at h
  have hall : ∀ b ∈ p.chBit, b < 8 := by tauto
  rw [Params.chBitOf, List.getD_eq_getElem?_getD]
  cases hc : p.chBit[c]? with
  | none => exact Nat.succ_pos 7
  | some b => exact hall b (List.mem_of_getElem? hc)

/-- The state after a sample in which the monitored channel's pair starts (R181). -/
def State.startPair (s : State) (port : Byte) : State := { s.rxRise s.rxMux with rxPrev := port }

/-- The state after a sample in which it ends, and no other starts (R181, R184). -/
def State.endPair (s : State) (port : Byte) : State :=
  { s.rxFall s.rxMux with rxMux := (s.rxMux + 1) % s.params.nch, rxPrev := port }

/-- In SEQ mode a rising edge of the monitored bit starts its pair (R180, R181). -/
theorem execRx_rise {s : State} {port : Byte} (hpv : s.rxPv = true) (hseq : s.params.rxMode = .seq)
    (hr : rises s.rxPrev port (s.params.chBitOf s.rxMux) = true) :
    execRx port s = .next (s.startPair port) := by
  simp only [State.startPair, execRx, if_pos hpv, State.rxEdges, hseq, State.rxSeq, if_pos hr]

/-- In SEQ mode a falling edge of the monitored bit, where no bit rises, completes its pair and moves on (R181,
R184). -/
theorem execRx_fall {s : State} {port : Byte} (hpv : s.rxPv = true) (hseq : s.params.rxMode = .seq)
    (hr : ∀ b, rises s.rxPrev port b = false) (hf : falls s.rxPrev port (s.params.chBitOf s.rxMux) = true) :
    execRx port s = .next (s.endPair port) := by
  simp only [State.endPair, execRx, if_pos hpv, State.rxEdges, hseq, State.rxSeq, hr, if_pos hf, Bool.false_eq_true,
    if_false]

/-- The monitored channel after a rise, ticks and a fall. -/
theorem chans_rise_fall {cs : List Channel} {c : Nat} (hc : c < cs.length) (start stop : Tick) :
    ∃ y, ((cs.modify c fun x => { x with rxStart := start }).modify c
        fun x => { x with rxEnd := stop, rxUpd := true })[c]? = some y ∧
      y.rxUpd = true ∧ y.rxStart = start ∧ y.rxEnd = stop := by
  rw [List.getElem?_modify, List.getElem?_modify, List.getElem?_eq_getElem hc]
  simp

/-- Settles O24: the rise starts the pair at NOW, the ticks advance NOW, and the fall ends the pair there. No bit rises
with the fall, so the next channel does not start. -/
theorem pulseIsTimedInTicks : Obligations.PulseIsTimedInTicks := by
  intro s w hp ht hw hpv hseq hmux hchans hlow
  generalize hport : s.rxPrev ||| 1#8 <<< s.params.chBitOf s.rxMux = port
  obtain ⟨hrise, hfall, hnone⟩ := hport ▸ pulse_edges (chBitOf_lt hp s.rxMux) hlow
  obtain ⟨hp2, hc2, hprev2, hpv2, hmux2⟩ := tickTimes_receiver w (s.startPair port)
  have hnow2 : ((s.startPair port).tickTimes w).now = (s.now + w) % 2 ^ s.params.tb :=
    tickTimes_now w (s := s.startPair port) ht
  have hend : execRx s.rxPrev ((s.startPair port).tickTimes w) =
      .next (((s.startPair port).tickTimes w).endPair s.rxPrev) :=
    execRx_fall (hpv2.trans hpv) (hp2 ▸ hseq) (hprev2 ▸ hnone) (by rw [hprev2, hp2, hmux2]; exact hfall)
  obtain ⟨y, hy, hupd, hstart, hstop⟩ :=
    chans_rise_fall (hchans ▸ hmux : s.rxMux < s.chans.length) s.now ((s.startPair port).tickTimes w).now
  refine ⟨((s.startPair port).tickTimes w).endPair s.rxPrev, y, ?run, ?chan, hupd, ?width, ?mux, rfl, rfl⟩
  case run =>
    rw [pulseOps, hport, performAll_cons (i := .rx port) _ (execRx_rise hpv hseq hrise), performAll_append,
      performAll_ticksOps hw]
    exact performAll_cons (i := .rx s.rxPrev) [] hend
  case chan =>
    show (((s.startPair port).tickTimes w).rxFall ((s.startPair port).tickTimes w).rxMux).chans[s.rxMux]? = some y
    rw [State.rxFall_chans, hmux2, hc2]
    exact hy
  case width =>
    rw [Channel.width, hstart, hstop, hnow2]
    exact modTB_sub s.params s.now w
  case mux =>
    show (((s.startPair port).tickTimes w).rxMux + 1) % ((s.startPair port).tickTimes w).params.nch = _
    rw [hmux2, hp2]
    rfl

end Sys2Proof.Machine
end

section
/-! TICK in closed form (R140, R141, R403): what one tick does to the counters, what `w` counter wraps do to a prescaler
and its flag, and so what `n` ticks do to the timer. -/

namespace Sys2Proof.Machine

/-! ## One tick -/

/-- A counter below its modulus counts up, and returns to 0 from its last value. -/
theorem add_one_mod_of_lt {a m : Nat} (h : a < m) : (a + 1) % m = if a + 1 = m then 0 else a + 1 := by
  split
  · rw [‹a + 1 = m›, Nat.mod_self]
  · exact Nat.mod_eq_of_lt (by omega)

/-- One count of a prescaler as a 16-bit value. -/
theorem prescale_eq (pre : BitVec 16) (limit : Nat) :
    prescale pre limit = if pre.toNat + 1 = limit then 0 else BitVec.ofNat 16 (pre.toNat + 1) := by
  rw [prescale, BitVec.ofNat_add, BitVec.ofNat_toNat, BitVec.setWidth_eq]
  rfl

/-- A frame flag rises at the prescaler's match and never falls (R33, R140). -/
theorem raiseDue_eq (due : Bool) (pre : BitVec 16) (limit : Nat) :
    raiseDue due pre limit = if pre.toNat + 1 = limit then true else due := by
  rw [raiseDue]
  split <;> simp [*]

/-- At the last value of CNT a tick wraps it (R140). -/
theorem tickOnce_of_last {s : State} (h : s.cnt + 1 = 2 ^ s.params.cb) : s.tickOnce = s.wrapTick := by
  rw [State.tickOnce, State.counterWraps, h, Nat.mod_self, decide_eq_true rfl, if_pos rfl]

/-- Below it a tick only counts (R140). -/
theorem tickOnce_of_lt {s : State} (h : s.cnt + 1 < 2 ^ s.params.cb) : s.tickOnce = { s with cnt := s.cnt + 1 } := by
  rw [State.tickOnce, counterWraps_eq (by omega), decide_eq_false h.ne, if_neg Bool.false_ne_true, State.countTick,
    Nat.mod_eq_of_lt h]

/-- Settles O10, by whether CNT is at its last value. -/
theorem singleTickCounts : Obligations.SingleTickCounts := by
  rintro s - ⟨hcnt, hovf, -, -⟩
  show Host.Outcome.next s.tickOnce = _
  split
  · rw [tickOnce_of_last ‹_›, State.wrapTick, add_one_mod_of_lt hovf]
    simp only [prescale_eq, raiseDue_eq]
  · rw [tickOnce_of_lt (by omega)]

/-- Settles O9: both sides are as many ticks in sequence. -/
theorem tickRepeatsSingleTicks : Obligations.TickRepeatsSingleTicks := by
  have hsingle (n : Nat) (s : State) : performAll (List.replicate n (.tick 0)) s = .next (s.tickTimes n) := by
    rw [performAll_replicate_tick, show tickCount 0 = 1 from rfl, Nat.mul_one]
  exact fun s => ⟨fun k => (hsingle _ s).symm, fun n hn => (performAll_ticksOps hn s).trans (hsingle n s).symm⟩

/-! ## A prescaler after counter wraps -/

/-- A prescaler with this limit stands at `pre'` and its flag at `due'`, `w` counter wraps after `pre` and `due`: it
advanced modulo its limit, or modulo 2^16 where the limit is larger, and the flag rose if it reached the limit. -/
structure Prescaled (limit : Nat) (pre : BitVec 16) (due : Bool) (w : Nat) (pre' : BitVec 16) (due' : Bool) : Prop where
  count : pre'.toNat = (pre.toNat + w) % min limit 65536
  flag : due' = true ↔ due = true ∨ (limit ≤ pre.toNat + w ∧ limit ≤ 65536)

/-- Before the first wrap nothing has moved. -/
theorem Prescaled.zero {limit : Nat} {pre : BitVec 16} (due : Bool) (h : pre.toNat < limit) :
    Prescaled limit pre due 0 pre due where
  count := (Nat.mod_eq_of_lt (lt_min h pre.isLt)).symm
  flag := (or_iff_left (by omega)).symm

/-- One more wrap: the flag rises exactly where the count modulo the limit was at its last value, which a limit above
65536 does not have. -/
theorem Prescaled.succ {limit w : Nat} {pre pre' : BitVec 16} {due due' : Bool}
    (h : Prescaled limit pre due w pre' due') (hlt : pre'.toNat < limit) :
    Prescaled limit pre due (w + 1) (prescale pre' limit) (raiseDue due' pre' limit) where
  count := by rw [prescale_toNat hlt, h.count, Nat.mod_add_mod, Nat.add_assoc]
  flag := by
    have hmatch : limit ≤ pre.toNat + w ∧ limit ≤ 65536 ∨ pre'.toNat + 1 = limit ↔
        limit ≤ pre.toNat + (w + 1) ∧ limit ≤ 65536 := by
      have hcount := h.count
      have hbits := pre'.isLt
      rcases Nat.le_total limit 65536 with hl | hl
      · rw [Nat.min_eq_left hl] at hcount
        have hle := Nat.mod_le (pre.toNat + w) limit
        have hself : pre.toNat + w < limit → (pre.toNat + w) % limit = pre.toNat + w := Nat.mod_eq_of_lt
        omega
      · rw [Nat.min_eq_right hl] at hcount
        omega
    rw [raiseDue, Bool.or_eq_true, decide_eq_true_eq, h.flag, or_assoc, hmatch]

/-! ## Many ticks -/

/-- Quotient and remainder of the next number, where the remainder is at its last value. -/
theorem div_mod_succ_of_last {a m : Nat} (h : a % m + 1 = m) : (a + 1) / m = a / m + 1 ∧ (a + 1) % m = 0 := by
  have hsum := Nat.mod_add_div a m
  rw [Nat.div_mod_unique (by omega), Nat.mul_succ]
  omega

/-- Quotient and remainder of the next number, where the remainder is not at its last value. -/
theorem div_mod_succ_of_lt {a m : Nat} (h : a % m + 1 < m) : (a + 1) / m = a / m ∧ (a + 1) % m = a % m + 1 := by
  have hsum := Nat.mod_add_div a m
  rw [Nat.div_mod_unique (by omega)]
  omega

/-- The timer of `t` is that of `s` after `n` ticks: CNT and OVF count on modulo their widths, and each prescaler and
its flag count the wraps of CNT (R140, R141). -/
structure State.Ticked (s : State) (n : Nat) (t : State) : Prop where
  cnt : t.cnt = (s.cnt + n) % 2 ^ s.params.cb
  ovf : t.ovf = (s.ovf + (s.cnt + n) / 2 ^ s.params.cb) % 2 ^ s.params.ob
  enc : Prescaled s.params.encFrameOvf s.encPre s.encDue ((s.cnt + n) / 2 ^ s.params.cb) t.encPre t.encDue
  rx : Prescaled s.params.rxFrameOvf s.rxPre s.rxDue ((s.cnt + n) / 2 ^ s.params.cb) t.rxPre t.rxDue

/-- One more tick, by whether it wraps CNT. -/
theorem State.Ticked.succ {s t : State} {n : Nat} (h : s.Ticked n t) (hp : t.params = s.params) (ht : TimerInv t) :
    s.Ticked (n + 1) t.tickOnce := by
  obtain ⟨hcnt, hovf, henc, hrx⟩ := h
  obtain ⟨hc, -, he, hr⟩ := ht
  rw [hp] at he hr
  by_cases hw : t.cnt + 1 = 2 ^ t.params.cb
  · obtain ⟨hdiv, hmod⟩ := div_mod_succ_of_last (a := s.cnt + n) (hcnt ▸ hp ▸ hw)
    rw [tickOnce_of_last hw]
    constructor <;> rw [← Nat.add_assoc s.cnt]
    · rw [hmod, State.wrapTick_cnt]
    · rw [hdiv, State.wrapTick_ovf, hp, hovf, Nat.mod_add_mod, Nat.add_assoc]
    · rw [hdiv, State.wrapTick_encPre, State.wrapTick_encDue, hp]
      exact henc.succ he
    · rw [hdiv, State.wrapTick_rxPre, State.wrapTick_rxDue, hp]
      exact hrx.succ hr
  · have hlt : t.cnt + 1 < 2 ^ t.params.cb := by omega
    obtain ⟨hdiv, hmod⟩ := div_mod_succ_of_lt (a := s.cnt + n) (hcnt ▸ hp ▸ hlt)
    rw [tickOnce_of_lt hlt]
    constructor <;> rw [← Nat.add_assoc s.cnt]
    · rw [hmod, ← hcnt]
    · rwa [hdiv]
    · rwa [hdiv]
    · rwa [hdiv]

/-- `n` ticks in closed form. -/
theorem tickTimes_ticked (n : Nat) {s : State} (hs : TimerInv s) : s.Ticked n (s.tickTimes n) := by
  induction n with
  | zero =>
    obtain ⟨hc, ho, he, hr⟩ := hs
    have hnone : (s.cnt + 0) / 2 ^ s.params.cb = 0 := Nat.div_eq_of_lt hc
    constructor
    · exact (Nat.mod_eq_of_lt hc).symm
    · rw [hnone]
      exact (Nat.mod_eq_of_lt ho).symm
    · rw [hnone]
      exact .zero _ he
    · rw [hnone]
      exact .zero _ hr
  | succ n ih =>
    rw [tickTimes_add n 1, tickTimes_succ 0]
    exact ih.succ (tickTimes_receiver n s).1 (tickTimes_timer n hs)

/-- Settles O11: TICK's ticks in closed form, with NOW and the frame as `tickTimes_now` and `tickTimes_frame` give
them. -/
theorem tickClosedForm : Obligations.TickClosedForm := by
  intro k s _ hs
  obtain ⟨hcnt, hovf, ⟨henc, hencDue⟩, ⟨hrx, hrxDue⟩⟩ := tickTimes_ticked (k.toNat + 1) hs
  exact ⟨s.tickTimes (tickCount k), rfl, hcnt, hovf, tickTimes_now _ hs, tickTimes_timer _ hs, henc, hencDue, hrx,
    hrxDue, (tickTimes_frame _ s).1⟩

end Sys2Proof.Machine
end

section
/-! Encoder samples (R143-R147): what one sample does to its axis, a sequence of samples of one axis, and under QUAD the
travel along the Gray sequence that it counts. -/

namespace Sys2Proof.Machine

/-! ## One sample -/

/-- Adding to a stored number and wrapping is adding the wrapped amount (R11). -/
theorem ofInt_toInt_add {n : Nat} (a : BitVec n) (v : Int) : BitVec.ofInt n (a.toInt + v) = a + BitVec.ofInt n v := by
  rw [BitVec.ofInt_add, BitVec.ofInt_toInt]

/-- ENC of an axis that is there samples it (R143). -/
theorem exec_enc {axis : BitVec 4} {s : State} {x : Axis} (ab : BitVec 2) (ha : axis.toNat < s.params.nax)
    (hx : s.axes[axis.toNat]? = some x) :
    exec (.enc axis ab) s = .next { s with axes := s.axes.set axis.toNat (x.sample s.params.encPolicy ab) } := by
  rw [← modify_eq_set (fun y : Axis => y.sample s.params.encPolicy ab) hx]
  exact if_pos ha

/-- The changed inputs of an encoder, counted (R12, R143). -/
theorem popcount_two (v : BitVec 2) : popcount v = (v.getLsbD 0).toNat + (v.getLsbD 1).toNat := by
  revert v
  decide

/-- Settles O12, by the first sample or a later one, and there by the policy. -/
theorem encCountsTheSample : Obligations.EncCountsTheSample := by
  intro axis ab s x ha hx
  rw [exec_enc ab ha hx, Axis.sample]
  cases x.encPv with
  | false => rfl
  | true =>
    cases s.params.encPolicy with
    | quad => rfl
    | inc =>
      rw [encDelta, popcount_two]
      rfl

/-! ## The Gray sequence -/

/-- Settles O13: the table has 16 entries. -/
theorem quadratureTableIsGrayCode : Obligations.QuadratureTableIsGrayCode := by
  unfold Obligations.QuadratureTableIsGrayCode
  decide

/-- What QDEC adds up to along a sequence of samples from state `q` (R144). -/
def travel : BitVec 2 → List (BitVec 2) → Int
  | _, [] => 0
  | q, ab :: qs => qdec q ab + travel ab qs

/-- A step and its reverse, or a change of both inputs and back, travel nowhere (R145). -/
theorem travel_back (q ab : BitVec 2) : travel q [ab, q] = 0 := by
  revert q ab
  decide

/-- The state after `q` in the Gray sequence 00, 01, 11, 10 (R144). -/
def grayNext (q : BitVec 2) : BitVec 2 := if q = 0 then 1#2 else if q = 1 then 3#2 else if q = 3 then 2#2 else 0#2

/-- Once around the Gray sequence, from any state, is four steps forward (R144, R145). -/
theorem travel_around (q : BitVec 2) :
    travel q [grayNext q, grayNext (grayNext q), grayNext (grayNext (grayNext q)), q] = 4 := by
  revert q
  decide

/-! ## Sequences of samples -/

/-- Writing the element that is there changes nothing. -/
theorem set_of_getElem? {α : Type} {l : List α} {n : Nat} {x : α} (h : l[n]? = some x) : l.set n x = l := by
  obtain ⟨hn, rfl⟩ := List.getElem?_eq_some_iff.mp h
  exact List.set_getElem_self hn

/-- Samples of one axis, one after the other, leave the rest of the block. -/
theorem performAll_samples {axis : BitVec 4} (qs : List (BitVec 2)) {s : State} {x : Axis}
    (ha : axis.toNat < s.params.nax) (hx : s.axes[axis.toNat]? = some x) :
    performAll (qs.map (.enc axis)) s =
      .next { s with axes := s.axes.set axis.toNat (qs.foldl (fun y ab => y.sample s.params.encPolicy ab) x) } := by
  induction qs generalizing s x with
  | nil =>
    rw [List.foldl_nil, set_of_getElem? hx]
    rfl
  | cons ab qs ih =>
    have hx' : (s.axes.set axis.toNat (x.sample s.params.encPolicy ab))[axis.toNat]? =
        some (x.sample s.params.encPolicy ab) := List.getElem?_set_self (List.getElem?_eq_some_iff.mp hx).1
    rw [List.map_cons, performAll_cons _ (exec_enc ab ha hx),
      ih (s := { s with axes := s.axes.set axis.toNat (x.sample s.params.encPolicy ab) }) ha hx', List.set_set,
      List.foldl_cons]

/-- Under QUAD a later sample counts QDEC modulo 2^16 (R143, R147). -/
theorem sample_quad (ab : BitVec 2) {x : Axis} (hpv : x.encPv = true) :
    x.sample .quad ab = { x with encCount := x.encCount + BitVec.ofInt 16 (qdec x.encPrev ab), encPrev := ab } := by
  rw [Axis.sample, if_pos hpv, encDelta, wrap16, ofInt_toInt_add]

/-- Under QUAD an axis that has seen a sample counts the travel modulo 2^16, and ends at the last sample (R143,
R147). -/
theorem foldl_sample_quad (qs : List (BitVec 2)) {x : Axis} (hpv : x.encPv = true) :
    qs.foldl (fun y ab => y.sample .quad ab) x =
      { x with
        encCount := x.encCount + BitVec.ofInt 16 (travel x.encPrev qs)
        encPrev := qs.getLastD x.encPrev } := by
  induction qs generalizing x with
  | nil => simp [travel]
  | cons ab qs ih =>
    have hstep := sample_quad ab hpv
    have hpv' : (x.sample .quad ab).encPv = true := by rw [hstep, hpv]
    rw [List.foldl_cons, ih hpv', hstep, travel, BitVec.ofInt_add, ← BitVec.add_assoc, List.getLastD_cons]

/-- Under QUAD, samples that end at the state they began from change ENC_COUNT only, by their travel. -/
theorem performAll_loop_quad {axis : BitVec 4} {qs : List (BitVec 2)} {s : State} {x : Axis} {v : Int}
    (ha : axis.toNat < s.params.nax) (hx : s.axes[axis.toNat]? = some x) (hquad : s.params.encPolicy = .quad)
    (hpv : x.encPv = true) (hlast : qs.getLastD x.encPrev = x.encPrev) (htravel : travel x.encPrev qs = v) :
    performAll (qs.map (.enc axis)) s =
      .next { s with axes := s.axes.set axis.toNat { x with encCount := x.encCount + BitVec.ofInt 16 v } } := by
  rw [performAll_samples qs ha hx, hquad, foldl_sample_quad qs hpv, hlast, htravel]

/-- Settles O14: there and back travels 0, once around travels 4, and both end where they began. -/
theorem quadratureStepsReverse : Obligations.QuadratureStepsReverse := by
  intro axis s x ha hx hquad hpv
  constructor
  · intro ab
    refine (performAll_loop_quad (qs := [ab, x.encPrev]) ha hx hquad hpv rfl (travel_back _ _)).trans ?_
    have hcount : x.encCount + BitVec.ofInt 16 0 = x.encCount := BitVec.add_zero _
    rw [hcount, set_of_getElem? hx]
  · exact performAll_loop_quad (qs := [_, _, _, _]) ha hx hquad hpv rfl (travel_around x.encPrev)

end Sys2Proof.Machine
end

section
/-! SVC.ENC's frame of an axis (R148-R150, R252-R255): the drain, the speed, and the PID terms as sums modulo 2^32. -/

namespace Sys2Proof.Machine

/-! ## Stored words -/

/-- Adding to a stored word and wrapping is adding the wrapped amount (R11, R260). -/
theorem wrap32_add (a : Word) (v : Int) : wrap32 (a.toInt + v) = a + BitVec.ofInt 32 v := ofInt_toInt_add a v

/-- A difference of stored words (R252). -/
theorem wrap32_sub (a b : Word) : wrap32 (a.toInt - b.toInt) = a - b := by
  rw [Int.sub_eq_add_neg, wrap32_add, BitVec.ofInt_neg, BitVec.ofInt_toInt, BitVec.sub_eq_add_neg]

/-- A shift is a division that rounds down (R12, R253, R254). -/
theorem scaled_eq (p : Params) (gain err : Word) :
    scaled p gain err = Int.fdiv (gain.toInt * err.toInt) (2 ^ p.sfrac) :=
  (Int.fdiv_eq_ediv_of_nonneg _ (by positivity)).symm

/-! ## The axes of a frame -/

/-- An enabled SVC.ENC completes, clears ENC_DUE and does every axis's frame (R281, R282). -/
theorem exec_svcEnc {s : State} (hdue : s.encDue = true) (hmode : s.mode = .normal) :
    ∃ t, exec .svcEnc s = .next t ∧ t.encDue = false ∧
      t.axes = s.axes.mapIdx (fun a x => x.frame s.params (s.axisCfg a)) := by
  obtain ⟨q, m, r, hcheck, -⟩ := handshakeCheck_frame { s with encDue := false }.encFrame.dispatchMotors
  exact ⟨_, if_pos (svcEncEnabled_iff.mpr ⟨hdue, hmode⟩), (congrArg State.encDue hcheck :),
    (congrArg State.axes hcheck :)⟩

/-- An axis after every axis's frame is that axis's frame. -/
theorem getElem?_of_frames {s t : State} {a : Nat} {x : Axis}
    (ht : t.axes = s.axes.mapIdx (fun a x => x.frame s.params (s.axisCfg a))) (hx : s.axes[a]? = some x) :
    t.axes[a]? = some (x.frame s.params (s.axisCfg a)) := by
  rw [ht, List.getElem?_mapIdx, hx]
  rfl

/-! ## Drain and speed -/

/-- ENC_SUM after a drain, as words: the evicted count leaves, the new one enters (R148). -/
theorem drain_encSum_words (x : Axis) (w : Nat) :
    (x.drain w).encSum = x.encSum - (x.encWin.getD x.encIdx 0).signExtend 32 + x.encCount.signExtend 32 := by
  rw [Axis.drain_encSum, Int.sub_eq_add_neg, Int.add_assoc, wrap32_add, BitVec.ofInt_add, BitVec.ofInt_neg,
    ← BitVec.add_assoc, BitVec.sub_eq_add_neg]
  rfl

/-- The axis as the PID step of its frame finds it: drained, and its speed measured (R282). -/
def Axis.sensed (x : Axis) (p : Params) (g : AxisCfg) : Axis := (x.drain g.ewin.toNat).updateSpeed p g.ewin.toNat

/-- A frame is the PID step of the sensed axis (R282). -/
theorem frame_eq (x : Axis) (p : Params) (g : AxisCfg) :
    x.frame p g = (x.sensed p g).pidStep p g ((x.sensed p g).measured p.encPolicy) := rfl

/-- The PID step leaves the drained count and the measured speed. -/
theorem frame_senses (x : Axis) (p : Params) (g : AxisCfg) :
    (x.frame p g).encCount = 0 ∧ (x.frame p g).encSpeed = (x.sensed p g).encSpeed := by
  rw [frame_eq]
  rcases pidStep_cases (x.sensed p g) p g ((x.sensed p g).measured p.encPolicy) with ⟨-, h⟩ | ⟨-, h⟩ <;> rw [h]
  · exact ⟨rfl, rfl⟩
  · exact ⟨rfl, rfl⟩

/-- Settles O15: the window as `frame_window` gives it, the count and the speed as the PID step leaves them. -/
theorem svcEncDrainsAndMeasures : Obligations.SvcEncDrainsAndMeasures := by
  intro s hdue hmode
  obtain ⟨t, hrun, hclear, haxes⟩ := exec_svcEnc hdue hmode
  refine ⟨t, hrun, hclear, haxes ▸ List.length_mapIdx, fun a x hx => ⟨_, getElem?_of_frames haxes hx, ?_⟩⟩
  obtain ⟨hwin, hidx, hsum, -⟩ := frame_window x s.params (s.axisCfg a)
  obtain ⟨hcount, hspeed⟩ := frame_senses x s.params (s.axisCfg a)
  refine ⟨hcount, hsum.trans (drain_encSum_words x _), hwin, hidx, ?_⟩
  rw [hspeed, hsum]
  rfl

/-! ## The PID terms -/

/-- The measured speed takes the target's sign under INC (R150). -/
theorem measured_eq (x : Axis) (policy : EncPolicy) :
    x.measured policy = if policy = .inc ∧ x.pidTgt.toInt < 0 then -x.encSpeed else x.encSpeed := by
  cases policy with
  | quad => rfl
  | inc =>
    rw [Axis.measured, wrap32, BitVec.ofInt_neg, BitVec.ofInt_toInt]
    by_cases h : x.pidTgt.toInt < 0
    · rw [if_neg (by omega), if_pos ⟨rfl, h⟩]
    · rw [if_pos (by omega), if_neg (fun hc => h hc.2)]

/-- PID_INT gains its term (R253). -/
theorem nextInt_eq (x : Axis) (p : Params) (g : AxisCfg) (e : Word) :
    x.nextInt p g e =
      x.pidInt + BitVec.ofInt 32 (Int.tdiv (Int.fdiv (g.ki.toInt * e.toInt) (2 ^ p.sfrac)) p.intDiv) := by
  rw [Axis.nextInt, wrap32_add, scaled_eq, tdiv]

/-- PID_OUT gains its three terms (R254). -/
theorem nextOut_eq (x : Axis) (p : Params) (g : AxisCfg) (e d : Word) :
    x.nextOut p g e d = x.pidOut + BitVec.ofInt 32 (Int.fdiv (g.kp.toInt * e.toInt) (2 ^ p.sfrac)) + x.nextInt p g e +
      BitVec.ofInt 32 (Int.fdiv (g.kd.toInt * d.toInt) (2 ^ p.sfrac)) := by
  simp only [Axis.nextOut, wrap32_add, scaled_eq, BitVec.ofInt_toInt]

/-- The frame of an axis with a nonzero target: the error of the speed it measures, and the accumulated terms
(R252-R255). -/
theorem frame_drives {x : Axis} (p : Params) (g : AxisCfg) (h : x.pidTgt ≠ 0) :
    let y := x.frame p g
    let e := x.pidTgt - (if p.encPolicy = .inc ∧ x.pidTgt.toInt < 0 then -y.encSpeed else y.encSpeed)
    y.pidLast = e ∧ y.pidInt = x.nextInt p g e ∧ y.pidOut = x.nextOut p g e (e - x.pidLast) ∧ y.pidTgt = x.pidTgt := by
  have hframe : x.frame p g = (x.sensed p g).pidDrive p g ((x.sensed p g).measured p.encPolicy) := if_neg h
  simp only [hframe, Axis.pidDrive_pidLast, Axis.pidDrive_pidInt, Axis.pidDrive_pidOut, Axis.pidDrive_pidTgt,
    Axis.pidDrive_encSpeed, wrap32_sub, measured_eq]
  exact ⟨rfl, rfl, rfl, rfl⟩

/-- Settles O17: each axis's frame, with its terms as `nextInt_eq` and `nextOut_eq` give them. -/
theorem svcEncPidAccumulates : Obligations.SvcEncPidAccumulates := by
  intro s hdue hmode
  obtain ⟨t, hrun, -, haxes⟩ := exec_svcEnc hdue hmode
  refine ⟨t, hrun, fun a x hx htgt => ⟨_, getElem?_of_frames haxes hx, ?_⟩⟩
  obtain ⟨hlast, hint, hout, hkeep⟩ := frame_drives s.params (s.axisCfg a) htgt
  refine ⟨hlast, ?_, ?_, hkeep⟩
  · rw [hint, nextInt_eq]
  · rw [hout, nextOut_eq, hint]

end Sys2Proof.Machine
end

section
/-! Edges of the receiver port (R180-R186): what an edge makes of its channel, and both wirings in closed form. -/

namespace Sys2Proof.Machine

/-! ## Widths and the first sample -/

/-- Settles O23: the ticks between the edges are counted modulo 2^TB. -/
theorem pulseWidthSurvivesWrap : Obligations.PulseWidthSurvivesWrap := by
  intro p start d x _ hstart hend
  have hwidth : x.width p = d % 2 ^ p.tb := by rw [Channel.width, hstart, hend, modTB_sub]
  exact ⟨hwidth, fun hd => hwidth.trans (Nat.mod_eq_of_lt hd)⟩

/-- Settles O20: the branch of RX that has no previous sample. -/
theorem rxFirstSampleLoads : Obligations.RxFirstSampleLoads := by
  intro port s hpv
  exact if_neg (Bool.eq_false_iff.mp hpv)

/-- Every later sample is decoded (R180). -/
theorem exec_rx_of_pv {s : State} (port : Byte) (hpv : s.rxPv = true) :
    exec (.rx port) s = .next { s.rxEdges port with rxPrev := port } := if_pos hpv

/-! ## One edge -/

/-- A bit rises from 0 to 1. -/
theorem rises_iff {old new : Byte} {b : Nat} :
    rises old new b = true ↔ old.getLsbD b = false ∧ new.getLsbD b = true := by
  rw [rises, Bool.and_eq_true, Bool.not_eq_true']

/-- A bit falls from 1 to 0. -/
theorem falls_iff {old new : Byte} {b : Nat} :
    falls old new b = true ↔ old.getLsbD b = true ∧ new.getLsbD b = false := by
  rw [falls, Bool.and_eq_true, Bool.not_eq_true']

/-- A bit that falls does not rise. -/
theorem rises_of_falls {old new : Byte} {b : Nat} (h : falls old new b = true) : rises old new b = false := by
  rw [rises, (falls_iff.mp h).1]
  rfl

/-- A bit that rises does not fall. -/
theorem falls_of_rises {old new : Byte} {b : Nat} (h : rises old new b = true) : falls old new b = false := by
  rw [falls, (rises_iff.mp h).1]
  rfl

/-- An unchanged bit has no edge. -/
theorem no_edge_of_eq {old new : Byte} {b : Nat} (h : old.getLsbD b = new.getLsbD b) :
    rises old new b = false ∧ falls old new b = false := by
  rw [rises, falls, h]
  exact ⟨Bool.not_and_self _, Bool.and_not_self _⟩

/-- A channel with the edge of its bit, if there is one, at the tick `now` (R181, R183, R184). -/
def Channel.edge (x : Channel) (now : Tick) (rise fall : Bool) : Channel :=
  if rise then { x with rxStart := now } else if fall then { x with rxEnd := now, rxUpd := true } else x

/-- Channels without an edge stay. -/
theorem modify_edge_none (cs : List Channel) (c : Nat) (now : Tick) :
    (cs.modify c fun x => x.edge now false false) = cs := List.modify_id c cs

/-! ## SEQ mode -/

/-- The monitored bit rises (R181). -/
theorem rxSeq_of_rises {s : State} {old new : Byte} (h : rises old new (s.params.chBitOf s.rxMux) = true) :
    s.rxSeq old new = s.rxRise s.rxMux := if_pos h

/-- The monitored bit does not change (R181). -/
theorem rxSeq_of_no_edge {s : State} {old new : Byte} (hr : rises old new (s.params.chBitOf s.rxMux) = false)
    (hf : falls old new (s.params.chBitOf s.rxMux) = false) : s.rxSeq old new = s := by
  simp only [State.rxSeq, hr, hf, Bool.false_eq_true, if_false]

/-- The monitored bit falls: its pair is complete, and the next channel's may start at once (R181, R182, R184). -/
theorem rxSeq_of_falls {s : State} {old new : Byte} (h : falls old new (s.params.chBitOf s.rxMux) = true) :
    s.rxSeq old new = { s.rxFall s.rxMux with
      rxMux := (s.rxMux + 1) % s.params.nch
      chans := (s.rxFall s.rxMux).chans.modify ((s.rxMux + 1) % s.params.nch) fun y =>
        y.edge s.now (rises old new (s.params.chBitOf ((s.rxMux + 1) % s.params.nch))) false } := by
  simp only [State.rxSeq, rises_of_falls h, h, Bool.false_eq_true, if_false, if_true]
  cases rises old new (s.params.chBitOf ((s.rxMux + 1) % s.params.nch)) with
  | true => rfl
  | false => rw [modify_edge_none]; rfl

/-- Settles O21, by the three cases of the decoder. Where one channel is all, the next is the channel whose bit falls,
so it does not start. -/
theorem rxSequentialEdges : Obligations.RxSequentialEdges := by
  intro port s x hpv hseq _ _ hx
  have hedges : s.rxEdges port = s.rxSeq s.rxPrev port := by rw [State.rxEdges, hseq]
  rw [exec_rx_of_pv port hpv, hedges]
  refine ⟨fun hold hnew => ?rise, fun hold hnew => ?fall, fun hsame => ?same⟩
  case rise =>
    rw [rxSeq_of_rises (rises_iff.mpr ⟨hold, hnew⟩), ← modify_eq_set (fun x => { x with rxStart := s.now }) hx]
    rfl
  case same =>
    obtain ⟨hr, hf⟩ := no_edge_of_eq hsame
    rw [rxSeq_of_no_edge hr hf]
  case fall =>
    have hf := falls_iff.mpr ⟨hold, hnew⟩
    rw [rxSeq_of_falls hf]
    refine ⟨_, rfl, ?monitored, fun y hne hy => ?next, fun c hc hc2 => ?other, rfl⟩
    case monitored =>
      show ((s.chans.modify s.rxMux _).modify ((s.rxMux + 1) % s.params.nch) _)[s.rxMux]? = _
      rcases eq_or_ne ((s.rxMux + 1) % s.params.nch) s.rxMux with hone | hne
      · rw [hone, rises_of_falls hf, modify_edge_none, List.getElem?_modify_eq, hx]
        rfl
      · rw [List.getElem?_modify_ne _ _ hne, List.getElem?_modify_eq, hx]
        rfl
    case next =>
      show ((s.chans.modify s.rxMux _).modify ((s.rxMux + 1) % s.params.nch) _)[(s.rxMux + 1) % s.params.nch]? = _
      rw [List.getElem?_modify_eq, List.getElem?_modify_ne _ _ hne.symm, hy]
      simp only [Channel.edge, rises_iff, Bool.false_eq_true, if_false]
      rfl
    case other =>
      show ((s.chans.modify s.rxMux _).modify ((s.rxMux + 1) % s.params.nch) _)[c]? = _
      rw [List.getElem?_modify_ne _ _ hc2.symm, List.getElem?_modify_ne _ _ hc.symm]

/-! ## PAR mode -/

/-- One channel of PAR mode takes its edge, and a fall is recorded for the block (R183, R184). -/
theorem rxParChan_eq (s : State) (old new : Byte) (c : Nat) :
    s.rxParChan old new c = { s with
      chans := s.chans.modify c fun x =>
        x.edge s.now (rises old new (s.params.chBitOf c)) (falls old new (s.params.chBitOf c))
      lastPair := if falls old new (s.params.chBitOf c) then s.now else s.lastPair
      lost := if falls old new (s.params.chBitOf c) then false else s.lost
      rxDue := s.rxDue || (decide (c + 1 = s.params.nch) && falls old new (s.params.chBitOf c)) } := by
  cases hr : rises old new (s.params.chBitOf c) with
  | true => simp [State.rxParChan, hr, falls_of_rises hr, Channel.edge, State.rxRise, State.modifyChan]
  | false =>
    cases hf : falls old new (s.params.chBitOf c) with
    | true => simp [State.rxParChan, hr, hf, Channel.edge, State.rxFall, State.modifyChan]
    | false => simp [State.rxParChan, hr, hf, modify_edge_none]

/-- The state after the edges of the channels below `n`, all at one NOW (R183, R184). -/
def State.edgesBelow (s : State) (old new : Byte) (n : Nat) : State :=
  let rise := fun c => rises old new (s.params.chBitOf c)
  let fall := fun c => falls old new (s.params.chBitOf c)
  { s with
    chans := s.chans.mapIdx fun c x => if c < n then x.edge s.now (rise c) (fall c) else x
    lastPair := if (List.range n).any fall then s.now else s.lastPair
    lost := if (List.range n).any fall then false else s.lost
    rxDue := s.rxDue || (List.range n).any fun c => decide (c + 1 = s.params.nch) && fall c }

/-- The edge of channel `n` after those of the channels below it. -/
theorem modify_mapIdx_below (cs : List Channel) (f : Nat → Channel → Channel) (n : Nat) :
    (cs.mapIdx fun c x => if c < n then f c x else x).modify n (f n) =
      cs.mapIdx fun c x => if c < n + 1 then f c x else x := by
  apply List.ext_getElem?
  intro i
  rw [List.getElem?_modify, List.getElem?_mapIdx, List.getElem?_mapIdx]
  cases cs[i]? with
  | none => rfl
  | some x =>
    rcases eq_or_ne n i with rfl | hne
    · simp
    · simp [hne, Nat.le_iff_lt_or_eq, hne.symm]

/-- What a fall of channel `n` records, after the falls of the channels below it. -/
theorem ite_any_range_succ {α : Type} (fall : Nat → Bool) (n : Nat) (v w : α) :
    (if fall n then v else if (List.range n).any fall then v else w) =
      if (List.range (n + 1)).any fall then v else w := by
  rw [List.range_succ, List.any_append, List.any_cons, List.any_nil, Bool.or_false]
  cases fall n <;> cases (List.range n).any fall <;> rfl

/-- Channel `n` takes its edge after the channels below it (R183). -/
theorem rxParChan_edgesBelow (s : State) (old new : Byte) (n : Nat) :
    (s.edgesBelow old new n).rxParChan old new n = s.edgesBelow old new (n + 1) := by
  rw [rxParChan_eq]
  unfold State.edgesBelow
  congr 1
  · rw [List.range_succ, List.any_append, List.any_cons, List.any_nil, Bool.or_false, ← Bool.or_assoc]
  · exact ite_any_range_succ (fun c => falls old new (s.params.chBitOf c)) n s.now s.lastPair
  · exact ite_any_range_succ (fun c => falls old new (s.params.chBitOf c)) n false s.lost
  · exact modify_mapIdx_below s.chans _ n

/-- PAR mode in closed form (R183). -/
theorem rxPar_eq (s : State) (old new : Byte) : s.rxPar old new = s.edgesBelow old new s.params.nch := by
  have hfold (n : Nat) : (List.range n).foldl (fun t c => t.rxParChan old new c) s = s.edgesBelow old new n := by
    induction n with
    | zero =>
      have hnone : (s.chans.mapIdx fun _ x => x) = s.chans := List.ext_getElem (by simp) (by simp)
      simp [State.edgesBelow, hnone]
    | succ n ih => rw [List.range_succ, List.foldl_append, ih]; exact rxParChan_edgesBelow s old new n
  exact hfold _

/-- Settles O22: every channel is below NCH. -/
theorem rxParallelEdges : Obligations.RxParallelEdges := by
  intro port s hpv hpar hlen
  have hedges : s.rxEdges port = s.edgesBelow s.rxPrev port s.params.nch := by
    rw [State.rxEdges, hpar]
    exact rxPar_eq s s.rxPrev port
  refine ⟨_, exec_rx_of_pv port hpv, ?_⟩
  rw [hedges]
  refine ⟨fun c x hx => ?_, List.length_mapIdx, rfl⟩
  obtain ⟨hc, -⟩ := List.getElem?_eq_some_iff.mp hx
  show (s.chans.mapIdx _)[c]? = _
  rw [List.getElem?_mapIdx, hx, Option.map_some, if_pos (hlen ▸ hc)]
  rfl

end Sys2Proof.Machine
end

section
/-! Where an insertion puts the slot it wrote (R187), the middle of the sorted readings (R190), and SVC.RX's frame of a
channel (R185): counts along a sorted list are positions in it. -/

namespace Sys2Proof.Machine

/-! ## Counting along a sorted list -/

/-- Along a list in which `P`, once false, stays false, `P` holds exactly before position `countP P`. -/
theorem lt_countP_iff {α : Type} {P : α → Bool} {l : List α} (h : l.Pairwise fun a b => P b = true → P a = true)
    {k : Nat} (hk : k < l.length) : k < l.countP P ↔ P l[k] = true := by
  induction l generalizing k with
  | nil => exact absurd hk (Nat.not_lt_zero k)
  | cons a l ih =>
    obtain ⟨ha, hl⟩ := List.pairwise_cons.mp h
    by_cases hPa : P a = true
    · rw [List.countP_cons_of_pos hPa]
      cases k with
      | zero => simp [hPa]
      | succ k => simpa using ih hl (Nat.lt_of_succ_lt_succ hk)
    · have hnone : ∀ b ∈ l, ¬P b = true := fun b hb hPb => hPa (ha b hb hPb)
      rw [List.countP_cons_of_neg hPa, List.countP_eq_zero.mpr hnone]
      cases k with
      | zero => simp [hPa]
      | succ k => simpa using hnone _ (List.getElem_mem _)

/-- A list in which the element taken out stands at its place again. -/
theorem insertIdx_erase {ord : List Nat} {s : Nat} (hs : s ∈ ord) : (ord.erase s).insertIdx (ord.idxOf s) s = ord := by
  have hi : ord.idxOf s < ord.length := List.idxOf_lt_length_iff.mpr hs
  have h := List.insertIdx_eraseIdx_getElem hi
  rwa [List.eraseIdx_idxOf_eq_erase, List.getElem_idxOf] at h

/-- An insertion at a position of a list cuts the list there. -/
theorem insertIdx_eq_take_cons_drop {α : Type} (l : List α) (k : Nat) (a : α) (hk : k ≤ l.length) :
    l.insertIdx k a = l.take k ++ a :: l.drop k := by
  induction l generalizing k with
  | nil => obtain rfl := Nat.le_zero.mp hk; rfl
  | cons b l ih =>
    cases k with
    | zero => rfl
    | succ k => simp [ih k (Nat.le_of_succ_le_succ hk)]

/-! ## The slot among the others -/

/-- The reading at the position of the slot. -/
theorem readingAt_insertIdx_self (val : List Tick) {others : List Nat} (s : Nat) {k : Nat} (hk : k ≤ others.length) :
    readingAt val (others.insertIdx k s) k = val.getD s 0 := by
  simp [readingAt, List.getD_eq_getElem?_getD, List.getElem?_insertIdx_self, hk]

/-- The reading before the slot. -/
theorem readingAt_insertIdx_left (val : List Tick) {others : List Nat} (s : Nat) {k : Nat} (hk : k < others.length) :
    readingAt val (others.insertIdx (k + 1) s) k = val.getD others[k] 0 := by
  simp [readingAt, List.getD_eq_getElem?_getD, List.getElem?_insertIdx, hk]

/-- The reading after the slot. -/
theorem readingAt_insertIdx_right (val : List Tick) {others : List Nat} (s : Nat) {k : Nat} (hk : k < others.length) :
    readingAt val (others.insertIdx k s) (k + 1) = val.getD others[k] 0 := by
  simp [readingAt, List.getD_eq_getElem?_getD, List.getElem?_insertIdx, hk]

/-- The entries of an order after a swap of two neighbours. -/
theorem getElem?_swapNext {ord : List Nat} {k : Nat} (h : k + 1 < ord.length) (i : Nat) :
    (swapNext ord k)[i]? = if i = k then ord[k + 1]? else if i = k + 1 then ord[k]? else ord[i]? := by
  simp only [swapNext, List.getD_eq_getElem?_getD, List.getElem?_set, List.length_set]
  grind

/-- A swap moves the slot one place to the left. -/
theorem swapNext_insertIdx_left {others : List Nat} (s : Nat) {k : Nat} (hk : k < others.length) :
    swapNext (others.insertIdx (k + 1) s) k = others.insertIdx k s := by
  apply List.ext_getElem?
  intro i
  have hl : k + 1 < (others.insertIdx (k + 1) s).length := by simp [List.length_insertIdx, hk]
  simp only [getElem?_swapNext hl, List.getElem?_insertIdx]
  grind

/-- A swap moves it one place to the right. -/
theorem swapNext_insertIdx_right {others : List Nat} (s : Nat) {k : Nat} (hk : k < others.length) :
    swapNext (others.insertIdx k s) k = others.insertIdx (k + 1) s := by
  apply List.ext_getElem?
  intro i
  have hl : k + 1 < (others.insertIdx k s).length := by simp [List.length_insertIdx, hk.le, hk]
  simp only [getElem?_swapNext hl, List.getElem?_insertIdx]
  grind

/-- The slots other than the written one stand in order of their readings. -/
abbrev OthersSorted (val : List Tick) (others : List Nat) : Prop :=
  others.Pairwise fun i j => val.getD i 0 ≤ val.getD j 0

/-- How many of the slots `others` read less than `v`: the first place for `v` that is in order. -/
def countBelow (val : List Tick) (others : List Nat) (v : Tick) : Nat :=
  others.countP fun k => decide (val.getD k 0 < v)

/-- How many of them read at most `v`: the last such place. -/
def countUpTo (val : List Tick) (others : List Nat) (v : Tick) : Nat :=
  others.countP fun k => decide (val.getD k 0 ≤ v)

/-- A slot reads less than `v` where it stands before the first place for `v`. -/
theorem lt_countBelow_iff {val : List Tick} {others : List Nat} (h : OthersSorted val others) (v : Tick) {k : Nat}
    (hk : k < others.length) : k < countBelow val others v ↔ val.getD others[k] 0 < v := by
  rw [countBelow, lt_countP_iff (h.imp fun hab hb => decide_eq_true (hab.trans_lt (of_decide_eq_true hb))) hk,
    decide_eq_true_eq]

/-- A slot reads more than `v` where it stands after the last place for `v`. -/
theorem countUpTo_le_iff {val : List Tick} {others : List Nat} (h : OthersSorted val others) (v : Tick) {k : Nat}
    (hk : k < others.length) : countUpTo val others v ≤ k ↔ v < val.getD others[k] 0 := by
  rw [countUpTo, ← not_lt, lt_countP_iff (h.imp fun hab hb => decide_eq_true (hab.trans (of_decide_eq_true hb))) hk,
    decide_eq_true_eq, not_le]

/-- The first loop takes the slot left to the last place for its reading, if it stood after it (R187). -/
theorem bubbleLeft_insertIdx {val : List Tick} {others : List Nat} (h : OthersSorted val others) (s : Nat) (p : Nat)
    (hp : p ≤ others.length) :
    bubbleLeft val p (others.insertIdx p s) =
      (others.insertIdx (min (countUpTo val others (val.getD s 0)) p) s,
        min (countUpTo val others (val.getD s 0)) p) := by
  induction p with
  | zero => rw [Nat.min_zero, bubbleLeft]
  | succ p ih =>
    rw [bubbleLeft, readingAt_insertIdx_self val s hp, readingAt_insertIdx_left val s hp]
    split <;> rename_i hmove <;> rw [← countUpTo_le_iff h _ hp] at hmove
    · rw [swapNext_insertIdx_left s hp, ih (Nat.le_of_succ_le hp), Nat.min_eq_left hmove,
        Nat.min_eq_left (Nat.le_succ_of_le hmove)]
    · rw [Nat.min_eq_right (Nat.lt_of_not_le hmove)]

/-- The second loop, given the moves to the end, takes it right to the first place for its reading, if it stood before
it (R187, R188). -/
theorem bubbleRight_insertIdx {val : List Tick} {others : List Nat} (h : OthersSorted val others) (s : Nat)
    (fuel p : Nat) (hp : p + fuel = others.length) :
    bubbleRight val fuel p (others.insertIdx p s) =
      others.insertIdx (max (countBelow val others (val.getD s 0)) p) s := by
  induction fuel generalizing p with
  | zero =>
    have hle : countBelow val others (val.getD s 0) ≤ p := List.countP_le_length.trans_eq hp.symm
    rw [bubbleRight, Nat.max_eq_right hle]
  | succ fuel ih =>
    have hlt : p < others.length := by omega
    rw [bubbleRight, readingAt_insertIdx_self val s hlt.le, readingAt_insertIdx_right val s hlt]
    split <;> rename_i hmove <;> rw [← lt_countBelow_iff h _ hlt] at hmove
    · rw [swapNext_insertIdx_right s hlt, ih (p + 1) (by omega), Nat.max_eq_left hmove, Nat.max_eq_left hmove.le]
    · rw [Nat.max_eq_right (Nat.le_of_not_lt hmove)]

/-- The repair after an insertion, from and to a place among the other slots (R187). -/
theorem repairOrder_eq {val : List Tick} {ord : List Nat} {n s : Nat} (hl : ord.length = n) (hs : s ∈ ord)
    (h : OthersSorted val (ord.erase s)) :
    repairOrder n val ord s = (ord.erase s).insertIdx
      (max (countBelow val (ord.erase s) (val.getD s 0))
        (min (countUpTo val (ord.erase s) (val.getD s 0)) (ord.idxOf s))) s := by
  have hlen := List.length_erase_of_mem hs
  have hi : ord.idxOf s < ord.length := List.idxOf_lt_length_iff.mpr hs
  have hleft := bubbleLeft_insertIdx h s (ord.idxOf s) (by omega)
  rw [insertIdx_erase hs] at hleft
  rw [repairOrder, hleft]
  exact bubbleRight_insertIdx h s _ _ (by omega)

/-- The order of an ordered ring holds RX_N slots, each once, the oldest reading's among them (R45, R46). -/
theorem ringOrd_of_ringOk {x : Channel} {n : Nat} (h : x.RingOk n) :
    x.ringOrd.length = n ∧ x.ringOrd.Nodup ∧ x.ringHead ∈ x.ringOrd := by
  obtain ⟨-, hhead, hperm, -⟩ := h
  exact ⟨by simpa using hperm.length_eq, hperm.nodup_iff.mpr List.nodup_range,
    hperm.mem_iff.mpr (List.mem_range.mpr hhead)⟩

/-- A new reading in the oldest slot leaves the readings of the other slots. -/
theorem getD_set_of_other {x : Channel} {n : Nat} (v : Tick) (h : x.RingOk n) {k : Nat}
    (hk : k ∈ x.ringOrd.erase x.ringHead) : (x.ringVal.set x.ringHead v).getD k 0 = x.ringVal.getD k 0 := by
  obtain ⟨-, hnd, -⟩ := ringOrd_of_ringOk h
  have hne : x.ringHead ≠ k := (hnd.mem_erase_iff.mp hk).1.symm
  simp only [List.getD_eq_getElem?_getD, List.getElem?_set_ne hne]

/-- Where an insertion of `v` into an ordered ring puts the slot written, among the other slots: where it stood, or the
nearest place in order (R187). -/
def Channel.placeOf (x : Channel) (v : Tick) : Nat :=
  max (countBelow x.ringVal (x.ringOrd.erase x.ringHead) v)
    (min (countUpTo x.ringVal (x.ringOrd.erase x.ringHead) v) (x.ringOrd.idxOf x.ringHead))

/-- It is a place among the other slots. -/
theorem placeOf_le (x : Channel) (v : Tick) : x.placeOf v ≤ (x.ringOrd.erase x.ringHead).length :=
  max_le List.countP_le_length ((Nat.min_le_left _ _).trans List.countP_le_length)

/-- The order of an ordered ring after an insertion (R187). -/
theorem insert_ringOrd_eq {x : Channel} {n : Nat} (v : Tick) (h : x.RingOk n) :
    (x.insert n v).ringOrd = (x.ringOrd.erase x.ringHead).take (x.placeOf v) ++
      x.ringHead :: (x.ringOrd.erase x.ringHead).drop (x.placeOf v) := by
  obtain ⟨hol, -, hs⟩ := ringOrd_of_ringOk h
  obtain ⟨hlen, hhead, -, hsort⟩ := id h
  have hnew : (x.ringVal.set x.ringHead v).getD x.ringHead 0 = v := by
    simp [List.getD_eq_getElem?_getD, hlen ▸ hhead]
  have hothers : OthersSorted (x.ringVal.set x.ringHead v) (x.ringOrd.erase x.ringHead) :=
    ((List.pairwise_map.mp hsort).erase _).imp_of_mem fun hi hj hij => by
      rwa [getD_set_of_other v h hi, getD_set_of_other v h hj]
  have hbelow : countBelow (x.ringVal.set x.ringHead v) (x.ringOrd.erase x.ringHead) v =
      countBelow x.ringVal (x.ringOrd.erase x.ringHead) v :=
    List.countP_congr fun k hk => by rw [getD_set_of_other v h hk]
  have hupTo : countUpTo (x.ringVal.set x.ringHead v) (x.ringOrd.erase x.ringHead) v =
      countUpTo x.ringVal (x.ringOrd.erase x.ringHead) v :=
    List.countP_congr fun k hk => by rw [getD_set_of_other v h hk]
  rw [← insertIdx_eq_take_cons_drop _ _ _ (placeOf_le x v), Channel.insert_ringOrd, repairOrder_eq hol hs hothers, hnew,
    hbelow, hupTo]
  rfl

/-! ## The median -/

/-- The readings of an ordered ring, along its order, are its readings sorted (R45, R189). -/
theorem mergeSort_readings {x : Channel} {n : Nat} (h : x.RingOk n) :
    x.ringVal.mergeSort (fun a b => decide (a ≤ b)) = x.ringOrd.map (fun k => x.ringVal.getD k 0) := by
  obtain ⟨hlen, -, hperm, hsort⟩ := h
  have hread : (List.range n).map (fun k => x.ringVal.getD k 0) = x.ringVal :=
    List.ext_getElem (by simp [hlen]) fun i h1 h2 => by simp [h2]
  have hp : (x.ringVal.mergeSort fun a b => decide (a ≤ b)).Perm (x.ringOrd.map fun k => x.ringVal.getD k 0) :=
    (List.mergeSort_perm _ _).trans (.trans (.of_eq hread.symm) (hperm.map _).symm)
  exact hp.eq_of_pairwise' (List.pairwise_mergeSort' (· ≤ ·) _) hsort

/-- The reading in the middle of the order (R190). -/
theorem median_eq {x : Channel} {n : Nat} (h : x.RingOk n) :
    (x.ringOrd.map fun k => x.ringVal.getD k 0)[n / 2]? = some (x.median n) := by
  obtain ⟨hol, -, -⟩ := ringOrd_of_ringOk h
  obtain ⟨-, hhead, -, -⟩ := h
  have hmid : n / 2 < x.ringOrd.length := by omega
  simp [Channel.median, readingAt, List.getD_eq_getElem?_getD, hmid]

/-- Sorted readings begin with their zeros, so the one at `k` is 0 exactly where more than `k` of them are. -/
theorem sorted_getElem_eq_zero_iff {l : List Tick} (h : l.Pairwise (· ≤ ·)) {k : Nat} (hk : k < l.length) :
    l[k] = 0 ↔ k + 1 ≤ l.count 0 := by
  have hzero : l.Pairwise fun a b => (b == 0) = true → (a == 0) = true :=
    h.imp fun hab hb => beq_iff_eq.mpr (Nat.le_zero.mp (hab.trans_eq (beq_iff_eq.mp hb)))
  rw [Nat.succ_le_iff, List.count_eq_countP, lt_countP_iff hzero hk, beq_iff_eq]

/-- Settles O27: the readings along the order are the sorted readings, and sorted readings begin with the zeros. -/
theorem medianIsTheMiddleReading : Obligations.MedianIsTheMiddleReading := by
  intro x n h
  obtain ⟨-, -, -, hsort⟩ := id h
  obtain ⟨hmid, hmed⟩ := List.getElem?_eq_some_iff.mp (median_eq h)
  have hsorted := mergeSort_readings h
  refine ⟨hsorted ▸ median_eq h, ?_⟩
  rw [← hmed, sorted_getElem_eq_zero_iff hsort hmid, ← hsorted, (List.mergeSort_perm _ _).count_eq]

/-- Settles O25: a reset ring is ordered, and an insertion keeps it so. -/
theorem ringOrderSurvivesInsertions : Obligations.RingOrderSurvivesInsertions := by
  intro x n events hn
  have hok : (x.resetRing n).RingOk n := ringOk_of_cleared hn rfl rfl rfl
  generalize x.resetRing n = y at hok ⊢
  induction events generalizing y with
  | nil => exact hok
  | cons e events ih =>
    cases e with
    | some v => exact ih _ (insert_ringOk v hok)
    | none => exact ih _ (ringOk_of_cleared hn rfl rfl rfl)

/-! ## A receiver frame -/

/-- A channel without a new pair is not drained (R185). -/
theorem drain_of_not_upd {x : Channel} (p : Params) (h : x.rxUpd = false) : x.drain p = x :=
  if_neg (Bool.eq_false_iff.mp h)

/-- A channel with a new pair gets its width in the ring, and its record is cleared (R185). -/
theorem drain_of_upd {x : Channel} (p : Params) (h : x.rxUpd = true) :
    x.drain p = { x with rxUpd := false, rxEnd := 0 }.insert p.rxN (x.width p) := if_pos h

/-- A drain leaves the start and no new pair (R185). -/
theorem drain_clears (x : Channel) (p : Params) : (x.drain p).rxStart = x.rxStart ∧ (x.drain p).rxUpd = false := by
  cases h : x.rxUpd with
  | false => rw [drain_of_not_upd p h]; exact ⟨rfl, h⟩
  | true => rw [drain_of_upd p h]; exact ⟨rfl, rfl⟩

/-- A channel after a receiver frame `e` ticks after the last pair, within the loss limit: drained, then conditioned
(R185, R225, R226). -/
def Channel.frame (x : Channel) (p : Params) (e : Tick) (c : Nat) : Channel :=
  { x.drain p with rxCond := wrap16 (fadeValue p e ((x.drain p).condValue p c)) }

/-- Within the loss limit, an enabled SVC.RX clears RX_DUE, does every channel's frame and sets the targets (R285). -/
theorem exec_svcRx_within {s : State} (hdue : s.rxDue = true) (hmode : s.mode = .normal)
    (he : s.elapsed s.lastPair ≤ s.params.lossT + s.params.fadeF) :
    exec .svcRx s = .next { s with
      rxDue := false
      chans := s.chans.mapIdx fun c (x : Channel) => x.frame s.params (s.elapsed s.lastPair) c }.targets := by
  have hrun : exec .svcRx s = .next { s with rxDue := false }.rxDrain.condition.targets :=
    if_pos (svcRxEnabled_iff.mpr ⟨hdue, hmode⟩)
  have hframes (f : Nat → Channel → Channel) :
      (s.chans.map fun x => x.drain s.params).mapIdx f = s.chans.mapIdx fun c x => f c (x.drain s.params) :=
    List.ext_getElem (by simp) (by simp)
  rcases condition_cases { s with rxDue := false }.rxDrain with ⟨hlt, -⟩ | ⟨-, hcond⟩
  · exact absurd he (Nat.not_le.mpr hlt)
  · rw [hrun, hcond, State.conditionAll, State.rxDrain_chans, hframes]
    rfl

/-- Settles O28: each channel's frame is its drain, which inserts the width of an updated record; the order after an
insertion is `insert_ringOrd_eq`. -/
theorem svcRxDrainsTheRecords : Obligations.SvcRxDrainsTheRecords := by
  intro s hdue hmode _ he
  refine ⟨_, exec_svcRx_within hdue hmode he, rfl, List.length_mapIdx, rfl, rfl, fun c x hx => ?_⟩
  obtain ⟨hstart, hupd⟩ := drain_clears x s.params
  refine ⟨x.frame s.params (s.elapsed s.lastPair) c, ?chan, hstart, hupd, fun h => ?kept, fun h => ?inserted,
    drain_ringOk, fun hring h => ?order⟩
  case chan =>
    show (s.chans.mapIdx fun c (x : Channel) => x.frame s.params (s.elapsed s.lastPair) c)[c]? = _
    rw [List.getElem?_mapIdx, hx]
    rfl
  case kept =>
    rw [Channel.frame, drain_of_not_upd _ h]
    exact ⟨rfl, rfl, rfl, rfl⟩
  case inserted =>
    rw [Channel.frame, drain_of_upd _ h]
    exact ⟨rfl, rfl, rfl⟩
  case order =>
    rw [Channel.frame, drain_of_upd _ h]
    exact insert_ringOrd_eq (x := { x with rxUpd := false, rxEnd := 0 }) (x.width s.params) hring

end Sys2Proof.Machine
end

section
/-! What SVC.RX makes of the readings: the conditioned command of a channel (R220-R226), the loss reset (R227), and the
targets of the axes (R229). -/

namespace Sys2Proof.Machine

/-- An enabled SVC.RX drains, conditions and sets the targets (R285). -/
theorem exec_svcRx {s : State} (hdue : s.rxDue = true) (hmode : s.mode = .normal) :
    exec .svcRx s = .next { s with rxDue := false }.rxDrain.condition.targets :=
  if_pos (svcRxEnabled_iff.mpr ⟨hdue, hmode⟩)

/-! ## The conditioned command -/

/-- The value before the fade, from the median (R220-R224). -/
theorem condValue_eq (x : Channel) (p : Params) (c : Nat) :
    x.condValue p c =
      if (x.median p.rxN : Int) = 0 then 0
      else if (p.calMaxOf c : Int) = p.calMinOf c then 0
      else max (-(p.range : Int)) (min p.range
        (Int.tdiv ((x.median p.rxN - p.calMinOf c) * 2 * p.range) (p.calMaxOf c - p.calMinOf c) - p.range)) := by
  have hrange : -(p.range : Int) ≤ p.range := by omega
  simp only [Channel.condValue, clamp_eq hrange, linearMap, tdiv, Int.natCast_eq_zero, Int.natCast_inj]

/-- RX_COND holds the faded value exactly: the fade does not lead out of ±RANGE, which 16 bits hold (R223, R226). -/
theorem frame_rxCond_toInt {p : Params} (hp : p.legal = true) {e : Tick} (he : e ≤ p.lossT + p.fadeF) (x : Channel)
    (c : Nat) : (x.frame p e c).rxCond.toInt = fadeValue p e ((x.drain p).condValue p c) := by
  have hrange := Params.range_le hp
  have hcond := condValue_natAbs_le (x.drain p) p c
  have hfade := fadeValue_natAbs_le he ((x.drain p).condValue p c)
  exact BitVec.toInt_ofInt_eq_self (by decide) (by omega) (by omega)

/-- Settles O29: a channel's frame conditions the median of the drained ring. -/
theorem svcRxConditionsTheMedian : Obligations.SvcRxConditionsTheMedian := by
  intro s hdue hmode hp he
  refine ⟨_, exec_svcRx_within hdue hmode he, fun c x hx =>
    ⟨x.frame s.params (s.elapsed s.lastPair) c, ?chan, ?cond⟩⟩
  case chan =>
    show (s.chans.mapIdx fun c (x : Channel) => x.frame s.params (s.elapsed s.lastPair) c)[c]? = _
    rw [List.getElem?_mapIdx, hx]
    rfl
  case cond =>
    rw [frame_rxCond_toInt hp he, condValue_eq]
    rfl

/-! ## The targets -/

/-- The command of a channel that is there. -/
theorem condOf_of_some {s : State} {c : Nat} {y : Channel} (h : s.chans[c]? = some y) : s.condOf c = y.rxCond.toInt := by
  rw [State.condOf, h]

/-- Where every command is 0, so is that of any channel. -/
theorem condOf_of_silent {s : State} (h : ∀ y ∈ s.chans, y.rxCond = 0) (c : Nat) : s.condOf c = 0 := by
  cases hy : s.chans[c]? with
  | none => rw [State.condOf, hy]
  | some y =>
    rw [condOf_of_some hy, h y (List.mem_of_getElem? hy)]
    rfl

/-- The target of an axis is its channel's command in Q(S), and the axis keeps the rest (R229). -/
theorem targets_getElem? {s : State} {a : Nat} {x : Axis} {y : Channel} (hx : s.axes[a]? = some x)
    (hy : s.chans[s.params.axChOf a]? = some y) :
    s.targets.axes[a]? = some { x with pidTgt := wrap32 (y.rxCond.toInt * 2 ^ s.params.sfrac) } := by
  rw [State.targets_axes, List.getElem?_mapIdx, hx, condOf_of_some hy]
  rfl

/-- Where every command is 0, so is every target (R229). -/
theorem targets_axes_of_silent {s : State} (h : ∀ y ∈ s.chans, y.rxCond = 0) :
    s.targets.axes = s.axes.map fun x => { x with pidTgt := 0 } := by
  simp only [State.targets_axes, condOf_of_silent h, Int.zero_mul]
  exact List.ext_getElem (by simp) (by simp [wrap32])

/-- S is 16 or 8 (R8). -/
theorem sfrac_of_legal {p : Params} (h : p.legal = true) : p.sfrac = 16 ∨ p.sfrac = 8 := by
  simp only [Params.legal, Params.legalControl, Bool.and_eq_true, Bool.or_eq_true, decide_eq_true_eq] at h
  omega

/-- A 16-bit command in Q(S) fits 32 bits, for S is 8 or 16 (R8, R229). -/
theorem wrap32_command_toInt {p : Params} (hp : p.legal = true) (v : BitVec 16) :
    (wrap32 (v.toInt * 2 ^ p.sfrac)).toInt = v.toInt * 2 ^ p.sfrac := by
  have hlo := v.le_toInt
  have hhi := v.toInt_lt
  refine BitVec.toInt_ofInt_eq_self (by decide) ?_ ?_ <;> rcases sfrac_of_legal hp with hs | hs <;> rw [hs] <;> omega

/-- Settles O31: the targets read the commands that SVC.RX leaves in the channels. -/
theorem svcRxRetargetsTheAxes : Obligations.SvcRxRetargetsTheAxes := by
  intro s hdue hmode hp
  obtain ⟨cs, m, l, hcond⟩ := condition_frame { s with rxDue := false }.rxDrain
  refine ⟨_, exec_svcRx hdue hmode, ?_⟩
  rw [hcond]
  refine ⟨rfl, List.length_mapIdx, fun a x y hx hy => ⟨_, wrap32_command_toInt hp y.rxCond, ?_⟩⟩
  exact targets_getElem? hx hy

/-! ## The loss of the signal -/

/-- A loss reset with silence leaves every channel as after reset (R42, R44-R47, R227). -/
theorem lossReset_silence_chans (s : State) :
    s.lossReset.silence.chans = List.replicate s.chans.length (Channel.initial s.params) := by
  rw [State.silence_chans, State.lossReset_chans, List.map_map]
  exact List.map_const' (b := Channel.initial s.params)

/-- Beyond the loss limit, an enabled SVC.RX drains, resets every channel, and sets the targets from the silence
(R226, R227, R285). -/
theorem exec_svcRx_beyond {s : State} (hdue : s.rxDue = true) (hmode : s.mode = .normal)
    (he : s.params.lossT + s.params.fadeF < s.elapsed s.lastPair) :
    exec .svcRx s = .next { s with rxDue := false }.rxDrain.lossReset.silence.targets := by
  have hcond : { s with rxDue := false }.rxDrain.condition = { s with rxDue := false }.rxDrain.lossReset.silence :=
    if_pos he
  rw [exec_svcRx hdue hmode, hcond]

/-- Settles O30: the channels are as after reset, so every axis's command is 0. -/
theorem svcRxLossResetsTheChannels : Obligations.SvcRxLossResetsTheChannels := by
  intro s hdue hmode _ he
  have hchans := lossReset_silence_chans { s with rxDue := false }.rxDrain
  refine ⟨_, exec_svcRx_beyond hdue hmode he, ?chans, rfl, rfl, rfl, rfl, rfl, ?axes⟩
  case chans => simpa using hchans
  case axes =>
    exact targets_axes_of_silent fun y hy => congrArg Channel.rxCond (List.eq_of_mem_replicate (hchans ▸ hy))

end Sys2Proof.Machine
end

section
/-! The motor command of SVC.ENC's frame (R251, R256-R258) and the history it goes out to (R282, R468). -/

namespace Sys2Proof.Machine

/-! ## The value commanded -/

/-- A right shift is a division that rounds down (R12, R256, R257). -/
theorem asr_eq_fdiv (v : Int) (n : Nat) : asr v n = Int.fdiv v (2 ^ n) :=
  (Int.fdiv_eq_ediv_of_nonneg _ (by positivity)).symm

/-- The integer percent of a Q(S) value, rounded down and clamped (R257). -/
def percentOf (p : Params) (y : Int) : Int := max (-100) (min 100 (Int.fdiv y (2 ^ p.sfrac)))

/-- 8 bits hold the percent and its negative, so a motor command is the one or, where REV is 1, the other (R257,
R258). -/
theorem motorOf_toInt (p : Params) (rev : BitVec 8) (y : Int) :
    (motorOf p rev y).toInt = if rev = 1 then -percentOf p y else percentOf p y := by
  have hclamp : clamp (asr y p.sfrac) (-(Config.motorMax : Int)) Config.motorMax = percentOf p y := by
    rw [clamp_eq (by decide), asr_eq_fdiv]
    rfl
  have hlo : -100 ≤ percentOf p y := Int.le_max_left _ _
  have hhi : percentOf p y ≤ 100 := Int.max_le.mpr ⟨by decide, Int.min_le_left _ _⟩
  rw [motorOf, hclamp, wrap8]
  split <;> exact BitVec.toInt_ofInt_eq_self (by decide) (by omega) (by omega)

/-- A rest commands 0, reversed or not (R251). -/
theorem motorOf_zero (p : Params) (rev : BitVec 8) : motorOf p rev 0 = 0 := by
  have hpercent : percentOf p 0 = 0 := by
    rw [percentOf, Int.zero_fdiv]
    decide
  apply BitVec.eq_of_toInt_eq
  rw [motorOf_toInt, hpercent, Int.neg_zero, ite_self, BitVec.ofNat_eq_ofNat, BitVec.toInt_zero]

/-- The blend weighs output and target in 256ths, rounded down (R256). -/
theorem blendOutput_eq (blend : BitVec 16) (out tgt : Word) :
    blendOutput blend out tgt = Int.fdiv (out.toInt * blend.toNat + tgt.toInt * (256 - blend.toNat)) 256 :=
  asr_eq_fdiv _ 8

/-! ## The frame of an axis -/

/-- The frame of an axis with a zero target is the rest, whatever the speed (R251). -/
theorem frame_of_zero_target {x : Axis} (p : Params) (g : AxisCfg) (h : x.pidTgt = 0) :
    x.frame p g = (x.sensed p g).pidRest p g := if_pos h

/-- The frame of an axis with a nonzero target commands the blend of the output it leaves (R256-R258). -/
theorem frame_motorCmd_of_target {x : Axis} (p : Params) (g : AxisCfg) (h : x.pidTgt ≠ 0) :
    (x.frame p g).motorCmd = motorOf p g.rev (blendOutput g.blend (x.frame p g).pidOut x.pidTgt) := by
  have hframe : x.frame p g = (x.sensed p g).pidDrive p g ((x.sensed p g).measured p.encPolicy) := if_neg h
  rw [hframe, Axis.pidDrive_motorCmd]
  rfl

/-- Settles O16: each such axis rests. -/
theorem svcEncZeroTargetRests : Obligations.SvcEncZeroTargetRests := by
  intro s hdue hmode
  obtain ⟨t, hrun, -, haxes⟩ := exec_svcEnc hdue hmode
  refine ⟨t, hrun, fun a x hx htgt => ⟨_, getElem?_of_frames haxes hx, ?_⟩⟩
  rw [frame_of_zero_target _ _ htgt]
  exact ⟨rfl, rfl, rfl, htgt, motorOf_zero _ _⟩

/-! ## The history of motor commands -/

/-- SVC.ENC adds the commands it leaves in the axes, in their order (R282, R468, log 23). -/
theorem exec_svcEnc_motorOut {s t : State} (h : exec .svcEnc s = .next t) :
    t.motorOut = s.motorOut ++ t.axes.mapIdx fun a y => (a, y.motorCmd) := by
  obtain ⟨-, rfl⟩ := execSvcEnc_next h
  obtain ⟨q, m, r, hcheck, -⟩ := handshakeCheck_frame { s with encDue := false }.encFrame.dispatchMotors
  rw [hcheck]
  rfl

/-- Settles O18: the history as `exec_svcEnc_motorOut` gives it, and each axis's command by `motorOf_toInt`. -/
theorem svcEncCommandsTheMotor : Obligations.SvcEncCommandsTheMotor := by
  intro s hdue hmode
  obtain ⟨t, hrun, -, haxes⟩ := exec_svcEnc hdue hmode
  refine ⟨t, hrun, exec_svcEnc_motorOut hrun, fun a x hx htgt => ⟨_, getElem?_of_frames haxes hx, ?_⟩⟩
  rw [frame_motorCmd_of_target _ _ htgt, motorOf_toInt, blendOutput_eq]
  rfl

end Sys2Proof.Machine
end

section
/-! The sequencer's mode (R281-R284, R289): what the handshake check does to the state, and what holds outside NORMAL
mode, where no frame service runs. -/

namespace Sys2Proof.Machine

/-! ## The handshake -/

/-- Settles O41: the two branches of the mode guard. -/
theorem handshakeEntersConfig : Obligations.HandshakeEntersConfig :=
  fun _ => ⟨fun hnormal => if_pos hnormal, fun hother => if_neg hother⟩

/-- The handshake check as one state: the front byte leaves, and only 0x55 changes the mode and CFG_EDIT (R283). -/
theorem handshakeCheck_eq (s : State) :
    s.handshakeCheck =
      { s with
        serRxq := s.serRxq.tail
        mode := if s.serRxq.head? = some 0x55 then .config else s.mode
        cfgEdit := if s.serRxq.head? = some 0x55 then s.cfg else s.cfgEdit } := by
  rcases handshakeCheck_cases s with ⟨hq, h⟩ | ⟨rest, hq, h⟩ | ⟨b, rest, hq, hb, h⟩
  · rw [h, hq, List.head?_nil, if_neg nofun, if_neg nofun, List.tail_nil, ← hq]
  · simp [h, hq, State.enterConfig, State.withRxq]
  · have hne : ¬ some b = some 0x55 := mt Option.some.inj hb
    simp only [h, hq, List.head?_cons, List.tail_cons, if_neg hne, State.withRxq]

/-- A frame writes neither the last sample of its axis nor its target (R282, R283). -/
theorem frame_keeps_sample_and_target (x : Axis) (p : Params) (g : AxisCfg) :
    (x.frame p g).encPrev = x.encPrev ∧ (x.frame p g).encPv = x.encPv ∧ (x.frame p g).pidTgt = x.pidTgt := by
  rw [frame_eq]
  rcases pidStep_cases (x.sensed p g) p g ((x.sensed p g).measured p.encPolicy) with ⟨-, h⟩ | ⟨-, h⟩ <;> rw [h] <;>
    exact ⟨rfl, rfl, rfl⟩

/-- Settles O19: the frames of the axes, then the handshake check as `handshakeCheck_eq` gives it. -/
theorem svcEncChecksTheHandshake : Obligations.SvcEncChecksTheHandshake := by
  intro s hdue hmode
  obtain ⟨t, hrun, -, haxes⟩ := exec_svcEnc hdue hmode
  refine ⟨t, hrun, ?state, fun a x hx => ⟨_, getElem?_of_frames haxes hx, frame_keeps_sample_and_target x _ _⟩⟩
  obtain ⟨-, rfl⟩ := execSvcEnc_next hrun
  rw [handshakeCheck_eq, ← hmode]
  rfl

/-! ## Outside NORMAL mode -/

/-- An operation that completes outside NORMAL mode is neither frame service (R281, R284). -/
theorem ne_frame_service_of_not_normal {i : Instr} {s t : State} (hm : s.mode ≠ .normal) (h : exec i s = .next t) :
    i ≠ .svcEnc ∧ i ≠ .svcRx := by
  constructor
  · rintro rfl
    obtain ⟨henabled, -⟩ := execSvcEnc_next h
    exact hm (svcEncEnabled_iff.mp henabled).2
  · rintro rfl
    obtain ⟨henabled, -⟩ := execSvcRx_next h
    exact hm (svcRxEnabled_iff.mp henabled).2

/-- Besides RESET and the frame services, an operation leaves the axes or samples one of them (R143). -/
theorem exec_axes_of_ne_service {i : Instr} {s t : State} (h : exec i s = .next t) (hr : i ≠ .reset)
    (henc : i ≠ .svcEnc) (hrx : i ≠ .svcRx) :
    t.axes = s.axes ∨ ∃ a ab, t.axes = s.axes.modify a fun x => x.sample s.params.encPolicy ab := by
  have hf := exec_frame h
  cases i with
  | enc axis ab =>
    obtain ⟨-, rfl⟩ := execEnc_next h
    exact .inr ⟨axis.toNat, ab, rfl⟩
  | svcEnc => exact absurd rfl henc
  | svcRx => exact absurd rfl hrx
  | reset => exact absurd rfl hr
  | _ => exact .inl (congrArg State.axes hf :)

/-- Modifying an entry does not show in what is read of every entry, where the reading does not see the change. -/
theorem map_modify_of_unseen {α β : Type} {f : α → α} {g : α → β} (h : ∀ x, g (f x) = g x) (l : List α) (n : Nat) :
    (l.modify n f).map g = l.map g := by
  induction l generalizing n with
  | nil => cases n <;> rfl
  | cons x l ih =>
    cases n with
    | zero => exact congrArg (· :: l.map g) (h x)
    | succ n => exact congrArg (g x :: ·) (ih n)

/-- What holds of an axis outside NORMAL mode: its motor command, target, PID state and window (R289). -/
def Axis.outputs (x : Axis) : BitVec 8 × Word × Word × Word × Word × List (BitVec 16) :=
  (x.motorCmd, x.pidTgt, x.pidOut, x.pidInt, x.pidLast, x.encWin)

/-- A sample counts, and leaves the outputs of its axis (R143). -/
theorem sample_outputs (x : Axis) (policy : EncPolicy) (cur : BitVec 2) :
    (x.sample policy cur).outputs = x.outputs := by
  unfold Axis.sample
  split <;> rfl

/-- Settles O55: no frame service runs, so each flag stays or rises, and the axes are at most sampled. -/
theorem outputsHoldOutsideNormal : Obligations.OutputsHoldOutsideNormal := by
  intro s t i hm hr h
  obtain ⟨henc, hrx⟩ := ne_frame_service_of_not_normal hm h
  refine ⟨fun hdue => ?encDue, fun hdue => ?rxDue, ?axes⟩
  case encDue =>
    rcases exec_encDue h with hkeep | ⟨-, hraise⟩ | ⟨-, hclear⟩
    · exact hkeep.trans hdue
    · exact hraise hdue
    · exact absurd hclear (not_or.mpr ⟨henc, hr⟩)
  case rxDue =>
    rcases exec_rxDue h with hkeep | ⟨-, hraise⟩ | ⟨-, hclear⟩
    · exact hkeep.trans hdue
    · exact hraise hdue
    · exact absurd hclear (not_or.mpr ⟨hrx, hr⟩)
  case axes =>
    rcases exec_axes_of_ne_service h hr henc hrx with hkeep | ⟨a, ab, hsample⟩
    · rw [hkeep]
    · rw [hsample]
      exact map_modify_of_unseen (fun x => sample_outputs x _ ab) _ a

end Sys2Proof.Machine
end

section
/-! SVC.CFG (R312, R313): where it is enabled it answers the request at the front of SER_RXQ, a framing error or the
serial command whose bytes stand there; and SER, which puts bytes at the back (R310). -/

namespace Sys2Proof.Machine

/-! ## SER -/

/-- Settles O32: the two branches of the FIFO's guard. -/
theorem serQueuesOrDropsTheByte : Obligations.SerQueuesOrDropsTheByte :=
  fun _ _ => ⟨fun hroom => if_pos hroom, fun hfull => if_neg (Nat.not_lt.mpr hfull)⟩

/-! ## SVC.CFG where it is enabled -/

/-- SVC.CFG serves the front byte where R312's condition holds of it. -/
theorem exec_svcCfg_of_ready {s : State} {l : Byte} {rest : List Byte} (hm : s.mode = .config)
    (hq : s.serRxq = l :: rest)
    (hready : l.toNat = 0 ∨ 5 < l.toNat ∨ l.toNat ≤ rest.length ∨ s.params.serTimeout ≤ s.elapsed s.serLast) :
    exec .svcCfg s = .next (s.serveRequest l rest) := by
  have henabled : s.svcCfgEnabled = true := by
    refine svcCfgEnabled_iff.mpr ⟨hm, l, rest, hq, ?_⟩
    rwa [hq, List.length_cons, Nat.add_comm 1, Nat.add_le_add_iff_right, State.requestTimedOut, decide_eq_true_eq]
  obtain ⟨t, hrun⟩ := execSvcCfg_completes henabled
  obtain ⟨-, l', rest', hq', rfl⟩ := execSvcCfg_next hrun
  obtain ⟨rfl, rfl⟩ := List.cons.inj (hq.symm.trans hq')
  exact hrun

/-- A complete request at the front is taken off SER_RXQ and run (R313). -/
theorem exec_svcCfg_of_complete {s : State} {l op : Byte} {v tail : List Byte} (hm : s.mode = .config)
    (hq : s.serRxq = l :: (op :: v ++ tail)) (hl : l.toNat = 1 + v.length) (h5 : l.toNat ≤ 5) :
    exec .svcCfg s = .next ((s.withRxq tail).runCommand (op :: v)) := by
  have hlen : l.toNat = (op :: v).length := by rw [hl, List.length_cons, Nat.add_comm]
  have hle : l.toNat ≤ (op :: v ++ tail).length := by rw [hlen, List.length_append]; exact Nat.le_add_right _ _
  rw [exec_svcCfg_of_ready hm hq (.inr (.inr (.inl hle))), State.serveRequest, if_neg (by omega), if_neg (by omega),
    if_neg (Nat.not_lt.mpr hle), hlen, List.drop_left, List.take_left]

/-- A serial command is its request, run in CONFIG mode (R108). -/
theorem exec_toInstr {s : State} (r : Request) (hm : s.mode = .config) :
    exec r.toInstr s = .next (s.runRequest r) := by
  cases r <;> exact if_pos hm

/-- Settles O7: an accepted frame is a complete request whose opcode byte names the command. -/
theorem svcCfgRunsTheFrontRequest : Obligations.SvcCfgRunsTheFrontRequest := by
  intro s bs tail r hm hq hr
  obtain ⟨l, op, v, rfl, hl, h5, hcmd⟩ := decodeRequest_ok hr
  rw [exec_svcCfg_of_complete hm hq hl h5, State.runCommand, hcmd]
  exact (exec_toInstr (s := s.withRxq tail) r hm).symm

/-- Settles O33: each clause is one branch of `serveRequest`, the last the opcode bytes that name no command. -/
theorem svcCfgReportsFramingErrors : Obligations.SvcCfgReportsFramingErrors := by
  intro s l rest hm hq
  refine ⟨fun h0 => ?zero, fun h5 => ?oversized, fun h1 h5 hshort htime => ?timeout,
    fun op v tail hrest hl h5 hop => ?command⟩
  case zero =>
    have h0' : l.toNat = 0 := congrArg BitVec.toNat h0
    rw [exec_svcCfg_of_ready hm hq (.inl h0'), State.serveRequest, if_pos h0']
    rfl
  case oversized =>
    rw [exec_svcCfg_of_ready hm hq (.inr (.inl h5)), State.serveRequest, if_neg (by omega), if_pos h5]
    rfl
  case timeout =>
    rw [exec_svcCfg_of_ready hm hq (.inr (.inr (.inr htime))), State.serveRequest, if_neg (by omega),
      if_neg (by omega), if_pos hshort]
    rfl
  case command =>
    rw [exec_svcCfg_of_complete hm (hq.trans (congrArg _ hrest)) hl h5, State.runCommand, decodeCommand_none hop]
    rfl

/-! ## What an answer writes -/

/-- What a request makes of the state: it emits `resp`, and either leaves NV_COPY and MODE, or is a FINISH, which
leaves CFG_EDIT (R314-R316, R401). -/
structure State.Answers (s t : State) (resp : List Byte) : Prop where
  nonempty : resp ≠ []
  emits : t = { s.emit resp with cfgEdit := t.cfgEdit, nv := t.nv, mode := t.mode }
  saves : (t.nv = s.nv ∧ t.mode = s.mode) ∨ (t.cfgEdit = s.cfgEdit ∧ t.mode = .finished)

/-- An error code is an answer. -/
theorem protocolError_answers (s : State) (code : Byte) : s.Answers (s.protocolError code) [code] :=
  ⟨nofun, rfl, .inl ⟨rfl, rfl⟩⟩

/-- Every request is answered (R314-R316, R401). -/
theorem runRequest_answers (s : State) (r : Request) : ∃ resp, s.Answers (s.runRequest r) resp := by
  cases r with
  | read id v =>
    rcases runRead_cases s id v with ⟨-, h⟩ | ⟨a, f, -, -, h⟩ | ⟨a, f, -, -, h⟩ <;> rw [State.runRequest, h]
    · exact ⟨_, protocolError_answers s _⟩
    · exact ⟨_, List.cons_ne_nil _ _, rfl, .inl ⟨rfl, rfl⟩⟩
    · exact ⟨_, protocolError_answers s _⟩
  | write id v =>
    rcases runWrite_cases s id v with ⟨-, h⟩ | ⟨a, f, -, ⟨-, -, h⟩ | ⟨-, -, h⟩ | ⟨-, h⟩⟩ <;>
      rw [State.runRequest, h]
    · exact ⟨_, protocolError_answers s _⟩
    · exact ⟨[Config.ackByte], nofun, rfl, .inl ⟨rfl, rfl⟩⟩
    · exact ⟨_, protocolError_answers s _⟩
    · exact ⟨_, protocolError_answers s _⟩
  | finish v =>
    rcases runFinish_cases s v with ⟨-, h⟩ | ⟨-, h⟩ <;> rw [State.runRequest, h]
    · exact ⟨[Config.ackByte], nofun, rfl, .inr ⟨rfl, rfl⟩⟩
    · exact ⟨_, protocolError_answers s _⟩

/-- SVC.CFG takes the length byte, at least, and then answers (R313). -/
theorem serveRequest_answers (s : State) (l : Byte) (rest : List Byte) :
    ∃ q resp, q <:+ rest ∧ (s.withRxq q).Answers (s.serveRequest l rest) resp := by
  rcases serveRequest_cases s l rest with ⟨q, code, hq, h⟩ | ⟨op, v, r, -, -, -, -, -, h⟩ <;> rw [h]
  · exact ⟨q, _, hq, protocolError_answers _ code⟩
  · obtain ⟨resp, hresp⟩ := runRequest_answers (s.withRxq (rest.drop l.toNat)) r
    exact ⟨_, resp, List.drop_suffix _ _, hresp⟩

/-- Settles O34: SVC.CFG serves the front byte, and what it does then is an answer. -/
theorem svcCfgAnswersTheRequest : Obligations.SvcCfgAnswersTheRequest := by
  intro s l rest hm hq hready
  obtain ⟨q, resp, hsuffix, hne, hemit, hsave⟩ := serveRequest_answers s l rest
  have hrun := exec_svcCfg_of_ready hm hq hready
  generalize s.serveRequest l rest = t at hrun hemit hsave
  have hrxq : t.serRxq = q := (congrArg State.serRxq hemit :)
  refine ⟨t, resp, hrun, hne, (congrArg State.serTx hemit :), hrxq ▸ hsuffix, exec_frame hrun, fun hmode => ?_, ?_⟩
  · rcases hsave with ⟨hnv, -⟩ | ⟨-, hfin⟩
    · exact hnv
    · exact absurd (hmode.symm.trans hfin) nofun
  · exact hsave.imp (fun h => h.2.trans hm) And.symm

end Sys2Proof.Machine
end

section
/-! READ, WRITE and FINISH, request by request (R109-R112, R313-R318, R323): the bytes of a field's value, and each
answer for the operands that lead to it. -/

namespace Sys2Proof.Machine

/-! ## Little-endian values -/

/-- The bytes of a value above the first are those of the value shifted (R112). -/
theorem leBytes_succ (n : Nat) (v : Word) : leBytes (n + 1) v = v.extractLsb' 0 8 :: leBytes n (v >>> 8) := by
  have hbyte : ∀ i, v.extractLsb' (8 * (i + 1)) 8 = (v >>> 8).extractLsb' (8 * i) 8 := by
    intro i
    ext j hj
    simp only [BitVec.getElem_extractLsb', BitVec.getLsbD_ushiftRight]
    congr 1
    omega
  simp only [leBytes, List.range_succ_eq_map, List.map_cons, List.map_map, Nat.mul_zero]
  exact congrArg _ (List.map_congr_left fun i _ => hbyte i)

/-- The low bytes of a value spell it modulo 256 to their number (R111, R112). -/
theorem leNat_leBytes (n : Nat) (v : Word) : leNat (leBytes n v) = v.toNat % 2 ^ (8 * n) := by
  induction n generalizing v with
  | zero => exact (Nat.mod_one _).symm
  | succ n ih =>
    rw [leBytes_succ, leNat, ih, BitVec.toNat_ushiftRight, Nat.shiftRight_eq_div_pow, BitVec.extractLsb'_toNat,
      Nat.shiftRight_zero]
    calc v.toNat % 2 ^ 8 + 2 ^ 8 * (v.toNat / 2 ^ 8 % 2 ^ (8 * n))
      _ = v.toNat % (2 ^ 8 * 2 ^ (8 * n)) := Nat.mod_mul.symm
      _ = v.toNat % 2 ^ (8 * (n + 1)) := by rw [← Nat.pow_add, Nat.mul_succ, Nat.add_comm]

/-- A field's value fits its bytes (R50, R111). -/
theorem fieldValue_lt (g : AxisCfg) (f : Field) : (g.get f).toNat < 2 ^ (8 * f.size) := by
  have widened : ∀ {n : Nat} (x : BitVec n), (x.setWidth 32).toNat < 2 ^ n := fun x =>
    (BitVec.toNat_setWidth 32 x ▸ Nat.mod_le _ _).trans_lt x.isLt
  cases f with
  | kp | ki | kd => exact BitVec.isLt _
  | blend | ewin | rev | calm => exact widened _

/-- The value of a WRITE of the right length is its bytes' number, and fits its field (R111). -/
theorem leValue_of_size {v : List Byte} {f : Field} (hv : v.length = f.size) :
    (leValue v).toNat = leNat v ∧ (leValue v).toNat < 2 ^ (8 * f.size) := by
  have hval : (leValue v).toNat = leNat v := leValue_toNat (hv.trans_le (fieldSize_le f))
  exact ⟨hval, hval ▸ hv ▸ leNat_lt v⟩

/-! ## Valid parameters -/

/-- A READ of a parameter is answered by its length (R313). -/
theorem runRead_of_param {s : State} {id : BitVec 4} {a : Nat} {f : Field} (v : List Byte)
    (hp : paramOf s.params id = some (a, f)) :
    s.runRead id v = if v.length = 0 then s.readParam a f else s.protocolError errLength := by
  simp only [State.runRead, hp]

/-- A WRITE of a parameter is answered by its length, then by its value (R313, R318). -/
theorem runWrite_of_param {s : State} {id : BitVec 4} {a : Nat} {f : Field} (v : List Byte)
    (hp : paramOf s.params id = some (a, f)) :
    s.runWrite id v =
      if v.length = f.size then
        if f.legal s.params.wCap (leValue v) then s.writeParam a f (leValue v) else s.protocolError errRange
      else s.protocolError errLength := by
  simp only [State.runWrite, hp]

/-- Setting a field of an axis leaves every other field of the record (R315). -/
theorem field_setField_ne {r : Record} {a a' : Nat} {f f' : Field} (v : Word) (ha : a < r.length)
    (h : a' ≠ a ∨ f' ≠ f) : (r.setField a f v).field a' f' = r.field a' f' := by
  rw [Record.field, Record.field]
  rcases eq_or_ne a' a with rfl | hne
  · rw [Record.axis_setField_self r f v ha, AxisCfg.get_set_ne _ v (h.resolve_left (not_not_intro rfl))]
  · rw [Record.axis_setField_ne r f v hne]

/-- Settles O35: the bytes are the field's, which fits in them. -/
theorem readAnswersTheField : Obligations.ReadAnswersTheField := by
  intro s id f hm hf ha
  refine ⟨leBytes f.size (s.cfgEdit.field (idAxis id) f), ?_, leBytes_length _ _, ?_⟩
  · exact execReqRead_of_param hm (paramOf_of_valid hf ha)
  · exact (leNat_leBytes _ _).trans (Nat.mod_eq_of_lt (fieldValue_lt _ f))

/-- Settles O36: the record written is CFG_EDIT with that field set. -/
theorem writeSetsTheEditedField : Obligations.WriteSetsTheEditedField := by
  intro s id v f hm hc hf ha hv hl
  obtain ⟨-, hedit⟩ := hc
  have hlen : idAxis id < s.cfgEdit.length := (Record.legal_iff.mp hedit).1.symm ▸ ha
  exact ⟨s.cfgEdit.setField (idAxis id) f (leValue v),
    execReqWrite_of_param hm (paramOf_of_valid hf ha) hv hl, Record.length_setField _ _ _ _,
    field_setField_self hlen (leValue_of_size hv).2, fun a f' hother => field_setField_ne _ hlen hother⟩

/-- Settles O37: each value named is outside its field's legal set, so R318's branch answers. -/
theorem writeRefusesIllegalValues : Obligations.WriteRefusesIllegalValues := by
  intro s id v f hm hf ha hv hout
  have hillegal : ¬ f.legal s.params.wCap (leValue v) = true := by
    rw [← (leValue_of_size hv).1] at hout
    rcases hout with ⟨rfl, h⟩ | ⟨rfl, h⟩ | ⟨rfl | rfl, h⟩ <;> simp only [Field.legal, decide_eq_true_eq] <;> omega
  refine (if_pos hm).trans ?_
  rw [runWrite_of_param v (paramOf_of_valid hf ha), if_pos hv, if_neg hillegal]
  rfl

/-! ## Bad ids and lengths -/

/-- An id that names no field, or no axis of the block, names no parameter (R110). -/
theorem paramOf_of_invalid {p : Params} {id : BitVec 4}
    (h : (id.extractLsb' 0 3).toNat = 7 ∨ p.nax ≤ (id.extractLsb' 3 1).toNat) : paramOf p id = none := by
  rcases hp : paramOf p id with _ | ⟨a, f⟩
  · rfl
  · obtain ⟨rfl, hf, ha⟩ := paramOf_some hp
    rcases h with h7 | hnax
    · rw [idField, h7] at hf
      exact nomatch hf
    · exact absurd ha (Nat.not_lt.mpr hnax)

/-- Settles O38: R313 looks up the id first, then the length. -/
theorem requestsReportBadIdsAndLengths : Obligations.RequestsReportBadIdsAndLengths := by
  intro s id v hm _
  have hread : exec (.reqRead id v) s = .next (s.runRead id v) := if_pos hm
  have hwrite : exec (.reqWrite id v) s = .next (s.runWrite id v) := if_pos hm
  have hfinish : exec (.reqFinish v) s = .next (s.runFinish v) := if_pos hm
  have hlen : v ≠ [] → ¬ v.length = 0 := mt List.length_eq_zero_iff.mp
  refine ⟨fun hbad => ?badId, fun f hf ha => ⟨fun hv => ?read, fun hv => ?write⟩, fun hv => ?finish⟩
  case badId =>
    rw [hread, hwrite, State.runRead, State.runWrite, paramOf_of_invalid hbad]
    exact ⟨rfl, rfl⟩
  case read =>
    rw [hread, runRead_of_param v (paramOf_of_valid hf ha), if_neg (hlen hv)]
    rfl
  case write =>
    rw [hwrite, runWrite_of_param v (paramOf_of_valid hf ha), if_neg hv]
    rfl
  case finish =>
    rw [hfinish, State.runFinish, if_neg (hlen hv)]
    rfl

/-! ## FINISH -/

/-- Settles O40: in CONFIG mode, and without value bytes, `finish` is the whole effect. -/
theorem finishPersistsTheEdit : Obligations.FinishPersistsTheEdit :=
  fun _ hm => if_pos hm

end Sys2Proof.Machine
end

section
/-! The record that RESET loads (R317, R321, R322): the vote of the copies field by field, and after a FINISH (R323) the
record saved, even where NVFAULT has made one copy invalid (R361). -/

namespace Sys2Proof

/-! ## The vote -/

/-- The vote of three values, comparison by comparison (R321). -/
theorem vote3_eq {α : Type} [DecidableEq α] (x y z d : α) :
    vote3 x y z d = if x = y then x else if x = z then x else if y = z then y else d := by
  unfold vote3
  split_ifs <;> tauto

/-- Two copies that agree carry the vote, wherever the third stands (R321). -/
theorem vote3_of_two {α : Type} [DecidableEq α] (x y d : α) :
    vote3 y x x d = x ∧ vote3 x y x d = x ∧ vote3 x x y d = x := by
  refine ⟨?_, if_pos (.inr rfl), if_pos (.inl rfl)⟩
  rw [vote3, if_pos rfl]
  split_ifs with h
  · exact h.elim id id
  · rfl

/-- A field is DEFAULT_CFG's on an axis without a parameter id where the block has it so, and the vote elsewhere (R317,
R322). -/
theorem loadField_eq (p : Params) (nv : NvStore) (a : Nat) (f : Field) :
    loadField p nv a f =
      if 2 ≤ a ∧ Config.idlessByDefault = true then p.defaultCfg.field a f else votedField p nv a f := by
  simp [loadField, onlyDefault]

/-- An axis of the loaded record has its fields loaded one by one (R322). -/
theorem loadConfig_axis {p : Params} (nv : NvStore) {a : Nat} (ha : a < p.nax) :
    (loadConfig p nv).axis a = AxisCfg.ofFields (loadField p nv a) := by
  simp [loadConfig, Record.axis, List.getD_eq_getElem?_getD, ha]

/-- A field loaded is read back, since it is legal (R322). -/
theorem loadConfig_field {p : Params} (hp : p.legal = true) (nv : NvStore) {a : Nat} (ha : a < p.nax) (f : Field) :
    (loadConfig p nv).field a f = loadField p nv a f := by
  rw [Record.field, loadConfig_axis nv ha]
  exact AxisCfg.get_ofFields_of_lt _ _ (Field.lt_of_legal (Params.wCap_bounds hp).2 (loadField_legal hp nv ha f))

/-! ## The saved record -/

/-- One invalid copy does not change the vote of a saved legal field (R321, R322, R361). -/
theorem votedField_saved {p : Params} {r : Record} {a : Nat} {f : Field} {k : BitVec 2} (hk : k ≠ 3)
    (hlegal : f.legal p.wCap (r.field a f) = true) :
    votedField p ((NvStore.saved r).invalidate k.toNat) a f = r.field a f := by
  have hvote : vote3 (((NvStore.saved r).invalidate k.toNat).copy0.vote a f)
      (((NvStore.saved r).invalidate k.toNat).copy1.vote a f)
      (((NvStore.saved r).invalidate k.toNat).copy2.vote a f) (p.defaultCfg.field a f) = r.field a f := by
    obtain ⟨hfirst, hsecond, hthird⟩ := vote3_of_two (r.field a f) 0 (p.defaultCfg.field a f)
    have hcopy : k = 0 ∨ k = 1 ∨ k = 2 := by revert k; decide
    rcases hcopy with rfl | rfl | rfl
    · exact hfirst
    · exact hsecond
    · exact hthird
  simp only [votedField, hvote, if_pos hlegal]

/-- So each axis loaded is the saved one, or DEFAULT_CFG's (R317, R322, R323). -/
theorem loadConfig_saved_axis {p : Params} {r : Record} {a : Nat} {k : BitVec 2} (hk : k ≠ 3)
    (hr : Record.legal p.nax p.wCap r = true) (ha : a < p.nax) :
    (loadConfig p ((NvStore.saved r).invalidate k.toNat)).axis a =
      if 2 ≤ a ∧ Config.idlessByDefault = true then p.defaultCfg.axis a else r.axis a := by
  rw [loadConfig_axis _ ha, ← AxisCfg.ofFields_get (ite ..)]
  congr 1
  funext f
  rw [loadField_eq]
  split_ifs
  · rfl
  · exact votedField_saved hk (AxisCfg.legal_iff.mp (Record.axis_legal hr ha) f)

/-- Records of as many axes are equal where every axis is. -/
theorem Record.eq_of_axis {r r' : Record} {n : Nat} (hr : r.length = n) (hr' : r'.length = n)
    (h : ∀ a < n, r.axis a = r'.axis a) : r = r' := by
  refine List.ext_getElem (hr.trans hr'.symm) fun a ha ha' => ?_
  have haxis := h a (hr ▸ ha)
  rwa [Record.axis, Record.axis, List.getD_eq_getElem _ _ ha, List.getD_eq_getElem _ _ ha'] at haxis

end Sys2Proof

namespace Sys2Proof.Machine

/-! ## RESET -/

/-- Settles O50: RESET loads `loadConfig`, field by field. -/
theorem resetLoadsTheVote : Obligations.ResetLoadsTheVote := by
  intro s hp
  refine ⟨s.resetSequence, rfl, loadConfig_legal hp s.nv, rfl, fun a f ha => ?_⟩
  rw [State.resetSequence_cfg, loadConfig_field hp s.nv ha, loadField_eq, votedField, vote3_eq]
  rfl

/-- What FINISH, NVFAULT and RESET make of the state (R316, R361, R451). -/
theorem performAll_finish_fault_reset {s : State} {k : BitVec 2} (hm : s.mode = .config) (hk : k ≠ 3) :
    performAll [.reqFinish [], .nvfault k, .reset] s =
      .next { s.finish with nv := (NvStore.saved s.cfgEdit).invalidate k.toNat }.resetSequence := by
  have hfinish : exec (.reqFinish []) s = .next s.finish := if_pos hm
  have hfault : exec (.nvfault k) s.finish =
      .next { s.finish with nv := (NvStore.saved s.cfgEdit).invalidate k.toNat } := if_neg hk
  rw [performAll_cons _ hfinish, performAll_cons _ hfault]
  rfl

/-- Settles O51: the loaded axes are those saved, and axes 0 and 1 are never DEFAULT_CFG's instead. -/
theorem finishSurvivesOneBadCopy : Obligations.FinishSurvivesOneBadCopy := by
  intro s k hp hm hc hk
  obtain ⟨-, hedit⟩ := hc
  obtain ⟨hlen, -⟩ := Record.legal_iff.mp (loadConfig_legal hp ((NvStore.saved s.cfgEdit).invalidate k.toNat))
  obtain ⟨hlen', -⟩ := Record.legal_iff.mp hedit
  refine ⟨_, performAll_finish_fault_reset hm hk, fun hnamed => ?_, hlen,
    fun a ha => loadConfig_saved_axis hk hedit ha, rfl, rfl, rfl⟩
  refine Record.eq_of_axis hlen hlen' fun a ha => (loadConfig_saved_axis hk hedit ha).trans (if_neg ?_)
  rintro ⟨hidless, -⟩
  omega

end Sys2Proof.Machine
end

section
/-! The host's operations on the register space and the persisted copies: RDREG (R89, R360) and NVFAULT (R361). -/

namespace Sys2Proof

/-! ## The persisted copies -/

/-- The copies NVFAULT can name (R104). -/
theorem copy_index_cases {k : BitVec 2} (hk : k ≠ 3) : k = 0 ∨ k = 1 ∨ k = 2 := by
  revert k
  decide

/-- Invalidation, copy by copy: only the valid bit of copy `k` falls (R361). -/
theorem NvStore.invalidate_eq (nv : NvStore) {k : BitVec 2} (hk : k ≠ 3) :
    nv.invalidate k.toNat =
      { copy0 := { record := nv.copy0.record, valid := nv.copy0.valid && decide (k ≠ 0) }
        copy1 := { record := nv.copy1.record, valid := nv.copy1.valid && decide (k ≠ 1) }
        copy2 := { record := nv.copy2.record, valid := nv.copy2.valid && decide (k ≠ 2) } } := by
  rcases copy_index_cases hk with rfl | rfl | rfl <;> simp [NvStore.invalidate]

end Sys2Proof

namespace Sys2Proof.Machine

/-! ## NVFAULT -/

/-- NVFAULT on a copy of the block (R361). -/
theorem exec_nvfault {k : BitVec 2} (hk : k ≠ 3) (s : State) :
    exec (.nvfault k) s = .next { s with nv := s.nv.invalidate k.toNat } := if_neg hk

/-- Settles O48, by what invalidation does to each copy. -/
theorem nvfaultInvalidatesOneCopy : Obligations.NvfaultInvalidatesOneCopy := by
  intro k s hk
  rw [exec_nvfault hk, NvStore.invalidate_eq s.nv hk]

/-! ## RDREG -/

/-- RDREG completes in every state with the register's value (R360). -/
theorem exec_rdreg (addr : BitVec 12) (s : State) :
    exec (.rdreg addr) s = .next (s.returnToHost (s.memRead addr)) := rfl

/-- What the host gets is appended result by result. -/
theorem State.returnToHost_returnToHost (s : State) (v w : Word) :
    (s.returnToHost v).returnToHost w = { s with hostOut := s.hostOut ++ [v, w] } := by
  simp [State.returnToHost]

/-- Settles O42: no register shows what the host was given, so that a second read returns the same value. -/
theorem rdregReturnsTheRegister : Obligations.RdregReturnsTheRegister := by
  intro addr s
  obtain ⟨-, -, -, hlevel⟩ := memRead_global s
  refine ⟨exec_rdreg addr s, ?_, hlevel⟩
  have hfirst := exec_rdreg addr s
  have hsecond := exec_rdreg addr (s.returnToHost (s.memRead addr))
  rw [returnToHost_memRead, State.returnToHost_returnToHost] at hsecond
  rw [performAll_cons _ hfirst, performAll_cons _ hsecond]
  rfl

end Sys2Proof.Machine
end

section
/-! What RESET leaves in each element of the state (R59, R451), and the three changes of mode (R53, R406). -/

namespace Sys2Proof.Machine

/-! ## RESET -/

/-- An axis of the reset block is an initial one (R451). -/
theorem resetSequence_axis {s : State} {x : Axis} (h : x ∈ s.resetSequence.axes) : x = Axis.initial s.params :=
  List.eq_of_mem_replicate h

/-- So is a channel (R451). -/
theorem resetSequence_chan {s : State} {x : Channel} (h : x ∈ s.resetSequence.chans) :
    x = Channel.initial s.params :=
  List.eq_of_mem_replicate h

/-- The motor commands of initial axes are 0, axis by axis (R49, R468). -/
theorem mapIdx_motorCmd_initial (n : Nat) (p : Params) :
    (List.replicate n (Axis.initial p)).mapIdx (fun a x => (a, x.motorCmd)) = (List.range n).map fun a => (a, 0) := by
  apply List.ext_getElem
  · simp
  · simp [Axis.initial]

/-- Settles O49: outside the lists of axes and channels and the motor history the values are those `resetSequence`
writes or keeps. -/
theorem resetGivesResetValues : Obligations.ResetGivesResetValues := by
  intro s
  refine ⟨s.resetSequence, rfl, rfl, rfl, rfl, rfl, rfl, rfl, rfl, rfl, List.length_replicate, fun x hx => ?axis,
    rfl, rfl, rfl, List.length_replicate, fun x hx => ?chan,
    rfl, rfl, rfl, rfl, rfl, rfl, rfl, rfl, rfl, rfl, ?motors⟩
  case axis =>
    rw [resetSequence_axis hx]
    exact ⟨rfl, rfl, rfl, rfl, rfl, rfl, rfl, rfl, rfl, rfl, rfl, rfl⟩
  case chan =>
    rw [resetSequence_chan hx]
    exact ⟨rfl, rfl, rfl, rfl, rfl, rfl, rfl⟩
  case motors => rw [State.resetSequence_motorOut, mapIdx_motorCmd_initial]

/-! ## Changes of mode -/

/-- The handshake check changes the mode by the byte 0x55 only (R283). -/
theorem handshakeCheck_mode (s : State) :
    s.handshakeCheck.mode = s.mode ∨ (s.handshakeCheck.mode = .config ∧ s.serRxq.head? = some 0x55) := by
  rcases handshakeCheck_cases s with ⟨-, h⟩ | ⟨rest, hq, h⟩ | ⟨b, rest, -, -, h⟩ <;> rw [h]
  · exact .inl rfl
  · exact .inr ⟨rfl, by rw [hq, List.head?_cons]⟩
  · exact .inl rfl

/-- A FINISH changes the mode where it has no value bytes (R313, R316). -/
theorem runFinish_mode (s : State) (v : List Byte) :
    (s.runFinish v).mode = s.mode ∨ ((s.runFinish v).mode = .finished ∧ v = []) := by
  rcases runFinish_cases s v with ⟨hv, h⟩ | ⟨-, h⟩ <;> rw [h]
  · exact .inr ⟨rfl, hv⟩
  · exact .inl rfl

/-- Of the requests only FINISH changes the mode (R314-R316). -/
theorem runRequest_mode (s : State) (r : Request) :
    (s.runRequest r).mode = s.mode ∨ ((s.runRequest r).mode = .finished ∧ r = .finish []) := by
  cases r with
  | read id v =>
    obtain ⟨bs, h⟩ := runRead_frame s id v
    exact .inl (congrArg State.mode h :)
  | write id v =>
    obtain ⟨r, bs, h, -⟩ := runWrite_frame s id v
    exact .inl (congrArg State.mode h :)
  | finish v => exact (runFinish_mode s v).imp_right (And.imp_right (congrArg Request.finish))

/-- Only the opcode byte 0xFF, alone, spells a FINISH without value bytes (R109). -/
theorem decodeCommand_eq_finish_nil {op : Byte} {v : List Byte} (h : decodeCommand op v = some (.finish [])) :
    op = 0xFF ∧ v = [] := by
  rcases decodeCommand_some h with ⟨hop, hr⟩ | ⟨-, hr⟩ | ⟨-, -, hr⟩
  · exact ⟨hop, (Request.finish.inj hr).symm⟩
  · cases hr
  · cases hr

/-- SVC.CFG changes the mode where the bytes 01 FF, a FINISH, stand at the front (R313, R316). -/
theorem serveRequest_mode (s : State) (l : Byte) (rest : List Byte) :
    (s.serveRequest l rest).mode = s.mode ∨
      ((s.serveRequest l rest).mode = .finished ∧ (l :: rest).take 2 = [1, 0xFF]) := by
  rcases serveRequest_cases s l rest with ⟨q, code, -, h⟩ | ⟨op, v, r, htake, -, -, hle, hcmd, h⟩ <;> rw [h]
  · exact .inl rfl
  · refine (runRequest_mode _ r).imp_right (And.imp_right ?_)
    rintro rfl
    obtain ⟨rfl, rfl⟩ := decodeCommand_eq_finish_nil hcmd
    have hlen : l.toNat = 1 := by
      have := congrArg List.length htake
      rwa [List.length_take_of_le hle] at this
    rw [hlen] at htake
    rw [List.take_succ_cons, htake, BitVec.eq_of_toNat_eq (y := 1) hlen]

/-- Settles O52: the frames keep the mode of every operation but the handshake, FINISH, RESET and the two services that
run a serial command, whose guards give the mode before. -/
theorem modeChangesAreTheThree : Obligations.ModeChangesAreTheThree := by
  intro s t i h hne
  have hf := exec_frame h
  cases i with
  | handshake =>
    obtain ⟨hm, rfl⟩ := execHandshake_next h
    exact .inl ⟨hm, rfl, .inl rfl⟩
  | svcEnc =>
    obtain ⟨henabled, rfl⟩ := execSvcEnc_next h
    obtain ⟨-, hm⟩ := svcEncEnabled_iff.mp henabled
    obtain ⟨hconfig, hbyte⟩ := (handshakeCheck_mode _).resolve_left hne
    exact .inl ⟨hm, hconfig, .inr ⟨rfl, hbyte⟩⟩
  | reqFinish v =>
    obtain ⟨hm, rfl⟩ := execReqFinish_next h
    obtain ⟨hfinished, rfl⟩ := (runFinish_mode s v).resolve_left hne
    exact .inr (.inl ⟨hm, hfinished, .inl rfl⟩)
  | svcCfg =>
    obtain ⟨henabled, l, rest, hq, rfl⟩ := execSvcCfg_next h
    obtain ⟨hm, -⟩ := svcCfgEnabled_iff.mp henabled
    obtain ⟨hfinished, hbytes⟩ := (serveRequest_mode s l rest).resolve_left hne
    exact .inr (.inl ⟨hm, hfinished, .inr ⟨rfl, hq ▸ hbytes⟩⟩)
  | reset =>
    obtain rfl := Host.Outcome.next.inj h
    exact .inr (.inr ⟨rfl, rfl⟩)
  | _ => exact absurd (congrArg State.mode hf :) hne

end Sys2Proof.Machine
end
